-- ==== Sys2Proof/Word.lean ====
section
/-! DEFINITION. The word types of the hart: XLEN-bit words, 32-bit patterns, bytes and the five flags. -/

namespace Sys2Proof

/-- An XLEN-bit quantity (integer register, pc, address). At XLEN=32 the value stands zero-extended in 64 bits
(assumption log 2); the operations of `Machine/Ops.lean` keep it so. -/
abbrev Word := BitVec 64

/-- A 32-bit pattern: the contents of a floating-point register (FLEN=32, R8, R21) or an instruction word (R80). -/
abbrev Bits32 := BitVec 32

/-- A byte of memory (R50). -/
abbrev Byte := BitVec 8

/-- The field `fflags`: NV, DZ, OF, UF, NX from bit 4 to bit 0 (R27). -/
abbrev Flags := BitVec 5

end Sys2Proof
end

