-- ==== Sys2Proof/Machine/Flags.lean ====
section
/-! DEFINITION. The accrued exception flags (R11, R29, R150): their masks. Which flags an operation yields is computed
beside its result in `Numerics.lean` and `Arith.lean`. -/

namespace Sys2Proof.Machine

/-- No flag. -/
def flagNone : Flags := 0b00000#5
/-- Invalid operation (R27). -/
def flagNV : Flags := 0b10000#5
/-- Divide by zero (R27). -/
def flagDZ : Flags := 0b01000#5
/-- Overflow (R27). -/
def flagOF : Flags := 0b00100#5
/-- Underflow (R27). -/
def flagUF : Flags := 0b00010#5
/-- Inexact (R27). -/
def flagNX : Flags := 0b00001#5

/-- The flag `m` if the condition holds, else none. -/
def flagIf (c : Bool) (m : Flags) : Flags := if c then m else flagNone

/-- The flag combinations one instruction can produce (R151): none, NX, UF with NX, OF with NX, DZ, NV. -/
def legalFlags (m : Flags) : Bool :=
  m == flagNone || m == flagNX || m == flagUF ||| flagNX || m == flagOF ||| flagNX || m == flagDZ || m == flagNV

end Sys2Proof.Machine
end

