-- ==== Sys2Proof/Syntax.lean ====
section
/-! DEFINITION. The instructions: one constructor per row of `opcode_table.json` (`30_encoding.md` R84, R85, R88 and
`41_fcsr_access.md` R171). -/

namespace Sys2Proof

/-- The number of an integer register `x0`..`x31` (R24). -/
abbrev XReg := BitVec 5

/-- The number of a floating-point register `f0`..`f31` (R21). -/
abbrev FReg := BitVec 5

/-- The number of a control and status register (R171). -/
abbrev CsrNum := BitVec 12

/-- The five rounding modes (R130). -/
inductive RoundMode where
  /-- To nearest, ties to even (000). -/
  | rne
  /-- Towards zero (001). -/
  | rtz
  /-- Down, towards minus infinity (010). -/
  | rdn
  /-- Up, towards plus infinity (011). -/
  | rup
  /-- To nearest, ties to maximum magnitude (100). -/
  | rmm
  deriving DecidableEq, Repr

/-- The `rm` field of an instruction, bits 14:12, all eight values (R85). -/
inductive RmField where
  /-- 000 to 100: a static rounding mode. -/
  | static (m : RoundMode)
  /-- 101, reserved. -/
  | reserved101
  /-- 110, reserved. -/
  | reserved110
  /-- 111, DYN: the mode held in `frm`. -/
  | dyn
  deriving DecidableEq, Repr

/-- The instructions of the F extension and the six CSR instructions. The register file each field names is that of
R84. -/
inductive Instr where
  | flw (rd : FReg) (rs1 : XReg) (imm : BitVec 12)
  | fsw (rs2 : FReg) (rs1 : XReg) (imm : BitVec 12)
  | fmaddS (rd rs1 rs2 rs3 : FReg) (rm : RmField)
  | fmsubS (rd rs1 rs2 rs3 : FReg) (rm : RmField)
  | fnmsubS (rd rs1 rs2 rs3 : FReg) (rm : RmField)
  | fnmaddS (rd rs1 rs2 rs3 : FReg) (rm : RmField)
  | faddS (rd rs1 rs2 : FReg) (rm : RmField)
  | fsubS (rd rs1 rs2 : FReg) (rm : RmField)
  | fmulS (rd rs1 rs2 : FReg) (rm : RmField)
  | fdivS (rd rs1 rs2 : FReg) (rm : RmField)
  | fsqrtS (rd rs1 : FReg) (rm : RmField)
  | fsgnjS (rd rs1 rs2 : FReg)
  | fsgnjnS (rd rs1 rs2 : FReg)
  | fsgnjxS (rd rs1 rs2 : FReg)
  | fminS (rd rs1 rs2 : FReg)
  | fmaxS (rd rs1 rs2 : FReg)
  | fcvtWS (rd : XReg) (rs1 : FReg) (rm : RmField)
  | fcvtWUS (rd : XReg) (rs1 : FReg) (rm : RmField)
  | fcvtLS (rd : XReg) (rs1 : FReg) (rm : RmField)
  | fcvtLUS (rd : XReg) (rs1 : FReg) (rm : RmField)
  | fmvXW (rd : XReg) (rs1 : FReg)
  | fclassS (rd : XReg) (rs1 : FReg)
  | feqS (rd : XReg) (rs1 rs2 : FReg)
  | fltS (rd : XReg) (rs1 rs2 : FReg)
  | fleS (rd : XReg) (rs1 rs2 : FReg)
  | fcvtSW (rd : FReg) (rs1 : XReg) (rm : RmField)
  | fcvtSWU (rd : FReg) (rs1 : XReg) (rm : RmField)
  | fcvtSL (rd : FReg) (rs1 : XReg) (rm : RmField)
  | fcvtSLU (rd : FReg) (rs1 : XReg) (rm : RmField)
  | fmvWX (rd : FReg) (rs1 : XReg)
  | csrrw (rd : XReg) (csr : CsrNum) (rs1 : XReg)
  | csrrs (rd : XReg) (csr : CsrNum) (rs1 : XReg)
  | csrrc (rd : XReg) (csr : CsrNum) (rs1 : XReg)
  | csrrwi (rd : XReg) (csr : CsrNum) (uimm : BitVec 5)
  | csrrsi (rd : XReg) (csr : CsrNum) (uimm : BitVec 5)
  | csrrci (rd : XReg) (csr : CsrNum) (uimm : BitVec 5)
  deriving DecidableEq, Repr

end Sys2Proof
end

