-- ==== Sys2Proof/Machine/Numerics.lean ====
section
/-! DEFINITION. Floating-point numerics (`40_fp_numerics.md`): the binary32 format, exact values, rounding to an integer
(R133) and to binary32 (R134) with the flags. Arithmetic is exact, on natural numbers and integers, and narrows once at
the end. Most of it the spec itself marks as general knowledge (GK9 to GK14, GK23; assumption log 3). -/

namespace Sys2Proof.Machine

/-! ### The format (R121, R122, R124) -/

/-- `sign(b)` (R121). -/
def fsign (b : Bits32) : Bool := b.getLsbD 31
/-- `exp(b)`, the biased exponent (R121). -/
def fexp (b : Bits32) : BitVec 8 := b.extractLsb' 23 8
/-- `frac(b)`, the trailing significand (R121). -/
def ffrac (b : Bits32) : BitVec 23 := b.extractLsb' 0 23

/-- A pattern from its three fields (R121). -/
def pack (s : Bool) (e : BitVec 8) (m : BitVec 23) : Bits32 := BitVec.ofBool s ++ e ++ m

def isZero (b : Bits32) : Bool := fexp b == 0#8 && ffrac b == 0#23
def isSubnormal (b : Bits32) : Bool := fexp b == 0#8 && ffrac b != 0#23
def isNormal (b : Bits32) : Bool := fexp b != 0#8 && fexp b != 255#8
def isInf (b : Bits32) : Bool := fexp b == 255#8 && ffrac b == 0#23
def isNaN (b : Bits32) : Bool := fexp b == 255#8 && ffrac b != 0#23
/-- A signaling NaN: the quiet bit, bit 22, is 0 (R125). -/
def isSNaN (b : Bits32) : Bool := isNaN b && !b.getLsbD 22
/-- A quiet NaN: the quiet bit is 1 (R125). -/
def isQNaN (b : Bits32) : Bool := isNaN b && b.getLsbD 22
def isFinite (b : Bits32) : Bool := fexp b != 255#8

/-- The canonical NaN (R126). -/
def cnan : Bits32 := 0x7fc00000#32
/-- A zero of the given sign. -/
def zeroOf (s : Bool) : Bits32 := pack s 0#8 0#23
/-- An infinity of the given sign. -/
def infOf (s : Bool) : Bits32 := pack s 255#8 0#23
/-- The largest finite number of the given sign: `MAXF` or `-MAXF` (R124). -/
def maxOf (s : Bool) : Bits32 := pack s 254#8 0x7fffff#23

/-! ### Exact values (R123) -/

/-- The magnitude of a finite pattern in units of 2^-149: `frac` for zero and subnormals, `(2^23 + frac) * 2^(exp-1)`
for normals (R123). -/
def magUnits (b : Bits32) : Nat :=
  if fexp b = 0#8 then (ffrac b).toNat else (2 ^ 23 + (ffrac b).toNat) * 2 ^ ((fexp b).toNat - 1)

/-- `val(b)` in units of 2^-149: `val(b) = units b / 2^149` (R123). -/
def units (b : Bits32) : Int := if fsign b then -(magUnits b : Int) else (magUnits b : Int)

/-- A non-negative exact real: a quotient of naturals, or the square root of one. The denominator is not 0. -/
inductive Mag where
  /-- `n / d`. -/
  | ratio (n d : Nat)
  /-- The non-negative real square root of `n / d` (R215). -/
  | root (n d : Nat)
  deriving DecidableEq, Repr

/-- An exact real: a sign and a magnitude (`s` and `y` of R134). -/
structure Exact where
  neg : Bool
  mag : Mag
  deriving DecidableEq, Repr

/-- The exact real `n / d` for an integer `n`. -/
def Exact.ofInt (n : Int) (d : Nat) : Exact := ⟨decide (n < 0), .ratio n.natAbs d⟩

/-- One bit of a square root, from bit `k - 1` down: the greatest `m` that agrees with `acc` above bit `k` and has
`m * m ≤ n`. -/
def isqrtFrom (n : Nat) : Nat → Nat → Nat
  | 0, acc => acc
  | k + 1, acc => if (acc + 2 ^ k) * (acc + 2 ^ k) ≤ n then isqrtFrom n k (acc + 2 ^ k) else isqrtFrom n k acc

/-- The integer square root: the greatest `m` with `m * m ≤ n`. -/
def isqrt (n : Nat) : Nat := isqrtFrom n (n.log2 / 2 + 1) 0

/-- How the fraction `y - floor(y)` compares with 0 and 1/2 (R133). -/
inductive Rest where
  | zero
  | below
  | half
  | above
  deriving DecidableEq, Repr

/-- `floor(y)` (R133). -/
def Mag.floor : Mag → Nat
  | .ratio n d => n / d
  | .root n d => isqrt (n / d)

/-- Where twice the fraction stands: `a` against `b`, both scaled. -/
def restOf (isInt : Bool) (a b : Nat) : Rest :=
  if isInt then .zero else if a < b then .below else if a = b then .half else .above

/-- The fraction of `y` against 0 and 1/2, decided on integers: for `√(n/d)` with floor `m`, `√(n/d)` is below
`m + 1/2` iff `4 n < (2 m + 1)^2 d` (R133, R215). -/
def Mag.rest : Mag → Rest
  | .ratio n d => restOf (n % d == 0) (2 * (n % d)) d
  | .root n d =>
    let m := isqrt (n / d)
    restOf (m * m * d == n) (4 * n) ((2 * m + 1) * (2 * m + 1) * d)

/-- `y / 2^k` (R134). -/
def Mag.scale (y : Mag) (k : Int) : Mag :=
  match y with
  | .ratio n d => .ratio (n * 2 ^ (-k).toNat) (d * 2 ^ k.toNat)
  | .root n d => .root (n * 4 ^ (-k).toNat) (d * 4 ^ k.toNat)

/-- `y = 0`. -/
def Mag.isZero : Mag → Bool
  | .ratio n _ => n == 0
  | .root n _ => n == 0

/-- `floor(log2(n / d))` for `n, d > 0`: the difference of the logarithms, or one less. -/
def ratioLog2 (n d : Nat) : Int :=
  let l : Int := (n.log2 : Int) - (d.log2 : Int)
  if d * 2 ^ l.toNat ≤ n * 2 ^ (-l).toNat then l else l - 1

/-- `e = floor(log2(y))` for `y > 0` (R134). -/
def Mag.ilog2 : Mag → Int
  | .ratio n d => ratioLog2 n d
  | .root n d => ratioLog2 n d / 2

/-! ### Rounding to an integer (R133) -/

/-- `round_int(mode, s, y)`: the integer magnitude (R133); `neg` is the sign of the number. -/
def roundInt (mode : RoundMode) (neg : Bool) (y : Mag) : Nat :=
  match y.rest with
  | .zero => y.floor
  | .below =>
    match mode with
    | .rtz => y.floor
    | .rdn => if neg then y.floor + 1 else y.floor
    | .rup => if neg then y.floor else y.floor + 1
    | .rne => y.floor
    | .rmm => y.floor
  | .half =>
    match mode with
    | .rtz => y.floor
    | .rdn => if neg then y.floor + 1 else y.floor
    | .rup => if neg then y.floor else y.floor + 1
    | .rne => if y.floor % 2 = 0 then y.floor else y.floor + 1
    | .rmm => y.floor + 1
  | .above =>
    match mode with
    | .rtz => y.floor
    | .rdn => if neg then y.floor + 1 else y.floor
    | .rup => if neg then y.floor else y.floor + 1
    | .rne => y.floor + 1
    | .rmm => y.floor + 1

/-! ### Rounding to binary32 (R134 to R137) -/

/-- The result of an overflow (R135). -/
def overflowResult (mode : RoundMode) (s : Bool) : Bits32 :=
  match mode with
  | .rne => infOf s
  | .rmm => infOf s
  | .rtz => maxOf s
  | .rdn => if s then infOf true else maxOf false
  | .rup => if s then maxOf true else infOf false

/-- `m * 2^k ≥ 2^t`, decided on naturals. -/
def atLeastPow (m : Nat) (k t : Int) : Bool := decide (2 ^ (t - k).toNat ≤ m)

/-- The encoding of the magnitude `m * 2^(eb-23)` with sign `s`, `0 ≤ m ≤ 2^24` (R134 step E). -/
def encodeMag (s : Bool) (eb : Int) (m : Nat) : Bits32 :=
  if m < 2 ^ 23 then pack s 0#8 (BitVec.ofNat 23 m)
  else if m < 2 ^ 24 then pack s (BitVec.ofInt 8 (eb + 127)) (BitVec.ofNat 23 (m - 2 ^ 23))
  else pack s (BitVec.ofInt 8 (eb + 128)) 0#23

/-- `round_f32(mode, v, zs)` (R134): an exact real rounded once to binary32, with its flags; `zs` is the sign of the
result when `v = 0`. The delivered result is inexact exactly when rounding at the quantum of step D had a remainder. -/
def roundF32 (mode : RoundMode) (v : Exact) (zs : Bool) : Bits32 × Flags :=
  if v.mag.isZero then (zeroOf zs, flagNone)
  else
    let e := v.mag.ilog2
    let mu := roundInt mode v.neg (v.mag.scale (e - 23))
    if atLeastPow mu (e - 23) 128 then (overflowResult mode v.neg, flagOF ||| flagNX)
    else
      let tiny := !atLeastPow mu (e - 23) (-126)
      let eb := max e (-126)
      let y := v.mag.scale (eb - 23)
      let inexact := y.rest != .zero
      (encodeMag v.neg eb (roundInt mode v.neg y), flagIf inexact flagNX ||| flagIf (tiny && inexact) flagUF)

/-! ### Order (R143) -/

/-- `a =f b` for non-NaN patterns: both zeros, or the same bits (R143). -/
def feq (a b : Bits32) : Bool := (isZero a && isZero b) || a == b

/-- `a <f b` for non-NaN patterns: not `a =f b`, and `a` is minus infinity, or `b` is plus infinity, or both are finite
and `val(a) < val(b)` (R143). -/
def flt (a b : Bits32) : Bool :=
  !feq a b && (a == infOf true || b == infOf false || (isFinite a && isFinite b && decide (units a < units b)))

end Sys2Proof.Machine
end

