-- ==== Sys2Proof/Machine/Arith.lean ====
section
/-! DEFINITION. The core functions of the instructions (`43_compute.md` to `46_classify.md`): pure functions of the
operand patterns and the mode that answer a result and the flags it yields (R12, R210). -/

namespace Sys2Proof.Machine

/-- `x` if the condition holds, written as a sign bit of an exact zero: `-0` only under RDN (R138). -/
def cancelZero (mode : RoundMode) : Bits32 := zeroOf (mode == .rdn)

/-- The result when some operand is a NaN: the canonical NaN, NV if the operation is otherwise invalid or an operand is
signaling (R127). -/
def nanResult (invalid : Bool) : Bits32 × Flags := (cnan, flagIf invalid flagNV)

/-- An invalid operation: the canonical NaN and NV (R141). -/
def invalidResult : Bits32 × Flags := (cnan, flagNV)

/-- FADD.S (R211). -/
def faddCore (mode : RoundMode) (a b : Bits32) : Bits32 × Flags :=
  if isNaN a || isNaN b then nanResult (isSNaN a || isSNaN b)
  else if isInf a && isInf b then (if fsign a = fsign b then (a, flagNone) else invalidResult)
  else if isInf a then (a, flagNone)
  else if isInf b then (b, flagNone)
  else
    let v := units a + units b
    if v = 0 then
      (if isZero a && isZero b && fsign a == fsign b then (a, flagNone) else (cancelZero mode, flagNone))
    else roundF32 mode (Exact.ofInt v (2 ^ 149)) false

/-- The pattern with its sign bit inverted (R212). -/
def negate (b : Bits32) : Bits32 := b ^^^ 0x80000000#32

/-- FSUB.S: addition of the operand with its sign bit inverted (R212). -/
def fsubCore (mode : RoundMode) (a b : Bits32) : Bits32 × Flags := faddCore mode a (negate b)

/-- FMUL.S (R213). -/
def fmulCore (mode : RoundMode) (a b : Bits32) : Bits32 × Flags :=
  let s := fsign a ^^ fsign b
  if isNaN a || isNaN b then nanResult (isSNaN a || isSNaN b)
  else if (isInf a && isZero b) || (isZero a && isInf b) then invalidResult
  else if isInf a || isInf b then (infOf s, flagNone)
  else roundF32 mode (Exact.ofInt (units a * units b) (2 ^ 149 * 2 ^ 149)) s

/-- FDIV.S (R214): `val(a) / val(b)` is `units a / units b`. -/
def fdivCore (mode : RoundMode) (a b : Bits32) : Bits32 × Flags :=
  let s := fsign a ^^ fsign b
  if isNaN a || isNaN b then nanResult (isSNaN a || isSNaN b)
  else if isInf a && isInf b then invalidResult
  else if isZero a && isZero b then invalidResult
  else if isInf a then (infOf s, flagNone)
  else if isInf b then (zeroOf s, flagNone)
  else if isZero b then (infOf s, flagDZ)
  else roundF32 mode ⟨s, .ratio (magUnits a) (magUnits b)⟩ s

/-- FSQRT.S (R215): the exact root of `units a / 2^149`. -/
def fsqrtCore (mode : RoundMode) (a : Bits32) : Bits32 × Flags :=
  if isNaN a then nanResult (isSNaN a)
  else if isZero a then (a, flagNone)
  else if fsign a then invalidResult
  else if isInf a then (a, flagNone)
  else roundF32 mode ⟨false, .root (magUnits a) (2 ^ 149)⟩ false

/-- `-n` if the condition holds, else `n`: `(-1)^c * n`. -/
def negIf (c : Bool) (n : Int) : Int := if c then -n else n

/-- The core of the fused multiply-adds: `(-1)^np * (a * b) + (-1)^nc * c`, rounded once (R220). -/
def fmaCore (mode : RoundMode) (a b c : Bits32) (np nc : Bool) : Bits32 × Flags :=
  let inv := (isInf a && isZero b) || (isZero a && isInf b)
  let snan := isSNaN a || isSNaN b || isSNaN c
  let ps := (fsign a ^^ fsign b) ^^ np
  let cs := fsign c ^^ nc
  if isNaN a || isNaN b || isNaN c || inv then nanResult (inv || snan)
  else if isInf a || isInf b then
    (if isInf c && cs != ps then invalidResult else (infOf ps, flagNone))
  else if isInf c then (infOf cs, flagNone)
  else
    let p := negIf np (units a * units b)
    let q := negIf nc (units c * 2 ^ 149)
    let v := p + q
    if v = 0 then
      (if p == 0 && q == 0 && ps == cs then (zeroOf ps, flagNone) else (cancelZero mode, flagNone))
    else roundF32 mode (Exact.ofInt v (2 ^ 149 * 2 ^ 149)) false

/-- FMIN.S (R217): the chosen operand's exact pattern. -/
def fminCore (a b : Bits32) : Bits32 × Flags :=
  let fl := flagIf (isSNaN a || isSNaN b) flagNV
  if isNaN a && isNaN b then (cnan, fl)
  else if isNaN a then (b, fl)
  else if isNaN b then (a, fl)
  else if isZero a && isZero b then (if fsign a then a else b, flagNone)
  else (if flt a b then a else b, flagNone)

/-- FMAX.S (R218): the chosen operand's exact pattern. -/
def fmaxCore (a b : Bits32) : Bits32 × Flags :=
  let fl := flagIf (isSNaN a || isSNaN b) flagNV
  if isNaN a && isNaN b then (cnan, fl)
  else if isNaN a then (b, fl)
  else if isNaN b then (a, fl)
  else if isZero a && isZero b then (if fsign a then b else a, flagNone)
  else (if flt a b then b else a, flagNone)

/-- The smallest integer of a format of width `w` (R245). -/
def intLo (w : Nat) (signed : Bool) : Int := if signed then -(2 ^ (w - 1)) else 0
/-- The largest integer of a format of width `w` (R245). -/
def intHi (w : Nat) (signed : Bool) : Int := if signed then 2 ^ (w - 1) - 1 else 2 ^ w - 1

/-- Float to integer (R245): the range test is on the rounded integer. -/
def fcvtIntCore (mode : RoundMode) (a : Bits32) (w : Nat) (signed : Bool) : Int × Flags :=
  let lo := intLo w signed
  let hi := intHi w signed
  if isNaN a then (hi, flagNV)
  else if isInf a then (if fsign a then lo else hi, flagNV)
  else
    let y : Mag := .ratio (magUnits a) (2 ^ 149)
    let n := negIf (fsign a) (roundInt mode (fsign a) y : Int)
    if n < lo then (lo, flagNV)
    else if hi < n then (hi, flagNV)
    else (n, flagIf (y.rest != .zero) flagNX)

/-- Integer to float (R250): integer zero gives `+0`. -/
def fcvtFloatCore (mode : RoundMode) (n : Int) : Bits32 × Flags := roundF32 mode (Exact.ofInt n 1) false

/-- FEQ.S: quiet (R272). -/
def feqCore (a b : Bits32) : Bool × Flags :=
  if isNaN a || isNaN b then (false, flagIf (isSNaN a || isSNaN b) flagNV) else (feq a b, flagNone)

/-- FLT.S: signaling (R273). -/
def fltCore (a b : Bits32) : Bool × Flags :=
  if isNaN a || isNaN b then (false, flagNV) else (flt a b, flagNone)

/-- FLE.S: signaling (R274). -/
def fleCore (a b : Bits32) : Bool × Flags :=
  if isNaN a || isNaN b then (false, flagNV) else (flt a b || feq a b, flagNone)

/-- The class of a pattern, the number of the bit FCLASS.S sets (R281). -/
def fclassBit (a : Bits32) : Nat :=
  let s := fsign a
  let e := fexp a
  let m := ffrac a
  if e = 255#8 ∧ m.getLsbD 22 then 9
  else if e = 255#8 ∧ m ≠ 0#23 then 8
  else if e = 255#8 then (if s then 0 else 7)
  else if e ≠ 0#8 then (if s then 1 else 6)
  else if m ≠ 0#23 then (if s then 2 else 5)
  else (if s then 3 else 4)

/-- The 10-bit mask of FCLASS.S (R280, R281). -/
def fclassMask (a : Bits32) : BitVec 10 := BitVec.ofNat 10 (2 ^ fclassBit a)

/-- All bits but the sign from `a`, the given sign bit (R251). -/
def withSign (s : Bool) (a : Bits32) : Bits32 := BitVec.ofBool s ++ a.extractLsb' 0 31

/-- FSGNJ.S (R252). -/
def fsgnjCore (a b : Bits32) : Bits32 := withSign (fsign b) a
/-- FSGNJN.S (R253). -/
def fsgnjnCore (a b : Bits32) : Bits32 := withSign (!fsign b) a
/-- FSGNJX.S (R254). -/
def fsgnjxCore (a b : Bits32) : Bits32 := withSign (fsign a ^^ fsign b) a

end Sys2Proof.Machine
end

