-- ==== Sys2Proof/Config.lean ====
section
/-! DEFINITION. The open parameters of the spec (`00_scope.md` R7, R9; `92_eei_decisions.md` note 2) as plain data.
A `Config` is one field of the machine's state that no step changes (assumption log 1). FLEN is the constant 32 (R8);
`FP_ENABLED` is a premise, not a field (R32, assumption log 15). -/

namespace Sys2Proof

/-- XLEN, the width of an integer register and of the pc: 32 or 64 (R7, D1). -/
inductive Xlen where
  | rv32
  | rv64
  deriving DecidableEq, Repr

/-- `MISALIGNED_FP`: what a misaligned FLW or FSW does (R55, D4). -/
inductive MisalignedFp where
  /-- LoadAddressMisaligned or StoreAddressMisaligned. -/
  | trap
  /-- The access is performed byte by byte. -/
  | invisible
  deriving DecidableEq, Repr

/-- The kinds of access `MEM_VALID` tells apart (R60). -/
inductive AccessKind where
  | read
  | write
  | fetch
  deriving DecidableEq, Repr

/-- A stretch of `size` byte addresses from `base` on, with the kinds of access it admits: `MEM_VALID` is held as a
list of these (R60, D19, assumption log 7). -/
structure Region where
  base : Nat
  size : Nat
  read : Bool
  write : Bool
  fetch : Bool
  deriving DecidableEq, Repr

/-- The parameters a model takes as arguments and may not fix silently (R9, R35; D1, D4, D15, D19, D26). -/
structure Config where
  /-- XLEN (R7). -/
  xlen : Xlen
  /-- `MISALIGNED_FP` (R55). -/
  misalignedFp : MisalignedFp
  /-- `MEM_VALID` (R60). -/
  memValid : List Region
  /-- `RESET_PC` (R39). -/
  resetPc : Word
  /-- `HALT`: the pc values at which the harness ends the run (R326(c), assumption log 12). -/
  halt : List Word
  deriving DecidableEq, Repr

end Sys2Proof
end

