-- ==== Sys2Proof/WellFormed.lean ====
section
/-! DEFINITION. Well-formed instructions: the terms to which the spec gives an effect in some state. The types of
`Syntax.lean` already bound every register number and immediate; what is left to check is the rounding-mode field
(R92), the CSR number (R182) and, for the four 64-bit conversions, XLEN (R94). -/

namespace Sys2Proof

/-- Not one of the two static reserved modes 101 and 110 (R92). -/
def RmField.wellFormed : RmField → Bool
  | .static _ => true
  | .dyn => true
  | .reserved101 => false
  | .reserved110 => false

/-- One of the three CSR numbers in scope (R31, R182). -/
def csrInScope (n : CsrNum) : Bool := n == 0x001#12 || n == 0x002#12 || n == 0x003#12

/-- The rounding-mode field of an instruction whose bits 14:12 are a rounding mode (the list of R85). -/
def Instr.rm? : Instr → Option RmField
  | .flw _ _ _ => none
  | .fsw _ _ _ => none
  | .fmaddS _ _ _ _ rm => some rm
  | .fmsubS _ _ _ _ rm => some rm
  | .fnmsubS _ _ _ _ rm => some rm
  | .fnmaddS _ _ _ _ rm => some rm
  | .faddS _ _ _ rm => some rm
  | .fsubS _ _ _ rm => some rm
  | .fmulS _ _ _ rm => some rm
  | .fdivS _ _ _ rm => some rm
  | .fsqrtS _ _ rm => some rm
  | .fsgnjS _ _ _ => none
  | .fsgnjnS _ _ _ => none
  | .fsgnjxS _ _ _ => none
  | .fminS _ _ _ => none
  | .fmaxS _ _ _ => none
  | .fcvtWS _ _ rm => some rm
  | .fcvtWUS _ _ rm => some rm
  | .fcvtLS _ _ rm => some rm
  | .fcvtLUS _ _ rm => some rm
  | .fmvXW _ _ => none
  | .fclassS _ _ => none
  | .feqS _ _ _ => none
  | .fltS _ _ _ => none
  | .fleS _ _ _ => none
  | .fcvtSW _ _ rm => some rm
  | .fcvtSWU _ _ rm => some rm
  | .fcvtSL _ _ rm => some rm
  | .fcvtSLU _ _ rm => some rm
  | .fmvWX _ _ => none
  | .csrrw _ _ _ => none
  | .csrrs _ _ _ => none
  | .csrrc _ _ _ => none
  | .csrrwi _ _ _ => none
  | .csrrsi _ _ _ => none
  | .csrrci _ _ _ => none

/-- The CSR number of a CSR instruction (R171). -/
def Instr.csr? : Instr → Option CsrNum
  | .csrrw _ n _ => some n
  | .csrrs _ n _ => some n
  | .csrrc _ n _ => some n
  | .csrrwi _ n _ => some n
  | .csrrsi _ n _ => some n
  | .csrrci _ n _ => some n
  | .flw _ _ _ => none
  | .fsw _ _ _ => none
  | .fmaddS _ _ _ _ _ => none
  | .fmsubS _ _ _ _ _ => none
  | .fnmsubS _ _ _ _ _ => none
  | .fnmaddS _ _ _ _ _ => none
  | .faddS _ _ _ _ => none
  | .fsubS _ _ _ _ => none
  | .fmulS _ _ _ _ => none
  | .fdivS _ _ _ _ => none
  | .fsqrtS _ _ _ => none
  | .fsgnjS _ _ _ => none
  | .fsgnjnS _ _ _ => none
  | .fsgnjxS _ _ _ => none
  | .fminS _ _ _ => none
  | .fmaxS _ _ _ => none
  | .fcvtWS _ _ _ => none
  | .fcvtWUS _ _ _ => none
  | .fcvtLS _ _ _ => none
  | .fcvtLUS _ _ _ => none
  | .fmvXW _ _ => none
  | .fclassS _ _ => none
  | .feqS _ _ _ => none
  | .fltS _ _ _ => none
  | .fleS _ _ _ => none
  | .fcvtSW _ _ _ => none
  | .fcvtSWU _ _ _ => none
  | .fcvtSL _ _ _ => none
  | .fcvtSLU _ _ _ => none
  | .fmvWX _ _ => none

/-- The four conversions that exist only when XLEN=64 (R94). -/
def Instr.rv64Only : Instr → Bool
  | .fcvtLS _ _ _ | .fcvtLUS _ _ _ | .fcvtSL _ _ _ | .fcvtSLU _ _ _ => true
  | .flw _ _ _ | .fsw _ _ _ | .fmaddS _ _ _ _ _ | .fmsubS _ _ _ _ _ | .fnmsubS _ _ _ _ _ | .fnmaddS _ _ _ _ _ => false
  | .faddS _ _ _ _ | .fsubS _ _ _ _ | .fmulS _ _ _ _ | .fdivS _ _ _ _ | .fsqrtS _ _ _ => false
  | .fsgnjS _ _ _ | .fsgnjnS _ _ _ | .fsgnjxS _ _ _ | .fminS _ _ _ | .fmaxS _ _ _ => false
  | .fcvtWS _ _ _ | .fcvtWUS _ _ _ | .fmvXW _ _ | .fclassS _ _ | .feqS _ _ _ | .fltS _ _ _ | .fleS _ _ _ => false
  | .fcvtSW _ _ _ | .fcvtSWU _ _ _ | .fmvWX _ _ => false
  | .csrrw _ _ _ | .csrrs _ _ _ | .csrrc _ _ _ | .csrrwi _ _ _ | .csrrsi _ _ _ | .csrrci _ _ _ => false

/-- `i` is an instruction of the hardware at this XLEN: its rounding-mode field, if it has one, is not a static
reserved mode (R92), its CSR number, if it has one, is in scope (R182), and it exists at this XLEN (R94). -/
def Instr.wellFormed (xlen : Xlen) (i : Instr) : Bool :=
  i.rm?.all RmField.wellFormed && i.csr?.all csrInScope && (!i.rv64Only || xlen == .rv64)

end Sys2Proof
end

