-- ==== Sys2Proof/Decode.lean ====
section
/-! DEFINITION. Decoding and encoding (`30_encoding.md` R80 to R98, `41_fcsr_access.md` R171). The decoder is total:
it answers an instruction, or rejects the word by name. Numeric opcode and selector values are the spec's, which marks
them as general knowledge (GK1 to GK4, GK6; assumption log 3). -/

namespace Sys2Proof

/-- Why a word under one of F's seven major opcodes is no instruction (R91, R95, R96). -/
inductive IllegalEncoding where
  /-- `fmt` is not 00 (R91). -/
  | format
  /-- The width under LOAD-FP or STORE-FP is not 010 (R95). -/
  | width
  /-- `funct5` is unassigned under OP-FP (R96(a)). -/
  | funct5
  /-- The selector in bits 14:12 is unassigned (R96(b), (c), (d), (g), (h)). -/
  | selector
  /-- The `rs2` field is not one of the fixed values (R96(e), (f), (g), (h)). -/
  | rs2
  deriving DecidableEq, Repr

/-- How the decoder rejects. -/
inductive DecodeError where
  /-- Fewer than four bytes were given. -/
  | truncated (n : Nat)
  /-- An unassigned word in F's opcode space: IllegalInstruction (R90 step (5)). -/
  | illegal (why : IllegalEncoding)
  /-- Not an F or CSR instruction: outside this spec (R90 step (6)). -/
  | outside
  deriving DecidableEq, Repr

/-! ### Fields of a word (R81, R86, R87) -/

def opcodeOf (w : Bits32) : BitVec 7 := w.extractLsb' 0 7
def rdOf (w : Bits32) : BitVec 5 := w.extractLsb' 7 5
def funct3Of (w : Bits32) : BitVec 3 := w.extractLsb' 12 3
def rs1Of (w : Bits32) : BitVec 5 := w.extractLsb' 15 5
def rs2Of (w : Bits32) : BitVec 5 := w.extractLsb' 20 5
def fmtOf (w : Bits32) : BitVec 2 := w.extractLsb' 25 2
def funct5Of (w : Bits32) : BitVec 5 := w.extractLsb' 27 5
/-- The I-type immediate (R86), also the CSR number of R171. -/
def immIOf (w : Bits32) : BitVec 12 := w.extractLsb' 20 12
/-- The S-type immediate (R87). -/
def immSOf (w : Bits32) : BitVec 12 := w.extractLsb' 25 7 ++ w.extractLsb' 7 5

/-- The rounding-mode field as the spec's Table `rm` reads it (R85, R130). -/
def rmOfBits (b : BitVec 3) : RmField :=
  if b = 0b000#3 then .static .rne
  else if b = 0b001#3 then .static .rtz
  else if b = 0b010#3 then .static .rdn
  else if b = 0b011#3 then .static .rup
  else if b = 0b100#3 then .static .rmm
  else if b = 0b101#3 then .reserved101
  else if b = 0b110#3 then .reserved110
  else .dyn

/-- The encoding of a rounding mode (R130). -/
def RoundMode.bits : RoundMode → BitVec 3
  | .rne => 0b000#3
  | .rtz => 0b001#3
  | .rdn => 0b010#3
  | .rup => 0b011#3
  | .rmm => 0b100#3

/-- The encoding of the rounding-mode field (R85). -/
def RmField.bits : RmField → BitVec 3
  | .static m => m.bits
  | .reserved101 => 0b101#3
  | .reserved110 => 0b110#3
  | .dyn => 0b111#3

/-- The rounding-mode field of a word. -/
def rmOf (w : Bits32) : RmField := rmOfBits (funct3Of w)

/-! ### The decoder (R90) -/

/-- LOAD-FP: FLW when the width is 010 (R88, R95). -/
def decodeLoadFp (w : Bits32) : Except DecodeError Instr :=
  if funct3Of w = 0b010#3 then .ok (.flw (rdOf w) (rs1Of w) (immIOf w)) else .error (.illegal .width)

/-- STORE-FP: FSW when the width is 010 (R88, R95). -/
def decodeStoreFp (w : Bits32) : Except DecodeError Instr :=
  if funct3Of w = 0b010#3 then .ok (.fsw (rs2Of w) (rs1Of w) (immSOf w)) else .error (.illegal .width)

/-- The R4 format: `fmt` must be 00 (R83, R91); `mk` is the instruction of the major opcode. -/
def decodeFused (mk : FReg → FReg → FReg → FReg → RmField → Instr) (w : Bits32) : Except DecodeError Instr :=
  if fmtOf w = 0b00#2 then .ok (mk (rdOf w) (rs1Of w) (rs2Of w) (funct5Of w) (rmOf w)) else .error (.illegal .format)

/-- funct5 00100: FSGNJ.S, FSGNJN.S, FSGNJX.S by the selector (R88, R96(b)). -/
def decodeSgnj (w : Bits32) : Except DecodeError Instr :=
  if funct3Of w = 0b000#3 then .ok (.fsgnjS (rdOf w) (rs1Of w) (rs2Of w))
  else if funct3Of w = 0b001#3 then .ok (.fsgnjnS (rdOf w) (rs1Of w) (rs2Of w))
  else if funct3Of w = 0b010#3 then .ok (.fsgnjxS (rdOf w) (rs1Of w) (rs2Of w))
  else .error (.illegal .selector)

/-- funct5 00101: FMIN.S, FMAX.S by the selector (R88, R96(c)). -/
def decodeMinMax (w : Bits32) : Except DecodeError Instr :=
  if funct3Of w = 0b000#3 then .ok (.fminS (rdOf w) (rs1Of w) (rs2Of w))
  else if funct3Of w = 0b001#3 then .ok (.fmaxS (rdOf w) (rs1Of w) (rs2Of w))
  else .error (.illegal .selector)

/-- funct5 10100: FLE.S, FLT.S, FEQ.S by the selector (R88, R96(d)). -/
def decodeCmp (w : Bits32) : Except DecodeError Instr :=
  if funct3Of w = 0b010#3 then .ok (.feqS (rdOf w) (rs1Of w) (rs2Of w))
  else if funct3Of w = 0b001#3 then .ok (.fltS (rdOf w) (rs1Of w) (rs2Of w))
  else if funct3Of w = 0b000#3 then .ok (.fleS (rdOf w) (rs1Of w) (rs2Of w))
  else .error (.illegal .selector)

/-- funct5 11000: float to integer, the width and signedness by `rs2` (R88, R96(f)). -/
def decodeToInt (w : Bits32) : Except DecodeError Instr :=
  if rs2Of w = 0b00000#5 then .ok (.fcvtWS (rdOf w) (rs1Of w) (rmOf w))
  else if rs2Of w = 0b00001#5 then .ok (.fcvtWUS (rdOf w) (rs1Of w) (rmOf w))
  else if rs2Of w = 0b00010#5 then .ok (.fcvtLS (rdOf w) (rs1Of w) (rmOf w))
  else if rs2Of w = 0b00011#5 then .ok (.fcvtLUS (rdOf w) (rs1Of w) (rmOf w))
  else .error (.illegal .rs2)

/-- funct5 11010: integer to float, the width and signedness by `rs2` (R88, R96(f)). -/
def decodeFromInt (w : Bits32) : Except DecodeError Instr :=
  if rs2Of w = 0b00000#5 then .ok (.fcvtSW (rdOf w) (rs1Of w) (rmOf w))
  else if rs2Of w = 0b00001#5 then .ok (.fcvtSWU (rdOf w) (rs1Of w) (rmOf w))
  else if rs2Of w = 0b00010#5 then .ok (.fcvtSL (rdOf w) (rs1Of w) (rmOf w))
  else if rs2Of w = 0b00011#5 then .ok (.fcvtSLU (rdOf w) (rs1Of w) (rmOf w))
  else .error (.illegal .rs2)

/-- funct5 11100: FMV.X.W or FCLASS.S by the selector, `rs2` 00000 (R88, R96(g)). -/
def decodeMvClass (w : Bits32) : Except DecodeError Instr :=
  if rs2Of w ≠ 0b00000#5 then .error (.illegal .rs2)
  else if funct3Of w = 0b000#3 then .ok (.fmvXW (rdOf w) (rs1Of w))
  else if funct3Of w = 0b001#3 then .ok (.fclassS (rdOf w) (rs1Of w))
  else .error (.illegal .selector)

/-- funct5 11110: FMV.W.X, `rs2` 00000 and selector 000 (R88, R96(h)). -/
def decodeMvWX (w : Bits32) : Except DecodeError Instr :=
  if rs2Of w ≠ 0b00000#5 then .error (.illegal .rs2)
  else if funct3Of w = 0b000#3 then .ok (.fmvWX (rdOf w) (rs1Of w))
  else .error (.illegal .selector)

/-- funct5 01011: FSQRT.S, `rs2` 00000 (R88, R96(e)). -/
def decodeSqrt (w : Bits32) : Except DecodeError Instr :=
  if rs2Of w = 0b00000#5 then .ok (.fsqrtS (rdOf w) (rs1Of w) (rmOf w)) else .error (.illegal .rs2)

/-- OP-FP: `fmt` must be 00 (R91), then the instruction is chosen by `funct5` (R88, R96). -/
def decodeOpFp (w : Bits32) : Except DecodeError Instr :=
  if fmtOf w ≠ 0b00#2 then .error (.illegal .format)
  else if funct5Of w = 0b00000#5 then .ok (.faddS (rdOf w) (rs1Of w) (rs2Of w) (rmOf w))
  else if funct5Of w = 0b00001#5 then .ok (.fsubS (rdOf w) (rs1Of w) (rs2Of w) (rmOf w))
  else if funct5Of w = 0b00010#5 then .ok (.fmulS (rdOf w) (rs1Of w) (rs2Of w) (rmOf w))
  else if funct5Of w = 0b00011#5 then .ok (.fdivS (rdOf w) (rs1Of w) (rs2Of w) (rmOf w))
  else if funct5Of w = 0b01011#5 then decodeSqrt w
  else if funct5Of w = 0b00100#5 then decodeSgnj w
  else if funct5Of w = 0b00101#5 then decodeMinMax w
  else if funct5Of w = 0b11000#5 then decodeToInt w
  else if funct5Of w = 0b11010#5 then decodeFromInt w
  else if funct5Of w = 0b11100#5 then decodeMvClass w
  else if funct5Of w = 0b11110#5 then decodeMvWX w
  else if funct5Of w = 0b10100#5 then decodeCmp w
  else .error (.illegal .funct5)

/-- SYSTEM: the six CSR instructions, on any CSR number (R171); every other word is outside this spec (R90 step (6)).
A CSR number outside the three in scope is refused when the instruction executes (R182). -/
def decodeSystem (w : Bits32) : Except DecodeError Instr :=
  if funct3Of w = 0b001#3 then .ok (.csrrw (rdOf w) (immIOf w) (rs1Of w))
  else if funct3Of w = 0b010#3 then .ok (.csrrs (rdOf w) (immIOf w) (rs1Of w))
  else if funct3Of w = 0b011#3 then .ok (.csrrc (rdOf w) (immIOf w) (rs1Of w))
  else if funct3Of w = 0b101#3 then .ok (.csrrwi (rdOf w) (immIOf w) (rs1Of w))
  else if funct3Of w = 0b110#3 then .ok (.csrrsi (rdOf w) (immIOf w) (rs1Of w))
  else if funct3Of w = 0b111#3 then .ok (.csrrci (rdOf w) (immIOf w) (rs1Of w))
  else .error .outside

/-- The decoder of one 32-bit word (R90, major opcodes of R82 and R171). -/
def decode (w : Bits32) : Except DecodeError Instr :=
  if opcodeOf w = 0b0000111#7 then decodeLoadFp w
  else if opcodeOf w = 0b0100111#7 then decodeStoreFp w
  else if opcodeOf w = 0b1000011#7 then decodeFused .fmaddS w
  else if opcodeOf w = 0b1000111#7 then decodeFused .fmsubS w
  else if opcodeOf w = 0b1001011#7 then decodeFused .fnmsubS w
  else if opcodeOf w = 0b1001111#7 then decodeFused .fnmaddS w
  else if opcodeOf w = 0b1010011#7 then decodeOpFp w
  else if opcodeOf w = 0b1110011#7 then decodeSystem w
  else .error .outside

/-- Four bytes as a little-endian word, the first byte lowest (R51, R80). -/
def wordOfBytes (b0 b1 b2 b3 : Byte) : Bits32 := b3 ++ b2 ++ b1 ++ b0

/-- The decoder on bytes as they lie in memory: the instruction and the bytes after it (R80). -/
def decodeBytes : List Byte → Except DecodeError (Instr × List Byte)
  | b0 :: b1 :: b2 :: b3 :: rest =>
    match decode (wordOfBytes b0 b1 b2 b3) with
    | .ok i => .ok (i, rest)
    | .error e => .error e
  | bs => .error (.truncated bs.length)

/-- The `n` lowest bytes of a number, the lowest first. -/
def leBytes : Nat → Nat → List Byte
  | 0, _ => []
  | n + 1, w => BitVec.ofNat 8 w :: leBytes n (w / 256)

/-- The instruction the decoder reads from an instruction whose bits are `w`, the bits from `nbits` on being 0. -/
def decodeTableWord (nbits w : Nat) : Option Instr :=
  match decodeBytes (leBytes 4 (w % 2 ^ nbits)) with
  | .ok (i, _) => some i
  | .error _ => none

/-! ### The encoder (R81, R88, R171) -/

/-- The R and R4 layouts (R81): `funct5` or `rs3`, `fmt`, `rs2`, `rs1`, `rm` or selector, `rd`, opcode. -/
def wordR (hi5 : BitVec 5) (fmt : BitVec 2) (rs2 rs1 : BitVec 5) (f3 : BitVec 3) (rd : BitVec 5) (op : BitVec 7) : Bits32 :=
  hi5 ++ fmt ++ rs2 ++ rs1 ++ f3 ++ rd ++ op

/-- The I layout (R81, R171): immediate or CSR number, `rs1` or `uimm`, width or selector, `rd`, opcode. -/
def wordI (imm : BitVec 12) (rs1 : BitVec 5) (f3 : BitVec 3) (rd : BitVec 5) (op : BitVec 7) : Bits32 :=
  imm ++ rs1 ++ f3 ++ rd ++ op

/-- The S layout (R81): the immediate stands in bits 31:25 and 11:7 (R87). -/
def wordS (imm : BitVec 12) (rs2 rs1 : BitVec 5) (f3 : BitVec 3) (op : BitVec 7) : Bits32 :=
  imm.extractLsb' 5 7 ++ rs2 ++ rs1 ++ f3 ++ imm.extractLsb' 0 5 ++ op

/-- An OP-FP word of this hardware: `fmt` is S, 00 (R83). -/
def wordOpFp (funct5 rs2 rs1 : BitVec 5) (f3 : BitVec 3) (rd : BitVec 5) : Bits32 :=
  wordR funct5 0b00#2 rs2 rs1 f3 rd 0b1010011#7

/-- The word of an instruction (R88, R171). -/
def encode : Instr → Bits32
  | .flw rd rs1 imm => wordI imm rs1 0b010#3 rd 0b0000111#7
  | .fsw rs2 rs1 imm => wordS imm rs2 rs1 0b010#3 0b0100111#7
  | .fmaddS rd rs1 rs2 rs3 rm => wordR rs3 0b00#2 rs2 rs1 rm.bits rd 0b1000011#7
  | .fmsubS rd rs1 rs2 rs3 rm => wordR rs3 0b00#2 rs2 rs1 rm.bits rd 0b1000111#7
  | .fnmsubS rd rs1 rs2 rs3 rm => wordR rs3 0b00#2 rs2 rs1 rm.bits rd 0b1001011#7
  | .fnmaddS rd rs1 rs2 rs3 rm => wordR rs3 0b00#2 rs2 rs1 rm.bits rd 0b1001111#7
  | .faddS rd rs1 rs2 rm => wordOpFp 0b00000#5 rs2 rs1 rm.bits rd
  | .fsubS rd rs1 rs2 rm => wordOpFp 0b00001#5 rs2 rs1 rm.bits rd
  | .fmulS rd rs1 rs2 rm => wordOpFp 0b00010#5 rs2 rs1 rm.bits rd
  | .fdivS rd rs1 rs2 rm => wordOpFp 0b00011#5 rs2 rs1 rm.bits rd
  | .fsqrtS rd rs1 rm => wordOpFp 0b01011#5 0b00000#5 rs1 rm.bits rd
  | .fsgnjS rd rs1 rs2 => wordOpFp 0b00100#5 rs2 rs1 0b000#3 rd
  | .fsgnjnS rd rs1 rs2 => wordOpFp 0b00100#5 rs2 rs1 0b001#3 rd
  | .fsgnjxS rd rs1 rs2 => wordOpFp 0b00100#5 rs2 rs1 0b010#3 rd
  | .fminS rd rs1 rs2 => wordOpFp 0b00101#5 rs2 rs1 0b000#3 rd
  | .fmaxS rd rs1 rs2 => wordOpFp 0b00101#5 rs2 rs1 0b001#3 rd
  | .fcvtWS rd rs1 rm => wordOpFp 0b11000#5 0b00000#5 rs1 rm.bits rd
  | .fcvtWUS rd rs1 rm => wordOpFp 0b11000#5 0b00001#5 rs1 rm.bits rd
  | .fcvtLS rd rs1 rm => wordOpFp 0b11000#5 0b00010#5 rs1 rm.bits rd
  | .fcvtLUS rd rs1 rm => wordOpFp 0b11000#5 0b00011#5 rs1 rm.bits rd
  | .fmvXW rd rs1 => wordOpFp 0b11100#5 0b00000#5 rs1 0b000#3 rd
  | .fclassS rd rs1 => wordOpFp 0b11100#5 0b00000#5 rs1 0b001#3 rd
  | .feqS rd rs1 rs2 => wordOpFp 0b10100#5 rs2 rs1 0b010#3 rd
  | .fltS rd rs1 rs2 => wordOpFp 0b10100#5 rs2 rs1 0b001#3 rd
  | .fleS rd rs1 rs2 => wordOpFp 0b10100#5 rs2 rs1 0b000#3 rd
  | .fcvtSW rd rs1 rm => wordOpFp 0b11010#5 0b00000#5 rs1 rm.bits rd
  | .fcvtSWU rd rs1 rm => wordOpFp 0b11010#5 0b00001#5 rs1 rm.bits rd
  | .fcvtSL rd rs1 rm => wordOpFp 0b11010#5 0b00010#5 rs1 rm.bits rd
  | .fcvtSLU rd rs1 rm => wordOpFp 0b11010#5 0b00011#5 rs1 rm.bits rd
  | .fmvWX rd rs1 => wordOpFp 0b11110#5 0b00000#5 rs1 0b000#3 rd
  | .csrrw rd csr rs1 => wordI csr rs1 0b001#3 rd 0b1110011#7
  | .csrrs rd csr rs1 => wordI csr rs1 0b010#3 rd 0b1110011#7
  | .csrrc rd csr rs1 => wordI csr rs1 0b011#3 rd 0b1110011#7
  | .csrrwi rd csr uimm => wordI csr uimm 0b101#3 rd 0b1110011#7
  | .csrrsi rd csr uimm => wordI csr uimm 0b110#3 rd 0b1110011#7
  | .csrrci rd csr uimm => wordI csr uimm 0b111#3 rd 0b1110011#7

/-! ### The spec's table of rows (R88, R171) -/

/-- One row of the opcode map: a word `w` is this instruction iff `w &&& mask = pattern`. -/
structure Row where
  mnemonic : String
  pattern : Bits32
  mask : Bits32
  deriving DecidableEq, Repr

/-- The row of an instruction, its numbers copied from the columns `match` and `mask` of R88 and R171. -/
def Instr.row : Instr → Row
  | .flw _ _ _ => ⟨"FLW", 0x00002007#32, 0x0000707f#32⟩
  | .fsw _ _ _ => ⟨"FSW", 0x00002027#32, 0x0000707f#32⟩
  | .fmaddS _ _ _ _ _ => ⟨"FMADD.S", 0x00000043#32, 0x0600007f#32⟩
  | .fmsubS _ _ _ _ _ => ⟨"FMSUB.S", 0x00000047#32, 0x0600007f#32⟩
  | .fnmsubS _ _ _ _ _ => ⟨"FNMSUB.S", 0x0000004b#32, 0x0600007f#32⟩
  | .fnmaddS _ _ _ _ _ => ⟨"FNMADD.S", 0x0000004f#32, 0x0600007f#32⟩
  | .faddS _ _ _ _ => ⟨"FADD.S", 0x00000053#32, 0xfe00007f#32⟩
  | .fsubS _ _ _ _ => ⟨"FSUB.S", 0x08000053#32, 0xfe00007f#32⟩
  | .fmulS _ _ _ _ => ⟨"FMUL.S", 0x10000053#32, 0xfe00007f#32⟩
  | .fdivS _ _ _ _ => ⟨"FDIV.S", 0x18000053#32, 0xfe00007f#32⟩
  | .fsqrtS _ _ _ => ⟨"FSQRT.S", 0x58000053#32, 0xfff0007f#32⟩
  | .fsgnjS _ _ _ => ⟨"FSGNJ.S", 0x20000053#32, 0xfe00707f#32⟩
  | .fsgnjnS _ _ _ => ⟨"FSGNJN.S", 0x20001053#32, 0xfe00707f#32⟩
  | .fsgnjxS _ _ _ => ⟨"FSGNJX.S", 0x20002053#32, 0xfe00707f#32⟩
  | .fminS _ _ _ => ⟨"FMIN.S", 0x28000053#32, 0xfe00707f#32⟩
  | .fmaxS _ _ _ => ⟨"FMAX.S", 0x28001053#32, 0xfe00707f#32⟩
  | .fcvtWS _ _ _ => ⟨"FCVT.W.S", 0xc0000053#32, 0xfff0007f#32⟩
  | .fcvtWUS _ _ _ => ⟨"FCVT.WU.S", 0xc0100053#32, 0xfff0007f#32⟩
  | .fcvtLS _ _ _ => ⟨"FCVT.L.S", 0xc0200053#32, 0xfff0007f#32⟩
  | .fcvtLUS _ _ _ => ⟨"FCVT.LU.S", 0xc0300053#32, 0xfff0007f#32⟩
  | .fmvXW _ _ => ⟨"FMV.X.W", 0xe0000053#32, 0xfff0707f#32⟩
  | .fclassS _ _ => ⟨"FCLASS.S", 0xe0001053#32, 0xfff0707f#32⟩
  | .feqS _ _ _ => ⟨"FEQ.S", 0xa0002053#32, 0xfe00707f#32⟩
  | .fltS _ _ _ => ⟨"FLT.S", 0xa0001053#32, 0xfe00707f#32⟩
  | .fleS _ _ _ => ⟨"FLE.S", 0xa0000053#32, 0xfe00707f#32⟩
  | .fcvtSW _ _ _ => ⟨"FCVT.S.W", 0xd0000053#32, 0xfff0007f#32⟩
  | .fcvtSWU _ _ _ => ⟨"FCVT.S.WU", 0xd0100053#32, 0xfff0007f#32⟩
  | .fcvtSL _ _ _ => ⟨"FCVT.S.L", 0xd0200053#32, 0xfff0007f#32⟩
  | .fcvtSLU _ _ _ => ⟨"FCVT.S.LU", 0xd0300053#32, 0xfff0007f#32⟩
  | .fmvWX _ _ => ⟨"FMV.W.X", 0xf0000053#32, 0xfff0707f#32⟩
  | .csrrw _ _ _ => ⟨"CSRRW", 0x00001073#32, 0x0000707f#32⟩
  | .csrrs _ _ _ => ⟨"CSRRS", 0x00002073#32, 0x0000707f#32⟩
  | .csrrc _ _ _ => ⟨"CSRRC", 0x00003073#32, 0x0000707f#32⟩
  | .csrrwi _ _ _ => ⟨"CSRRWI", 0x00005073#32, 0x0000707f#32⟩
  | .csrrsi _ _ _ => ⟨"CSRRSI", 0x00006073#32, 0x0000707f#32⟩
  | .csrrci _ _ _ => ⟨"CSRRCI", 0x00007073#32, 0x0000707f#32⟩

/-- `w` is the instruction of row `r` (R88). -/
def Row.matches (r : Row) (w : Bits32) : Bool := w &&& r.mask == r.pattern

/-- One instruction of each row, in the order of the opcode table: the operands do not matter, only the row. -/
def rowInstrs : List Instr :=
  [.flw 0 0 0, .fsw 0 0 0, .fmaddS 0 0 0 0 .dyn, .fmsubS 0 0 0 0 .dyn, .fnmsubS 0 0 0 0 .dyn, .fnmaddS 0 0 0 0 .dyn,
   .faddS 0 0 0 .dyn, .fsubS 0 0 0 .dyn, .fmulS 0 0 0 .dyn, .fdivS 0 0 0 .dyn, .fsqrtS 0 0 .dyn] ++
  [.fsgnjS 0 0 0, .fsgnjnS 0 0 0, .fsgnjxS 0 0 0, .fminS 0 0 0, .fmaxS 0 0 0, .fcvtWS 0 0 .dyn, .fcvtWUS 0 0 .dyn,
   .fcvtLS 0 0 .dyn, .fcvtLUS 0 0 .dyn, .fmvXW 0 0, .fclassS 0 0, .feqS 0 0 0, .fltS 0 0 0, .fleS 0 0 0] ++
  [.fcvtSW 0 0 .dyn, .fcvtSWU 0 0 .dyn, .fcvtSL 0 0 .dyn, .fcvtSLU 0 0 .dyn, .fmvWX 0 0, .csrrw 0 0 0, .csrrs 0 0 0,
   .csrrc 0 0 0, .csrrwi 0 0 0, .csrrsi 0 0 0, .csrrci 0 0 0]

/-- The opcode map of R88 and R171. -/
def opcodeTable : List Row := rowInstrs.map Instr.row

end Sys2Proof
end

