-- ==== Sys2Proof/Machine/State.lean ====
section
/-! DEFINITION. The state of the hart (`10_state.md` section 2), the faults (R301), the refusals (R326(d)) and the state
after reset (R36 to R39, R340). -/

namespace Sys2Proof.Machine

/-- Memory as (address, byte) pairs in canonical form: addresses strictly rising, no entry equal to what an unlisted
address reads as (R33, R50; assumption log 6). -/
abbrev Memory := List Host.Cell

/-- What an address that memory does not list reads as. The spec leaves it unspecified (R39); DESIGN CHOICE, unsafe
(assumption log 6). -/
def unlistedByte : Byte := 0x00#8

/-- Memory is in canonical form: strictly rising addresses, no listed byte equal to `unlistedByte`. -/
abbrev Memory.wf (m : Memory) : Prop :=
  m.Pairwise (fun c d => c.1 < d.1) ∧ ∀ c ∈ m, c.2 ≠ unlistedByte

/-- A list of addresses in canonical form: strictly rising. -/
abbrev addrsWf (l : List Nat) : Prop := l.Pairwise (fun a b => a < b)

/-- Everything the spec gives the machine (the table of `10_state.md` section 2), the parameters, and one field of the
model's own. `fcsr[31:8]` is hard-wired to zero (R30) and is not stored. -/
structure State where
  /-- The parameters of the model (R9, R35). No step changes them. -/
  cfg : Config
  /-- `x0`..`x31` (R24), zero-extended at XLEN=32; slot 0 is never read or written (`x0` is hard-wired). -/
  x : Vector Word 32
  /-- `f0`..`f31` (R21). -/
  f : Vector Bits32 32
  /-- The program counter (R26), zero-extended at XLEN=32. -/
  pc : Word
  /-- `fcsr[7:5]`, the dynamic rounding mode (R28). -/
  frm : BitVec 3
  /-- `fcsr[4:0]`, the accrued exception flags NV DZ OF UF NX (R29). -/
  fflags : Flags
  /-- Memory (R33, R50). -/
  mem : Memory
  /-- The model's own: the byte addresses that an FSW has written in this run, strictly rising (R66, assumption
  log 13). -/
  stored : List Nat
  deriving DecidableEq, Repr

/-- `Fault(E, info, pc)`: the synchronous exceptions of R301, each terminal (R306). The step that faults changes
nothing (R305), so the state is the one before the step. Where `info` is the pc it stands once. Safe: a run that faults
reaches no further state. -/
inductive Fault where
  /-- Raised by the fetch when the pc is not a multiple of 4 (R58). Safe. -/
  | instructionAddressMisaligned (pc : Word)
  /-- Raised by the fetch when a byte at the pc is not `MEM_VALID` for fetch (R58). Safe. -/
  | instructionAccessFault (pc : Word)
  /-- Raised by the decoder on an unassigned word of F's opcode space, by an instruction with a reserved rounding mode,
  and by an RV64-only instruction at XLEN=32 (R302); `insn` is the word. Safe. -/
  | illegalInstruction (insn : Bits32) (pc : Word)
  /-- Raised by FLW on an effective address that is not a multiple of 4 under `MISALIGNED_FP = trap` (R52). Safe. -/
  | loadAddressMisaligned (ea pc : Word)
  /-- Raised by FLW when a byte is not `MEM_VALID` for reading (R52). Safe. -/
  | loadAccessFault (ea pc : Word)
  /-- Raised by FSW on an effective address that is not a multiple of 4 under `MISALIGNED_FP = trap` (R53). Safe. -/
  | storeAddressMisaligned (ea pc : Word)
  /-- Raised by FSW when a byte is not `MEM_VALID` for writing (R53). Safe. -/
  | storeAccessFault (ea pc : Word)
  deriving DecidableEq, Repr

/-- Why the model gives no meaning. Each is safe: a run that is refused reaches no further state. -/
inductive Refusal where
  /-- `exec`'s own: an instruction that has no meaning yet. Safe. Raised by no arm of this model. -/
  | notModelled (mnemonic : String)
  /-- Raised by the step on a word that is neither under F's seven major opcodes nor one of the six CSR instructions
  (R90 step (6), R326(d)). Safe. -/
  | wordOutsideSpec (insn : Bits32) (pc : Word)
  /-- Raised by a CSR instruction whose CSR number is not 0x001, 0x002 or 0x003 (R182, R326(d)). Safe. -/
  | csrOutsideSpec (csr : BitVec 12) (pc : Word)
  /-- Raised by the fetch of a byte that an FSW wrote in this run (R66). Safe. -/
  | fetchOfStoredByte (pc : Word)
  /-- Raised by a step at a pc where the harness's condition `HALT` holds: the run is over, `Halted` (R326(c)). Safe. -/
  | halted (pc : Word)
  deriving DecidableEq, Repr

/-- The parameters in `State.reset`: XLEN=64, `MISALIGNED_FP = trap` (the spec's default, R55), every byte valid for
every access, `RESET_PC` 0, no `HALT`. All but the second are DESIGN CHOICE (assumption log 1, 5, 7, 8, 12). -/
def resetConfig : Config where
  xlen := .rv64
  misalignedFp := .trap
  memValid := [⟨0, 2 ^ 64, true, true, true⟩]
  resetPc := 0
  halt := []

/-- The machine right after reset under given parameters (R36 to R39, R340): the pc at `RESET_PC`, `x0` zero. The spec
leaves `x1`..`x31`, `f0`..`f31`, `frm` and `fflags` unspecified; they are zero here by DESIGN CHOICE, unsafe (assumption
log 4); `Launch` of `Safety.lean` admits every value. -/
def State.resetWith (c : Config) : State where
  cfg := c
  x := Vector.replicate 32 0
  f := Vector.replicate 32 0
  pc := c.resetPc
  frm := 0
  fflags := 0
  mem := []
  stored := []

/-- The machine right after reset. -/
def State.reset : State := State.resetWith resetConfig

end Sys2Proof.Machine
end

