-- ==== Sys2Proof/Machine/Ops.lean ====
section
/-! DEFINITION. The named operations on the state: XLEN arithmetic (R10), registers (R11, R24), the pc (R26), memory
(R50 to R61), the CSR views (R170), raising an exception (R306) and the shared ends of the instructions. -/

namespace Sys2Proof.Machine

/-- What an operation that can raise or be refused answers. -/
abbrev Result (α : Type) := Host.Outcome α Fault Refusal

/-- Sequencing: a fault or a refusal ends the instruction (R11, `raise`). -/
def Result.bind {α β : Type} (r : Result α) (k : α → Result β) : Result β :=
  match r with
  | .next a => k a
  | .fault e => .fault e
  | .refused e => .refused e

/-! ### XLEN-bit values (R7, R10) -/

/-- `trunc_XLEN`: the low XLEN bits, the rest zero. -/
def truncXlen (xl : Xlen) (w : Word) : Word :=
  match xl with
  | .rv32 => (w.setWidth 32).setWidth 64
  | .rv64 => w

/-- `sext_XLEN(v)` (R10). -/
def sextXlen (xl : Xlen) {n : Nat} (v : BitVec n) : Word := truncXlen xl (v.signExtend 64)

/-- `zext_XLEN(v)` (R10). -/
def zextXlen (xl : Xlen) {n : Nat} (v : BitVec n) : Word := truncXlen xl (v.setWidth 64)

/-- The number of byte addresses, 2^XLEN (R50). -/
def addrSpace : Xlen → Nat
  | .rv32 => 2 ^ 32
  | .rv64 => 2 ^ 64

/-! ### Registers and the pc (R11, R24, R26) -/

/-- `x[i]`: XLEN bits; `x[0]` is 0 (R11, R24). -/
def State.readX (s : State) (i : XReg) : Word :=
  if i = 0#5 then 0 else truncXlen s.cfg.xlen (s.x[i.toNat]'i.isLt)

/-- `x[i] <- v`: the write is discarded when `i = 0` (R11, R24). -/
def State.writeX (s : State) (i : XReg) (v : Word) : State :=
  if i = 0#5 then s else { s with x := s.x.set i.toNat (truncXlen s.cfg.xlen v) i.isLt }

/-- `f[i]`: 32 bits, none hard-wired (R11, R21). -/
def State.readF (s : State) (i : FReg) : Bits32 := s.f[i.toNat]'i.isLt

/-- `f[i] <- v` (R11, R21). -/
def State.writeF (s : State) (i : FReg) (v : Bits32) : State := { s with f := s.f.set i.toNat v i.isLt }

/-- The pc as an XLEN-bit value (R26). -/
def State.pcVal (s : State) : Word := truncXlen s.cfg.xlen s.pc

/-- `pc <- pc + 4`, modulo 2^XLEN (R26). -/
def State.advance (s : State) : State := { s with pc := truncXlen s.cfg.xlen (s.pcVal + 4) }

/-- `accrue(m)`: `fflags <- fflags | m` (R11, R29). -/
def State.accrue (s : State) (m : Flags) : State := { s with fflags := s.fflags ||| m }

/-! ### Taking an exception (R305, R306) and returning from one (R307)

There is no trap vector, no trap CSR, no handler and no return: the exception is the terminal outcome
`Fault(E, info, pc)`, and the step changes nothing. -/

/-- `raise E(info)`: the outcome `Fault(E, info, pc)`, `pc` the address of the faulting instruction (R11, R306). -/
def State.raise {α : Type} (s : State) (e : Word → Fault) : Result α := .fault (e s.pcVal)

/-- The cause code of an exception (R301). No rule reads it: it is recorded for a composed trap model. -/
def Fault.cause : Fault → Nat
  | .instructionAddressMisaligned _ => 0
  | .instructionAccessFault _ => 1
  | .illegalInstruction _ _ => 2
  | .loadAddressMisaligned _ _ => 4
  | .loadAccessFault _ _ => 5
  | .storeAddressMisaligned _ _ => 6
  | .storeAccessFault _ _ => 7

/-- The information an exception carries (R301, the last column). -/
def Fault.info : Fault → Word
  | .instructionAddressMisaligned pc => pc
  | .instructionAccessFault pc => pc
  | .illegalInstruction insn _ => insn.setWidth 64
  | .loadAddressMisaligned ea _ => ea
  | .loadAccessFault ea _ => ea
  | .storeAddressMisaligned ea _ => ea
  | .storeAccessFault ea _ => ea

/-- The address of the faulting instruction (R306). -/
def Fault.pc : Fault → Word
  | .instructionAddressMisaligned pc => pc
  | .instructionAccessFault pc => pc
  | .illegalInstruction _ pc => pc
  | .loadAddressMisaligned _ pc => pc
  | .loadAccessFault _ pc => pc
  | .storeAddressMisaligned _ pc => pc
  | .storeAccessFault _ pc => pc

/-! ### Memory as bytes (R50, R61) -/

/-- The byte at an address (R50, R63). -/
def Memory.read : Memory → Nat → Byte
  | [], _ => unlistedByte
  | (k, c) :: rest, a => if a = k then c else Memory.read rest a

/-- Writing a byte, keeping the canonical form. -/
def Memory.write : Memory → Nat → Byte → Memory
  | [], a, b => if b = unlistedByte then [] else [(a, b)]
  | (k, c) :: rest, a, b =>
    if a < k then (if b = unlistedByte then (k, c) :: rest else (a, b) :: (k, c) :: rest)
    else if a = k then (if b = unlistedByte then rest else (a, b) :: rest)
    else (k, c) :: Memory.write rest a b

/-- Adding an address to a strictly rising list. -/
def addAddr (a : Nat) : List Nat → List Nat
  | [] => [a]
  | k :: rest => if a < k then a :: k :: rest else if a = k then k :: rest else k :: addAddr a rest

/-- `a_i = (addr + i) mod 2^XLEN`, the address of byte `i` of an access (R52). -/
def byteAddr (xl : Xlen) (addr : Word) (i : Nat) : Nat := (truncXlen xl (addr + BitVec.ofNat 64 i)).toNat

/-- The byte of memory at the address `addr + i` (R52). -/
def State.readByte (s : State) (addr : Word) (i : Nat) : Byte := s.mem.read (byteAddr s.cfg.xlen addr i)

/-- The four bytes at `addr`, little-endian, as one 32-bit value (R51, R52). -/
def State.loadWord (s : State) (addr : Word) : Bits32 :=
  wordOfBytes (s.readByte addr 0) (s.readByte addr 1) (s.readByte addr 2) (s.readByte addr 3)

/-- Byte `i` of a 32-bit value, byte 0 the lowest (R51). -/
def byteOf (v : Bits32) (i : Nat) : Byte := v.extractLsb' (8 * i) 8

/-- Memory after the four byte writes of a 32-bit value at `addr`, little-endian (R53). -/
def storeBytes (xl : Xlen) (m : Memory) (addr : Word) (v : Bits32) : Memory :=
  (((m.write (byteAddr xl addr 0) (byteOf v 0)).write (byteAddr xl addr 1) (byteOf v 1)).write
    (byteAddr xl addr 2) (byteOf v 2)).write (byteAddr xl addr 3) (byteOf v 3)

/-- The four addresses of an access at `addr`, added to a list of addresses. -/
def addAccess (xl : Xlen) (addr : Word) (l : List Nat) : List Nat :=
  addAddr (byteAddr xl addr 0) (addAddr (byteAddr xl addr 1) (addAddr (byteAddr xl addr 2) (addAddr (byteAddr xl addr 3) l)))

/-- The state after the four bytes of `v` are stored at `addr` (R53); the stored addresses are recorded (R66). -/
def State.storeWord (s : State) (addr : Word) (v : Bits32) : State :=
  { s with mem := storeBytes s.cfg.xlen s.mem addr v, stored := addAccess s.cfg.xlen addr s.stored }

/-! ### Which accesses are valid (R52, R53, R55, R60) -/

/-- A region admits an access of this kind to one byte address (R60). -/
def regionAdmits (r : Region) (kind : AccessKind) (a : Nat) : Bool :=
  decide (r.base ≤ a) && decide (a < r.base + r.size) &&
    match kind with
    | .read => r.read
    | .write => r.write
    | .fetch => r.fetch

/-- One byte address is valid for a kind of access (R60, D19). -/
def byteValid (c : Config) (kind : AccessKind) (a : Nat) : Bool := c.memValid.any (fun r => regionAdmits r kind a)

/-- `MEM_VALID(addr, 4, kind)`: every byte of the access is valid (R60, D19). -/
def memValid4 (c : Config) (addr : Word) (kind : AccessKind) : Bool :=
  byteValid c kind (byteAddr c.xlen addr 0) && byteValid c kind (byteAddr c.xlen addr 1) &&
    byteValid c kind (byteAddr c.xlen addr 2) && byteValid c kind (byteAddr c.xlen addr 3)

/-- `addr[1:0] = 0`: naturally aligned (R55). -/
def aligned4 (addr : Word) : Bool := addr.extractLsb' 0 2 == 0#2

/-- The access is not stopped by its alignment: it is aligned, or `MISALIGNED_FP` is `invisible` (R52, R53, R55). -/
def alignmentOk (c : Config) (addr : Word) : Bool := aligned4 addr || c.misalignedFp == .invisible

/-- `MemRead(addr, 4)` (R52). -/
def State.memRead (s : State) (addr : Word) : Result Bits32 :=
  if alignmentOk s.cfg addr = false then s.raise (.loadAddressMisaligned addr)
  else if memValid4 s.cfg addr .read = false then s.raise (.loadAccessFault addr)
  else .next (s.loadWord addr)

/-- `MemWrite(addr, 4, v)` (R53): when it raises, no byte is written. -/
def State.memWrite (s : State) (addr : Word) (v : Bits32) : Result State :=
  if alignmentOk s.cfg addr = false then s.raise (.storeAddressMisaligned addr)
  else if memValid4 s.cfg addr .write = false then s.raise (.storeAccessFault addr)
  else .next (s.storeWord addr v)

/-- Some byte of the word at `addr` was stored by an FSW in this run (R66). -/
def State.storedAt (s : State) (addr : Word) : Bool :=
  s.stored.contains (byteAddr s.cfg.xlen addr 0) || s.stored.contains (byteAddr s.cfg.xlen addr 1) ||
    s.stored.contains (byteAddr s.cfg.xlen addr 2) || s.stored.contains (byteAddr s.cfg.xlen addr 3)

/-- `MemFetch(pc)` (R58), refused when a byte of the word was stored in this run (R66, assumption log 13). -/
def State.memFetch (s : State) : Result Bits32 :=
  if aligned4 s.pcVal = false then s.raise .instructionAddressMisaligned
  else if memValid4 s.cfg s.pcVal .fetch = false then s.raise .instructionAccessFault
  else if s.storedAt s.pcVal then .refused (.fetchOfStoredByte s.pcVal)
  else .next (s.loadWord s.pcVal)

/-- The harness's condition `HALT` holds (R326(c), D26). -/
def State.isHalted (s : State) : Bool := s.cfg.halt.contains s.pcVal

/-! ### The CSR views (R31, R170) -/

/-- `csr_read(n)`, for a CSR number in scope: zero-extended to XLEN (R170). -/
def State.csrRead (s : State) (n : CsrNum) : Option Word :=
  if n = 0x001#12 then some (zextXlen s.cfg.xlen s.fflags)
  else if n = 0x002#12 then some (zextXlen s.cfg.xlen s.frm)
  else if n = 0x003#12 then some (zextXlen s.cfg.xlen (s.frm ++ s.fflags))
  else none

/-- `csr_write(n, w)`: bits of `w` above the field are ignored (R30, R170). -/
def State.csrWrite (s : State) (n : CsrNum) (w : Word) : State :=
  if n = 0x001#12 then { s with fflags := w.extractLsb' 0 5 }
  else if n = 0x002#12 then { s with frm := w.extractLsb' 0 3 }
  else if n = 0x003#12 then { s with frm := w.extractLsb' 5 3, fflags := w.extractLsb' 0 5 }
  else s

/-- The common shape of the CSR instructions (R172 to R175): `t <- csr_read(csr)`, the write `upd t` if the instruction
makes one, `x[rd] <- t`, `pc <- pc + 4`. A CSR number outside the three is refused (R182). -/
def csrInstr (rd : XReg) (csr : CsrNum) (upd : Word → Option Word) (s : State) : Result State :=
  match s.csrRead csr with
  | none => .refused (.csrOutsideSpec csr s.pcVal)
  | some t =>
    match upd t with
    | none => .next ((s.writeX rd t).advance)
    | some w => .next (((s.csrWrite csr w).writeX rd t).advance)

/-! ### The shared ends of the instructions (R210, R25) -/

/-- `f[rd] <- r; accrue(fl); pc <- pc + 4` (R210). -/
def finishF (rd : FReg) (r : Bits32 × Flags) (s : State) : Result State :=
  .next (((s.writeF rd r.1).accrue r.2).advance)

/-- `x[rd] <- v; accrue(fl); pc <- pc + 4` (R241, R272). -/
def finishX (rd : XReg) (r : Word × Flags) (s : State) : Result State :=
  .next (((s.writeX rd r.1).accrue r.2).advance)

/-! ### Placing an instruction where the next step fetches it -/

/-- `l` without `a`. -/
def dropAddr (a : Nat) (l : List Nat) : List Nat := l.filter (fun k => k ≠ a)

/-- The state with the word `w` at the pc, fetchable by the next step: the four bytes are written, they count as launch
image (not as stored in this run, R66), the pc is no `HALT` address, and where they are not `MEM_VALID` for fetch a
region that admits it is added. Nothing else changes. -/
def State.placeWord (s : State) (w : Bits32) : State :=
  let region : Region := ⟨s.pcVal.toNat, 4, false, false, true⟩
  { s with
    mem := storeBytes s.cfg.xlen s.mem s.pcVal w
    stored := dropAddr (byteAddr s.cfg.xlen s.pcVal 0) (dropAddr (byteAddr s.cfg.xlen s.pcVal 1)
      (dropAddr (byteAddr s.cfg.xlen s.pcVal 2) (dropAddr (byteAddr s.cfg.xlen s.pcVal 3) s.stored)))
    cfg :=
      { s.cfg with
        halt := s.cfg.halt.filter (fun p => p ≠ s.pcVal)
        memValid := if memValid4 s.cfg s.pcVal .fetch then s.cfg.memValid else region :: s.cfg.memValid } }

end Sys2Proof.Machine
end

