-- ==== Sys2Proof/Machine/Operands.lean ====
section
/-! DEFINITION. Operand forms: the effective rounding mode (R131), the effective address (R54), the integer operands of
the conversions (R246 to R250), the integers written to a register (R241 to R245) and the sources of the CSR
instructions (R171 to R175). -/

namespace Sys2Proof.Machine

/-! ### The rounding mode (R85, R131) -/

/-- The mode a value of `frm` stands for; none when it is reserved (R130, R131). -/
def frmMode (frm : BitVec 3) : Option RoundMode :=
  match rmOfBits frm with
  | .static m => some m
  | .reserved101 => none
  | .reserved110 => none
  | .dyn => none

/-- `rm_eff(rm)`: the effective mode; none where R131 raises IllegalInstruction. -/
def rmEff (rm : RmField) (frm : BitVec 3) : Option RoundMode :=
  match rm with
  | .static m => some m
  | .reserved101 => none
  | .reserved110 => none
  | .dyn => frmMode frm

/-- Evaluate `rm_eff` before the operands are read; a reserved mode raises IllegalInstruction with the word `insn`
(R90 step (3), R92, R131). -/
def withMode (insn : Bits32) (rm : RmField) (s : State) (k : RoundMode → Result State) : Result State :=
  match rmEff rm s.frm with
  | none => s.raise (.illegalInstruction insn)
  | some mode => k mode

/-- An RV64-only instruction raises IllegalInstruction at XLEN=32 (R90 step (2), R94). -/
def needRv64 (insn : Bits32) (s : State) (k : Result State) : Result State :=
  match s.cfg.xlen with
  | .rv32 => s.raise (.illegalInstruction insn)
  | .rv64 => k

/-! ### Addresses (R54) -/

/-- `ea = (x[rs1] + sext_XLEN(imm)) mod 2^XLEN` (R54). -/
def State.effAddr (s : State) (rs1 : XReg) (imm : BitVec 12) : Word :=
  truncXlen s.cfg.xlen (s.readX rs1 + sextXlen s.cfg.xlen imm)

/-! ### Integer operands and results of the conversions -/

/-- The signed value of the low 32 bits (R246, D21). -/
def signed32 (w : Word) : Int := (w.extractLsb' 0 32).toInt
/-- The unsigned value of the low 32 bits (R247, D21). -/
def unsigned32 (w : Word) : Int := (w.extractLsb' 0 32).toNat
/-- The signed value of 64 bits (R248). -/
def signed64 (w : Word) : Int := w.toInt
/-- The unsigned value of 64 bits (R249). -/
def unsigned64 (w : Word) : Int := w.toNat

/-- `sext_XLEN((n mod 2^32)[31:0])` (R245): also for the unsigned form. -/
def intResult32 (xl : Xlen) (n : Int) : Word := sextXlen xl (BitVec.ofInt 32 n)
/-- `(n mod 2^64)[63:0]` (R245). -/
def intResult64 (n : Int) : Word := BitVec.ofInt 64 n

/-- The integer 0 or 1, zero-extended to XLEN (R270). -/
def boolResult (xl : Xlen) (b : Bool) : Word := zextXlen xl (BitVec.ofBool b)

/-! ### What a CSR instruction writes (R172 to R175) -/

/-- CSRRW, CSRRWI: the source, always (R172, R175). -/
def csrPut (u : Word) (_old : Word) : Option Word := some u
/-- CSRRS, CSRRSI: `t | u`, unless the source field is 0 (R173, R175). -/
def csrSet (field : BitVec 5) (u old : Word) : Option Word := if field = 0#5 then none else some (old ||| u)
/-- CSRRC, CSRRCI: `t & ~u`, unless the source field is 0 (R174, R175). -/
def csrClear (field : BitVec 5) (u old : Word) : Option Word := if field = 0#5 then none else some (old &&& ~~~u)

end Sys2Proof.Machine
end

