-- ==== Sys2Proof/Machine/Compare.lean ====
section
/-! DEFINITION. The compare instructions and FCLASS.S (`45_compare.md`, `46_classify.md`). -/

namespace Sys2Proof.Machine

/-- FEQ.S (R272). -/
def execFeqS (rd : XReg) (rs1 rs2 : FReg) (s : State) : Result State :=
  finishX rd (boolResult s.cfg.xlen (feqCore (s.readF rs1) (s.readF rs2)).1, (feqCore (s.readF rs1) (s.readF rs2)).2) s

/-- FLT.S (R273). -/
def execFltS (rd : XReg) (rs1 rs2 : FReg) (s : State) : Result State :=
  finishX rd (boolResult s.cfg.xlen (fltCore (s.readF rs1) (s.readF rs2)).1, (fltCore (s.readF rs1) (s.readF rs2)).2) s

/-- FLE.S (R274). -/
def execFleS (rd : XReg) (rs1 rs2 : FReg) (s : State) : Result State :=
  finishX rd (boolResult s.cfg.xlen (fleCore (s.readF rs1) (s.readF rs2)).1, (fleCore (s.readF rs1) (s.readF rs2)).2) s

/-- FCLASS.S (R281). -/
def execFclassS (rd : XReg) (rs1 : FReg) (s : State) : Result State :=
  finishX rd (zextXlen s.cfg.xlen (fclassMask (s.readF rs1)), flagNone) s

end Sys2Proof.Machine
end

