-- ==== Sys2Proof/Machine/Compute.lean ====
section
/-! DEFINITION. The computational instructions (`43_compute.md`). -/

namespace Sys2Proof.Machine

/-- FADD.S (R211). -/
def execFaddS (rd rs1 rs2 : FReg) (rm : RmField) (s : State) : Result State :=
  withMode (encode (.faddS rd rs1 rs2 rm)) rm s fun mode => finishF rd (faddCore mode (s.readF rs1) (s.readF rs2)) s

/-- FSUB.S (R212). -/
def execFsubS (rd rs1 rs2 : FReg) (rm : RmField) (s : State) : Result State :=
  withMode (encode (.fsubS rd rs1 rs2 rm)) rm s fun mode => finishF rd (fsubCore mode (s.readF rs1) (s.readF rs2)) s

/-- FMUL.S (R213). -/
def execFmulS (rd rs1 rs2 : FReg) (rm : RmField) (s : State) : Result State :=
  withMode (encode (.fmulS rd rs1 rs2 rm)) rm s fun mode => finishF rd (fmulCore mode (s.readF rs1) (s.readF rs2)) s

/-- FDIV.S (R214). -/
def execFdivS (rd rs1 rs2 : FReg) (rm : RmField) (s : State) : Result State :=
  withMode (encode (.fdivS rd rs1 rs2 rm)) rm s fun mode => finishF rd (fdivCore mode (s.readF rs1) (s.readF rs2)) s

/-- FSQRT.S (R215). -/
def execFsqrtS (rd rs1 : FReg) (rm : RmField) (s : State) : Result State :=
  withMode (encode (.fsqrtS rd rs1 rm)) rm s fun mode => finishF rd (fsqrtCore mode (s.readF rs1)) s

/-- FMIN.S (R217). -/
def execFminS (rd rs1 rs2 : FReg) (s : State) : Result State :=
  finishF rd (fminCore (s.readF rs1) (s.readF rs2)) s

/-- FMAX.S (R218). -/
def execFmaxS (rd rs1 rs2 : FReg) (s : State) : Result State :=
  finishF rd (fmaxCore (s.readF rs1) (s.readF rs2)) s

/-- FMADD.S: `(rs1 * rs2) + rs3` (R221). -/
def execFmaddS (rd rs1 rs2 rs3 : FReg) (rm : RmField) (s : State) : Result State :=
  withMode (encode (.fmaddS rd rs1 rs2 rs3 rm)) rm s fun mode =>
    finishF rd (fmaCore mode (s.readF rs1) (s.readF rs2) (s.readF rs3) false false) s

/-- FMSUB.S: `(rs1 * rs2) - rs3` (R222). -/
def execFmsubS (rd rs1 rs2 rs3 : FReg) (rm : RmField) (s : State) : Result State :=
  withMode (encode (.fmsubS rd rs1 rs2 rs3 rm)) rm s fun mode =>
    finishF rd (fmaCore mode (s.readF rs1) (s.readF rs2) (s.readF rs3) false true) s

/-- FNMSUB.S: `-(rs1 * rs2) + rs3` (R223). -/
def execFnmsubS (rd rs1 rs2 rs3 : FReg) (rm : RmField) (s : State) : Result State :=
  withMode (encode (.fnmsubS rd rs1 rs2 rs3 rm)) rm s fun mode =>
    finishF rd (fmaCore mode (s.readF rs1) (s.readF rs2) (s.readF rs3) true false) s

/-- FNMADD.S: `-(rs1 * rs2) - rs3` (R224; `90_conflicts.md` C1: `rs3`). -/
def execFnmaddS (rd rs1 rs2 rs3 : FReg) (rm : RmField) (s : State) : Result State :=
  withMode (encode (.fnmaddS rd rs1 rs2 rs3 rm)) rm s fun mode =>
    finishF rd (fmaCore mode (s.readF rs1) (s.readF rs2) (s.readF rs3) true true) s

end Sys2Proof.Machine
end

