-- ==== Sys2Proof/Machine/Convert.lean ====
section
/-! DEFINITION. Conversions, sign injection and moves (`44_convert_move.md`). -/

namespace Sys2Proof.Machine

/-- The common shape of FCVT.W.S and FCVT.WU.S: the 32-bit result is sign-extended to XLEN (R241, R245). -/
def cvtToInt32 (mode : RoundMode) (rd : XReg) (a : Bits32) (signed : Bool) (s : State) : Result State :=
  finishX rd (intResult32 s.cfg.xlen (fcvtIntCore mode a 32 signed).1, (fcvtIntCore mode a 32 signed).2) s

/-- The common shape of FCVT.L.S and FCVT.LU.S (R243, R245). -/
def cvtToInt64 (mode : RoundMode) (rd : XReg) (a : Bits32) (signed : Bool) (s : State) : Result State :=
  finishX rd (intResult64 (fcvtIntCore mode a 64 signed).1, (fcvtIntCore mode a 64 signed).2) s

/-- FCVT.W.S (R241). -/
def execFcvtWS (rd : XReg) (rs1 : FReg) (rm : RmField) (s : State) : Result State :=
  withMode (encode (.fcvtWS rd rs1 rm)) rm s fun mode => cvtToInt32 mode rd (s.readF rs1) true s

/-- FCVT.WU.S (R242). -/
def execFcvtWUS (rd : XReg) (rs1 : FReg) (rm : RmField) (s : State) : Result State :=
  withMode (encode (.fcvtWUS rd rs1 rm)) rm s fun mode => cvtToInt32 mode rd (s.readF rs1) false s

/-- FCVT.L.S (R243), XLEN=64 only. -/
def execFcvtLS (rd : XReg) (rs1 : FReg) (rm : RmField) (s : State) : Result State :=
  needRv64 (encode (.fcvtLS rd rs1 rm)) s <|
    withMode (encode (.fcvtLS rd rs1 rm)) rm s fun mode => cvtToInt64 mode rd (s.readF rs1) true s

/-- FCVT.LU.S (R244), XLEN=64 only. -/
def execFcvtLUS (rd : XReg) (rs1 : FReg) (rm : RmField) (s : State) : Result State :=
  needRv64 (encode (.fcvtLUS rd rs1 rm)) s <|
    withMode (encode (.fcvtLUS rd rs1 rm)) rm s fun mode => cvtToInt64 mode rd (s.readF rs1) false s

/-- FCVT.S.W (R246). -/
def execFcvtSW (rd : FReg) (rs1 : XReg) (rm : RmField) (s : State) : Result State :=
  withMode (encode (.fcvtSW rd rs1 rm)) rm s fun mode => finishF rd (fcvtFloatCore mode (signed32 (s.readX rs1))) s

/-- FCVT.S.WU (R247). -/
def execFcvtSWU (rd : FReg) (rs1 : XReg) (rm : RmField) (s : State) : Result State :=
  withMode (encode (.fcvtSWU rd rs1 rm)) rm s fun mode => finishF rd (fcvtFloatCore mode (unsigned32 (s.readX rs1))) s

/-- FCVT.S.L (R248), XLEN=64 only. -/
def execFcvtSL (rd : FReg) (rs1 : XReg) (rm : RmField) (s : State) : Result State :=
  needRv64 (encode (.fcvtSL rd rs1 rm)) s <|
    withMode (encode (.fcvtSL rd rs1 rm)) rm s fun mode => finishF rd (fcvtFloatCore mode (signed64 (s.readX rs1))) s

/-- FCVT.S.LU (R249), XLEN=64 only. -/
def execFcvtSLU (rd : FReg) (rs1 : XReg) (rm : RmField) (s : State) : Result State :=
  needRv64 (encode (.fcvtSLU rd rs1 rm)) s <|
    withMode (encode (.fcvtSLU rd rs1 rm)) rm s fun mode => finishF rd (fcvtFloatCore mode (unsigned64 (s.readX rs1))) s

/-- FSGNJ.S (R252). -/
def execFsgnjS (rd rs1 rs2 : FReg) (s : State) : Result State :=
  finishF rd (fsgnjCore (s.readF rs1) (s.readF rs2), flagNone) s

/-- FSGNJN.S (R253). -/
def execFsgnjnS (rd rs1 rs2 : FReg) (s : State) : Result State :=
  finishF rd (fsgnjnCore (s.readF rs1) (s.readF rs2), flagNone) s

/-- FSGNJX.S (R254). -/
def execFsgnjxS (rd rs1 rs2 : FReg) (s : State) : Result State :=
  finishF rd (fsgnjxCore (s.readF rs1) (s.readF rs2), flagNone) s

/-- FMV.X.W (R255). -/
def execFmvXW (rd : XReg) (rs1 : FReg) (s : State) : Result State :=
  finishX rd (sextXlen s.cfg.xlen (s.readF rs1), flagNone) s

/-- FMV.W.X (R256). -/
def execFmvWX (rd : FReg) (rs1 : XReg) (s : State) : Result State :=
  finishF rd ((s.readX rs1).extractLsb' 0 32, flagNone) s

end Sys2Proof.Machine
end

