-- ==== Sys2Proof/Machine/Csr.lean ====
section
/-! DEFINITION. The CSR instructions on `fflags`, `frm` and `fcsr` (`41_fcsr_access.md`). -/

namespace Sys2Proof.Machine

/-- CSRRW (R172). -/
def execCsrrw (rd : XReg) (csr : CsrNum) (rs1 : XReg) (s : State) : Result State :=
  csrInstr rd csr (csrPut (s.readX rs1)) s

/-- CSRRS (R173). -/
def execCsrrs (rd : XReg) (csr : CsrNum) (rs1 : XReg) (s : State) : Result State :=
  csrInstr rd csr (csrSet rs1 (s.readX rs1)) s

/-- CSRRC (R174). -/
def execCsrrc (rd : XReg) (csr : CsrNum) (rs1 : XReg) (s : State) : Result State :=
  csrInstr rd csr (csrClear rs1 (s.readX rs1)) s

/-- CSRRWI (R175). -/
def execCsrrwi (rd : XReg) (csr : CsrNum) (uimm : BitVec 5) (s : State) : Result State :=
  csrInstr rd csr (csrPut (zextXlen s.cfg.xlen uimm)) s

/-- CSRRSI (R175). -/
def execCsrrsi (rd : XReg) (csr : CsrNum) (uimm : BitVec 5) (s : State) : Result State :=
  csrInstr rd csr (csrSet uimm (zextXlen s.cfg.xlen uimm)) s

/-- CSRRCI (R175). -/
def execCsrrci (rd : XReg) (csr : CsrNum) (uimm : BitVec 5) (s : State) : Result State :=
  csrInstr rd csr (csrClear uimm (zextXlen s.cfg.xlen uimm)) s

end Sys2Proof.Machine
end

