-- ==== Sys2Proof/Machine/LoadStore.lean ====
section
/-! DEFINITION. FLW and FSW (`42_load_store.md`). -/

namespace Sys2Proof.Machine

/-- FLW (R201). -/
def execFlw (rd : FReg) (rs1 : XReg) (imm : BitVec 12) (s : State) : Result State :=
  (s.memRead (s.effAddr rs1 imm)).bind fun v => .next ((s.writeF rd v).advance)

/-- FSW (R202). -/
def execFsw (rs2 : FReg) (rs1 : XReg) (imm : BitVec 12) (s : State) : Result State :=
  (s.memWrite (s.effAddr rs1 imm) (s.readF rs2)).bind fun t => .next t.advance

end Sys2Proof.Machine
end

