-- ==== Sys2Proof/Machine/Run.lean ====
section
/-! DEFINITION. The body of one step of the hart (R25): the harness's `HALT` (R326(c)), fetch (R58), decode (R90),
execute. -/

namespace Sys2Proof.Machine

/-- What a fetched word does (R90, R326): it executes, or it is an unassigned word of F's opcode space and raises
IllegalInstruction (step (5)), or it is outside this spec and is refused (step (6)). -/
def runWord (w : Bits32) (s : State) : Result State :=
  match decode w with
  | .ok i => exec i s
  | .error (.illegal _) => s.raise (.illegalInstruction w)
  | .error .outside => .refused (.wordOutsideSpec w s.pcVal)
  | .error (.truncated _) => .refused (.wordOutsideSpec w s.pcVal)

/-- One step: the run is over at a `HALT` address, else fetch, decode and execute (R25, R326). -/
def runStep (s : State) : Result State :=
  if s.isHalted then .refused (.halted s.pcVal)
  else s.memFetch.bind fun w => runWord w s

end Sys2Proof.Machine
end

