-- ==== Sys2Proof/Machine/Step.lean ====
section
/-! DEFINITION. One step of the hart and the placing of an instruction where it fetches next. -/

namespace Sys2Proof.Machine

/-- One step (R25). -/
def step (s : State) : Host.Outcome State Fault Refusal := runStep s

/-- The state with the instruction of bits `w` stored where the step fetches next, the bits from `nbits` on zero. It
stands for the load of a program from outside the machine (R39, assumption log 17). -/
def State.withFetchWord (s : State) (nbits w : Nat) : State := s.placeWord (BitVec.ofNat 32 (w % 2 ^ nbits))

end Sys2Proof.Machine
end

