-- ==== Sys2Proof/Safety.lean ====
section
/-! DEFINITION. The words the claims are stated in: the invariant of the machine, the launch states (R340, R343), the
outcomes of a run (R326), what an instruction changes and what it leaves, and what a correctly rounded result is over
the real numbers (R123, R130, R135, R136), said without the algorithm of R134. -/

namespace Sys2Proof.Machine

/-! ### Invariant and launch -/

/-- The invariant of the machine: memory and the list of stored addresses keep their canonical form inside the address
space (R50), `x0` holds zero and every integer register and the pc hold XLEN bits (R24, R26), the pc is a multiple of 4
(R58). -/
structure State.Inv (s : State) : Prop where
  memWf : s.mem.wf
  memInSpace : ∀ c ∈ s.mem, c.1 < addrSpace s.cfg.xlen
  storedWf : addrsWf s.stored
  storedInSpace : ∀ a ∈ s.stored, a < addrSpace s.cfg.xlen
  xZero : s.x[0] = 0
  xFits : ∀ i : Fin 32, truncXlen s.cfg.xlen s.x[i] = s.x[i]
  pcFits : truncXlen s.cfg.xlen s.pc = s.pc
  pcAligned : aligned4 s.pc = true

/-- A launch state (R36 to R39, R340, R343): any values in `x1`..`x31`, `f0`..`f31`, `frm`, `fflags`, any launch image,
any parameters with `RESET_PC` a multiple of 4; the pc at `RESET_PC`; nothing stored yet. -/
structure State.Launch (s : State) : Prop where
  memWf : s.mem.wf
  memInSpace : ∀ c ∈ s.mem, c.1 < addrSpace s.cfg.xlen
  nothingStored : s.stored = []
  xZero : s.x[0] = 0
  xFits : ∀ i : Fin 32, truncXlen s.cfg.xlen s.x[i] = s.x[i]
  resetPcAligned : aligned4 s.cfg.resetPc = true
  pcAtReset : s.pc = truncXlen s.cfg.xlen s.cfg.resetPc

/-! ### Outcomes of a run (R326) -/

/-- The four outcomes a run distinguishes. -/
inductive RunStatus where
  | running
  | fault (e : Fault)
  | halted
  | refused (r : Refusal)
  deriving DecidableEq, Repr

/-- Where a run stands at `s` (R326). -/
def State.status (s : State) : RunStatus :=
  match step s with
  | .next _ => .running
  | .fault e => .fault e
  | .refused (.halted _) => .halted
  | .refused r => .refused r

/-- `n` steps from `s` reach `t` with no fault and no refusal on the way: a safe run of `n` steps. -/
def SafeRun : Nat → State → State → Prop
  | 0, s, t => s = t
  | n + 1, s, t => ∃ u, step s = .next u ∧ SafeRun n u t

/-! ### What an instruction changes and what it leaves unchanged -/

/-- The pc after an instruction: `pc + 4` modulo 2^XLEN (R26). -/
def State.nextPc (s : State) : Word := truncXlen s.cfg.xlen (s.pcVal + 4)

/-- From `s` to `t` only `f[rd]` (to `v`), the flags (by OR-ing in `m`) and the pc changed. -/
structure FpEffect (s t : State) (rd : FReg) (v : Bits32) (m : Flags) : Prop where
  dest : t.readF rd = v
  otherF : ∀ r : FReg, r ≠ rd → t.readF r = s.readF r
  intRegs : ∀ r : XReg, t.readX r = s.readX r
  frm : t.frm = s.frm
  fflags : t.fflags = s.fflags ||| m
  memory : ∀ a : Nat, t.mem.read a = s.mem.read a
  stored : t.stored = s.stored
  cfg : t.cfg = s.cfg
  pc : t.pc = s.nextPc

/-- From `s` to `t` only `x[rd]` (to `v`, unless `rd` is `x0`, R24, R240), the flags and the pc changed. -/
structure IntEffect (s t : State) (rd : XReg) (v : Word) (m : Flags) : Prop where
  dest : rd ≠ 0#5 → t.readX rd = v
  zero : t.readX 0#5 = 0
  otherX : ∀ r : XReg, r ≠ rd → t.readX r = s.readX r
  fpRegs : ∀ r : FReg, t.readF r = s.readF r
  frm : t.frm = s.frm
  fflags : t.fflags = s.fflags ||| m
  memory : ∀ a : Nat, t.mem.read a = s.mem.read a
  stored : t.stored = s.stored
  cfg : t.cfg = s.cfg
  pc : t.pc = s.nextPc

/-- From `s` to `t` only the four bytes of `v` at `addr`, `addr + 1`, `addr + 2`, `addr + 3` modulo 2^XLEN (R53), the
record of the stored addresses (R66) and the pc changed. -/
structure StoreEffect (s t : State) (addr : Word) (v : Bits32) : Prop where
  byte0 : t.mem.read (byteAddr s.cfg.xlen addr 0) = v.extractLsb' 0 8
  byte1 : t.mem.read (byteAddr s.cfg.xlen addr 1) = v.extractLsb' 8 8
  byte2 : t.mem.read (byteAddr s.cfg.xlen addr 2) = v.extractLsb' 16 8
  byte3 : t.mem.read (byteAddr s.cfg.xlen addr 3) = v.extractLsb' 24 8
  otherBytes : ∀ a : Nat, (∀ i < 4, a ≠ byteAddr s.cfg.xlen addr i) → t.mem.read a = s.mem.read a
  stored : ∀ a : Nat, a ∈ t.stored ↔ a ∈ s.stored ∨ ∃ i < 4, a = byteAddr s.cfg.xlen addr i
  intRegs : ∀ r : XReg, t.readX r = s.readX r
  fpRegs : ∀ r : FReg, t.readF r = s.readF r
  frm : t.frm = s.frm
  fflags : t.fflags = s.fflags
  cfg : t.cfg = s.cfg
  pc : t.pc = s.nextPc

/-- From `s` to `t` only `x[rd]` (to `old`, unless `rd` is `x0`), `frm`, `fflags` (to the values given) and the pc
changed. -/
structure CsrEffect (s t : State) (rd : XReg) (old : Word) (frm : BitVec 3) (fflags : Flags) : Prop where
  dest : rd ≠ 0#5 → t.readX rd = old
  zero : t.readX 0#5 = 0
  otherX : ∀ r : XReg, r ≠ rd → t.readX r = s.readX r
  fpRegs : ∀ r : FReg, t.readF r = s.readF r
  newFrm : t.frm = frm
  newFflags : t.fflags = fflags
  memory : ∀ a : Nat, t.mem.read a = s.mem.read a
  stored : t.stored = s.stored
  cfg : t.cfg = s.cfg
  pc : t.pc = s.nextPc

/-- The exact set of states in which an instruction has its effect (R302, R52, R53, R182): its rounding mode, if it has
one, is not reserved; it exists at this XLEN; its CSR, if it names one, is in scope; its access, if it makes one, is
admitted. -/
def Completes (i : Instr) (s : State) : Prop :=
  (∀ rm, i.rm? = some rm → rmEff rm s.frm ≠ none) ∧
  (i.rv64Only = true → s.cfg.xlen = .rv64) ∧
  (∀ n, i.csr? = some n → csrInScope n = true) ∧
  (match i with
   | .flw _ rs1 imm =>
     alignmentOk s.cfg (s.effAddr rs1 imm) = true ∧ memValid4 s.cfg (s.effAddr rs1 imm) .read = true
   | .fsw _ rs1 imm =>
     alignmentOk s.cfg (s.effAddr rs1 imm) = true ∧ memValid4 s.cfg (s.effAddr rs1 imm) .write = true
   | _ => True)

/-! ### Values and correct rounding over the reals -/

/-- `val(b)` (R123), the exact value of a finite pattern. -/
def fval (b : Bits32) : ℚ :=
  (if fsign b then -1 else 1) *
    (if fexp b = 0#8 then ((ffrac b).toNat : ℚ) * 2 ^ (-149 : ℤ)
     else ((2 ^ 23 + (ffrac b).toNat : ℕ) : ℚ) * 2 ^ (((fexp b).toNat : ℤ) - 150))

/-- The values a mode admits as the result for the exact value `v` (R130): all of them, those no greater in magnitude
(RTZ), no greater (RDN), no less (RUP). -/
def Admits : RoundMode → ℝ → ℝ → Prop
  | .rne, _, _ => True
  | .rmm, _, _ => True
  | .rtz, v, x => |x| ≤ |v|
  | .rdn, v, x => x ≤ v
  | .rup, v, x => v ≤ x

/-- How a mode settles a tie between the delivered pattern `r` and another value `x` equally near (R130): RNE delivers
the one whose least significant significand bit is 0, RMM the one larger in magnitude; the directed modes have no
ties. -/
def TieBreak : RoundMode → Bits32 → ℝ → Prop
  | .rne, r, _ => r.getLsbD 0 = false
  | .rmm, r, x => |x| < |(fval r : ℝ)|
  | .rtz, _, _ => False
  | .rdn, _, _ => False
  | .rup, _, _ => False

/-- `r` is the finite pattern that the exact definition of the mode delivers for `v` (R130, the last column). -/
structure Delivers (mode : RoundMode) (v : ℝ) (r : Bits32) : Prop where
  finite : isFinite r = true
  admitted : Admits mode v (fval r)
  nearest : ∀ p : Bits32, isFinite p = true → Admits mode v (fval p) → |(fval r : ℝ) - v| ≤ |(fval p : ℝ) - v|
  ties : ∀ p : Bits32, isFinite p = true → Admits mode v (fval p) → fval p ≠ fval r →
    |(fval p : ℝ) - v| = |(fval r : ℝ) - v| → TieBreak mode r (fval p)

/-- Overflow (R135): the value rounded to 24 bits with unbounded exponent reaches 2^128. To nearest, from the half-way
point 2^128 - 2^103 up; away from zero, as soon as `MAXF` = 2^128 - 2^104 is exceeded; towards zero, from 2^128. -/
def Overflows : RoundMode → ℝ → Prop
  | .rne, v => 2 ^ 128 - 2 ^ 103 ≤ |v|
  | .rmm, v => 2 ^ 128 - 2 ^ 103 ≤ |v|
  | .rtz, v => 2 ^ 128 ≤ |v|
  | .rdn, v => v < -(2 ^ 128 - 2 ^ 104) ∨ 2 ^ 128 ≤ v
  | .rup, v => 2 ^ 128 - 2 ^ 104 < v ∨ v ≤ -2 ^ 128

/-- Tininess after rounding (R136): the value rounded to 24 bits with unbounded exponent is below 2^-126 in magnitude.
Below 2^-126 that rounding has quantum 2^-150. -/
def Tiny : RoundMode → ℝ → Prop
  | .rne, v => |v| < 2 ^ (-126 : ℤ) - 2 ^ (-151 : ℤ)
  | .rmm, v => |v| < 2 ^ (-126 : ℤ) - 2 ^ (-151 : ℤ)
  | .rtz, v => |v| < 2 ^ (-126 : ℤ)
  | .rdn, v => -(2 ^ (-126 : ℤ) - 2 ^ (-150 : ℤ)) ≤ v ∧ v < 2 ^ (-126 : ℤ)
  | .rup, v => -2 ^ (-126 : ℤ) < v ∧ v ≤ 2 ^ (-126 : ℤ) - 2 ^ (-150 : ℤ)

/-- The flags are NX exactly when the result is inexact, with UF exactly when it is tiny too (R136, R137). -/
structure RoundingFlags (mode : RoundMode) (v : ℝ) (r : Bits32) (m : Flags) : Prop where
  nx : m.getLsbD 0 = true ↔ (fval r : ℝ) ≠ v
  uf : m.getLsbD 1 = true ↔ Tiny mode v ∧ (fval r : ℝ) ≠ v
  others : m.extractLsb' 2 3 = 0#3

/-- `(r, m)` is the correctly rounded result of the nonzero exact value `v` with its flags (R130, R134 to R137): on
overflow the result of R135 with OF and NX, else the delivered pattern, with the sign of `v` also when it is a zero. -/
def RoundsTo (mode : RoundMode) (v : ℝ) (r : Bits32) (m : Flags) : Prop :=
  (fsign r = true ↔ v < 0) ∧
  ((Overflows mode v ∧ r = overflowResult mode (fsign r) ∧ m = flagOF ||| flagNX) ∨
   (¬ Overflows mode v ∧ Delivers mode v r ∧ RoundingFlags mode v r m))

/-- `n` is the integer that the exact definition of the mode delivers for `v`: R130 with the integers as the
representable values, as R133 applies it; a tie goes to the even integer under RNE. -/
structure DeliversInt (mode : RoundMode) (v : ℝ) (n : ℤ) : Prop where
  admitted : Admits mode v n
  nearest : ∀ k : ℤ, Admits mode v k → |(n : ℝ) - v| ≤ |(k : ℝ) - v|
  ties : ∀ k : ℤ, k ≠ n → |(k : ℝ) - v| = |(n : ℝ) - v| →
    (mode = .rne → Even n) ∧ (mode = .rmm → |k| < |n|)

/-- `a =f b` (R143): both zeros, or the same pattern. -/
def SameNumber (a b : Bits32) : Prop := (isZero a = true ∧ isZero b = true) ∨ a = b

/-- `a <f b` for two patterns that are no NaN (R143). -/
def Less (a b : Bits32) : Prop :=
  ¬ SameNumber a b ∧
    (a = 0xff800000#32 ∨ b = 0x7f800000#32 ∨ (isFinite a = true ∧ isFinite b = true ∧ fval a < fval b))

/-- The real number a magnitude stands for: `n / d`, or the non-negative square root of `n / d`. -/
def Mag.Denotes : Mag → ℝ → Prop
  | .ratio n d, y => 0 < d ∧ y * d = n
  | .root n d, y => 0 < d ∧ 0 ≤ y ∧ y * y * d = n

/-- The real number an exact result stands for. -/
def Exact.Denotes (e : Exact) (v : ℝ) : Prop := ∃ y : ℝ, e.mag.Denotes y ∧ v = if e.neg then -y else y

end Sys2Proof.Machine
end

