-- ==== Sys2Proof/Certificates/Slice0/Obligations.lean ====
section
/-! DEFINITION. The statements for the provers. Each docstring names the rules of spec/ it formalises. -/

open Sys2Proof Sys2Proof.Machine

/-! ### Encoding (`30_encoding.md`, `41_fcsr_access.md` R171) -/

/-- Decoding an encoded instruction gives it back, with every operand at every value the encoding admits (R81, R88,
R171). -/
def Obligations.DecodeInvertsEncode : Prop :=
  ∀ i : Instr, decode (encode i) = .ok i

/-- Every word that decodes is the encoding of what it decodes to: no bit of a word is dropped (R88, R171). -/
def Obligations.EncodeInvertsDecode : Prop :=
  ∀ (w : Bits32) (i : Instr), decode w = .ok i → encode i = w

/-- The decoder is the opcode map: a word decodes to an instruction of a row exactly when it matches the row's `match`
and `mask` (R88, R90 step (1), R171). -/
def Obligations.DecodeFollowsOpcodeMap : Prop :=
  ∀ w : Bits32,
    (∀ i : Instr, decode w = .ok i → i.row ∈ opcodeTable ∧ w &&& i.row.mask = i.row.pattern) ∧
    (∀ r ∈ opcodeTable, w &&& r.mask = r.pattern → ∃ i : Instr, decode w = .ok i ∧ i.row = r)

/-- A word that matches no row is an unassigned word exactly when its major opcode is one of F's seven, else it is outside
the spec (R90 steps (5) and (6), R91, R95, R96, R326; that an unassigned word traps is the spec's decision D6, assumption
log 11). -/
def Obligations.UnassignedWordsAreRejected : Prop :=
  ∀ w : Bits32, (∀ r ∈ opcodeTable, w &&& r.mask ≠ r.pattern) →
    (opcodeOf w ∈ [0b0000111#7, 0b0100111#7, 0b1000011#7, 0b1000111#7, 0b1001011#7, 0b1001111#7, 0b1010011#7] →
      ∃ why, decode w = .error (.illegal why)) ∧
    (opcodeOf w ∉ [0b0000111#7, 0b0100111#7, 0b1000011#7, 0b1000111#7, 0b1001011#7, 0b1001111#7, 0b1010011#7] →
      decode w = .error .outside)

/-- Words that the spec prints in its examples decode to the instructions it prints beside them (R201, R202, R211, R221,
R241, R255, R281, R173). -/
def Obligations.ExampleWordsDecode : Prop :=
  decode 0x00852087#32 = .ok (.flw 1 10 8) ∧
  decode 0xfe25ae27#32 = .ok (.fsw 2 11 (-4)) ∧
  decode 0x002081d3#32 = .ok (.faddS 3 1 2 (.static .rne)) ∧
  decode 0x18208243#32 = .ok (.fmaddS 4 1 2 3 (.static .rne)) ∧
  decode 0xc0009553#32 = .ok (.fcvtWS 10 1 (.static .rtz)) ∧
  decode 0xe0008553#32 = .ok (.fmvXW 10 1) ∧
  decode 0xe0009553#32 = .ok (.fclassS 10 1) ∧
  decode 0x00302573#32 = .ok (.csrrs 10 0x003 0)

/-! ### The step (`10_state.md` R25, `20_memory.md` R58, R66) -/

/-- Where the fetch succeeds and the word at the pc decodes to `i`, the step is `exec i` (R25). -/
def Obligations.StepRunsDecodedInstruction : Prop :=
  ∀ (s : State) (i : Instr), s.isHalted = false → s.pcVal.toNat % 4 = 0 → memValid4 s.cfg s.pcVal .fetch = true →
    s.storedAt s.pcVal = false →
    decode (s.mem.read (byteAddr s.cfg.xlen s.pcVal 3) ++ s.mem.read (byteAddr s.cfg.xlen s.pcVal 2) ++
      s.mem.read (byteAddr s.cfg.xlen s.pcVal 1) ++ s.mem.read (byteAddr s.cfg.xlen s.pcVal 0)) = .ok i →
    step s = exec i s

/-- Where a step executes no instruction. At a HALT address the run is over (R326(c); which addresses these are is a
parameter, assumption log 12). Else the fetch exceptions in their order (R58, R304); IllegalInstruction for an unassigned word
under F's seven major opcodes (R90 step (5), R301); the refusal, never a fault, of a word outside the spec (R90 step (6),
R326(d), conflict C9; assumption log 11). That an exception ends the run is the spec's decision D11 (assumption log 9). -/
def Obligations.FetchAndDecodeExceptions : Prop :=
  ∀ s : State,
    (s.isHalted = true → step s = .refused (.halted s.pcVal)) ∧
    (s.isHalted = false →
      (s.pcVal.toNat % 4 ≠ 0 → step s = .fault (.instructionAddressMisaligned s.pcVal)) ∧
      (s.pcVal.toNat % 4 = 0 → memValid4 s.cfg s.pcVal .fetch = false →
        step s = .fault (.instructionAccessFault s.pcVal)) ∧
      (s.pcVal.toNat % 4 = 0 → memValid4 s.cfg s.pcVal .fetch = true → s.storedAt s.pcVal = false →
        (∀ why, decode (s.loadWord s.pcVal) = .error (.illegal why) →
          step s = .fault (.illegalInstruction (s.loadWord s.pcVal) s.pcVal)) ∧
        (decode (s.loadWord s.pcVal) = .error .outside →
          step s = .refused (.wordOutsideSpec (s.loadWord s.pcVal) s.pcVal))))

/-- A fault carries the address of the faulting instruction, and the information of R301: the word that was fetched for
IllegalInstruction, whichever of the causes of R302 it had; the pc for the two fetch exceptions (the spec's decision
D11, assumption log 9, 18). -/
def Obligations.FaultCarriesItsInstruction : Prop :=
  ∀ (s : State) (e : Fault), step s = .fault e →
    e.pc = s.pcVal ∧
    (e.cause = 2 → e.info = (s.loadWord s.pcVal).setWidth 64) ∧
    (e.cause ≤ 1 → e.info = s.pcVal)

/-- A byte that an FSW stored is never fetched: the addresses FSW stored to are remembered for the whole run, and a fetch
of a word that holds one of them is refused (R66, the spec's decision D17; the remembering is the model's choice,
assumption log 13). -/
def Obligations.StoredBytesAreNeverExecuted : Prop :=
  (∀ s t : State, step s = .next t → ∀ a ∈ s.stored, a ∈ t.stored) ∧
  (∀ (s t : State) (rs2 : FReg) (rs1 : XReg) (imm : BitVec 12), exec (.fsw rs2 rs1 imm) s = .next t →
    ∀ i < 4, byteAddr s.cfg.xlen (s.effAddr rs1 imm) i ∈ t.stored) ∧
  (∀ s : State, s.isHalted = false → s.pcVal.toNat % 4 = 0 → memValid4 s.cfg s.pcVal .fetch = true →
    (∃ i < 4, byteAddr s.cfg.xlen s.pcVal i ∈ s.stored) → step s = .refused (.fetchOfStoredByte s.pcVal))

/-! ### Invariants of the machine -/

/-- Every step keeps the invariant (R24, R26, R50, R58). -/
def Obligations.StepKeepsInvariant : Prop :=
  ∀ s t : State, s.Inv → step s = .next t → t.Inv

/-- The invariant holds in every launch state (R340, R343). -/
def Obligations.LaunchHasInvariant : Prop :=
  ∀ s : State, s.Launch → s.Inv

/-- The reset state is a launch state and has the invariant; its pc is RESET_PC, `x0` reads 0, nothing is stored and its
parameters are those the model chose (R39; the model's choices: assumption log 1, 4 to 8, 12). -/
def Obligations.ResetIsALaunchState : Prop :=
  State.reset.Launch ∧ State.reset.Inv ∧ State.reset.pc = State.reset.cfg.resetPc ∧ State.reset.readX 0 = 0 ∧
  State.reset.cfg = resetConfig

/-- No step changes a parameter (R9, R35). -/
def Obligations.ParametersAreConstant : Prop :=
  ∀ s t : State, step s = .next t → t.cfg = s.cfg

/-- Every instruction that completes ends with `pc <- pc + 4` modulo 2^XLEN (R26). -/
def Obligations.PcAdvancesByFour : Prop :=
  ∀ (i : Instr) (s t : State), exec i s = .next t →
    t.pc.toNat = (s.pcVal.toNat + 4) % addrSpace s.cfg.xlen

/-- Only a CSR instruction clears a flag or writes `frm` (R28, R29). -/
def Obligations.OnlyCsrInstructionsClearFlagsOrWriteFrm : Prop :=
  ∀ (i : Instr) (s t : State), i.csr? = none → exec i s = .next t →
    t.frm = s.frm ∧ ∀ k, s.fflags.getLsbD k = true → t.fflags.getLsbD k = true

/-- Only FSW changes memory (R59). -/
def Obligations.OnlyFswWritesMemory : Prop :=
  ∀ (i : Instr) (s t : State), (∀ rs2 rs1 imm, i ≠ .fsw rs2 rs1 imm) → exec i s = .next t →
    t.mem = s.mem ∧ t.stored = s.stored

/-! ### Where an instruction completes, traps or is refused -/

/-- An instruction has its effect exactly where nothing of R302, R52, R53, R182 stands against it. -/
def Obligations.ExecCompletesExactly : Prop :=
  ∀ (i : Instr) (s : State), (∃ t, exec i s = .next t) ↔ Completes i s

/-- An instruction with a rounding-mode field raises IllegalInstruction when the field is 101 or 110, or is 111 while
`frm` is 101, 110 or 111, whatever its operands (R92, R93, R131; the exception is the spec's decision D5, assumption
log 10). -/
def Obligations.ReservedRoundingModeTraps : Prop :=
  ∀ (i : Instr) (s : State) (rm : RmField), i.rm? = some rm →
    (rm.bits = 0b101#3 ∨ rm.bits = 0b110#3 ∨
      (rm.bits = 0b111#3 ∧ (s.frm = 0b101#3 ∨ s.frm = 0b110#3 ∨ s.frm = 0b111#3))) →
    exec i s = .fault (.illegalInstruction (encode i) s.pcVal)

/-- The four 64-bit conversions raise IllegalInstruction at XLEN=32 (R94, the spec's decision D7). -/
def Obligations.Rv64OnlyConversionsTrapAtXlen32 : Prop :=
  ∀ (s : State) (rd : BitVec 5) (rs1 : BitVec 5) (rm : RmField), s.cfg.xlen = .rv32 →
    exec (.fcvtLS rd rs1 rm) s = .fault (.illegalInstruction (encode (.fcvtLS rd rs1 rm)) s.pcVal) ∧
    exec (.fcvtLUS rd rs1 rm) s = .fault (.illegalInstruction (encode (.fcvtLUS rd rs1 rm)) s.pcVal) ∧
    exec (.fcvtSL rd rs1 rm) s = .fault (.illegalInstruction (encode (.fcvtSL rd rs1 rm)) s.pcVal) ∧
    exec (.fcvtSLU rd rs1 rm) s = .fault (.illegalInstruction (encode (.fcvtSLU rd rs1 rm)) s.pcVal)

/-- A CSR instruction on any other CSR is refused, never a fault (R182, the spec's decision D9; assumption log 11). -/
def Obligations.OtherCsrNumbersAreRefused : Prop :=
  ∀ (i : Instr) (s : State) (n : CsrNum), i.csr? = some n → n ≠ 0x001#12 → n ≠ 0x002#12 → n ≠ 0x003#12 →
    exec i s = .refused (.csrOutsideSpec n s.pcVal)

/-- The exceptions of FLW and FSW: misaligned under `MISALIGNED_FP = trap` first, whatever `MEM_VALID` says, then the
access fault (R52, R53, R55, R304; the parameter and the order are the spec's decisions D4, D12). -/
def Obligations.LoadStoreExceptions : Prop :=
  ∀ (s : State) (r : FReg) (rs1 : XReg) (imm : BitVec 12),
    ((s.effAddr rs1 imm).toNat % 4 ≠ 0 → s.cfg.misalignedFp = .trap →
      exec (.flw r rs1 imm) s = .fault (.loadAddressMisaligned (s.effAddr rs1 imm) s.pcVal) ∧
      exec (.fsw r rs1 imm) s = .fault (.storeAddressMisaligned (s.effAddr rs1 imm) s.pcVal)) ∧
    ((s.effAddr rs1 imm).toNat % 4 = 0 ∨ s.cfg.misalignedFp = .invisible →
      (memValid4 s.cfg (s.effAddr rs1 imm) .read = false →
        exec (.flw r rs1 imm) s = .fault (.loadAccessFault (s.effAddr rs1 imm) s.pcVal)) ∧
      (memValid4 s.cfg (s.effAddr rs1 imm) .write = false →
        exec (.fsw r rs1 imm) s = .fault (.storeAccessFault (s.effAddr rs1 imm) s.pcVal)))

/-- No pattern in a floating-point register and no value of `fflags` decides whether an instruction faults, or with what
(R327). -/
def Obligations.OperandPatternsNeverFault : Prop :=
  ∀ (i : Instr) (s : State) (f : Vector Bits32 32) (fl : Flags) (e : Fault),
    exec i s = .fault e ↔ exec i { s with f := f, fflags := fl } = .fault e

/-- An instruction that is no CSR instruction and does not select the dynamic mode neither reads nor writes `frm`: with
another `frm` it does the same (R132). -/
def Obligations.StaticInstructionsIgnoreFrm : Prop :=
  ∀ (i : Instr) (s : State) (m : BitVec 3), i.csr? = none → i.rm? ≠ some .dyn →
    match exec i s with
    | .next t => exec i { s with frm := m } = .next { t with frm := m }
    | .fault e => exec i { s with frm := m } = .fault e
    | .refused e => exec i { s with frm := m } = .refused e

/-! ### Load and store (`42_load_store.md`) -/

/-- `ea = (x[rs1] + sext(imm)) mod 2^XLEN`, and byte `i` of the access is at `(ea + i) mod 2^XLEN` (R54, R52). -/
def Obligations.EffectiveAddressWraps : Prop :=
  ∀ (s : State) (rs1 : XReg) (imm : BitVec 12) (i : Nat),
    (((s.effAddr rs1 imm).toNat : ℤ) = (((s.readX rs1).toNat : ℤ) + imm.toInt) % (addrSpace s.cfg.xlen : ℤ)) ∧
    byteAddr s.cfg.xlen (s.effAddr rs1 imm) i = ((s.effAddr rs1 imm).toNat + i) % addrSpace s.cfg.xlen

/-- FLW completes where its access is admitted: `f[rd]` gets the four bytes, little-endian, bit for bit, and nothing else
but the pc changes (R52, R57, R201). -/
def Obligations.FlwLoadsTheWord : Prop :=
  ∀ (s : State) (rd : FReg) (rs1 : XReg) (imm : BitVec 12),
    ((s.effAddr rs1 imm).toNat % 4 = 0 ∨ s.cfg.misalignedFp = .invisible) →
    memValid4 s.cfg (s.effAddr rs1 imm) .read = true →
    ∃ t, exec (.flw rd rs1 imm) s = .next t ∧
      FpEffect s t rd
        (s.mem.read (byteAddr s.cfg.xlen (s.effAddr rs1 imm) 3) ++ s.mem.read (byteAddr s.cfg.xlen (s.effAddr rs1 imm) 2) ++
          s.mem.read (byteAddr s.cfg.xlen (s.effAddr rs1 imm) 1) ++ s.mem.read (byteAddr s.cfg.xlen (s.effAddr rs1 imm) 0))
        0#5

/-- FSW completes where its access is admitted: the four bytes at the effective address get `f[rs2]`, little-endian, and
no other byte, no register and no flag changes (R53, R57, R202). -/
def Obligations.FswStoresTheWord : Prop :=
  ∀ (s : State) (rs2 : FReg) (rs1 : XReg) (imm : BitVec 12), s.mem.wf →
    ((s.effAddr rs1 imm).toNat % 4 = 0 ∨ s.cfg.misalignedFp = .invisible) →
    memValid4 s.cfg (s.effAddr rs1 imm) .write = true →
    ∃ t, exec (.fsw rs2 rs1 imm) s = .next t ∧ StoreEffect s t (s.effAddr rs1 imm) (s.readF rs2)

/-- FSW then FLW at the same address carries the pattern unchanged (R203). -/
def Obligations.StoreThenLoadRoundTrip : Prop :=
  ∀ (s t : State) (rs2 rd : FReg) (rs1 rs1' : XReg) (imm imm' : BitVec 12), s.mem.wf →
    exec (.fsw rs2 rs1 imm) s = .next t → t.effAddr rs1' imm' = s.effAddr rs1 imm →
    memValid4 s.cfg (s.effAddr rs1 imm) .read = true →
    ∃ u, exec (.flw rd rs1' imm') t = .next u ∧ u.readF rd = s.readF rs2

/-! ### Arithmetic (`43_compute.md`, `40_fp_numerics.md`) -/

/-- FADD.S, FSUB.S, FMUL.S, FDIV.S, FSQRT.S complete under every legal effective mode: `f[rd]` gets the result of the core
function on the old operands, its flags accrue, nothing else but the pc changes (R210 to R215). -/
def Obligations.ArithmeticCompletes : Prop :=
  ∀ (s : State) (rd rs1 rs2 : FReg) (rm : RmField) (mode : RoundMode), rmEff rm s.frm = some mode →
    (∃ t, exec (.faddS rd rs1 rs2 rm) s = .next t ∧
      FpEffect s t rd (faddCore mode (s.readF rs1) (s.readF rs2)).1 (faddCore mode (s.readF rs1) (s.readF rs2)).2) ∧
    (∃ t, exec (.fsubS rd rs1 rs2 rm) s = .next t ∧
      FpEffect s t rd (fsubCore mode (s.readF rs1) (s.readF rs2)).1 (fsubCore mode (s.readF rs1) (s.readF rs2)).2) ∧
    (∃ t, exec (.fmulS rd rs1 rs2 rm) s = .next t ∧
      FpEffect s t rd (fmulCore mode (s.readF rs1) (s.readF rs2)).1 (fmulCore mode (s.readF rs1) (s.readF rs2)).2) ∧
    (∃ t, exec (.fdivS rd rs1 rs2 rm) s = .next t ∧
      FpEffect s t rd (fdivCore mode (s.readF rs1) (s.readF rs2)).1 (fdivCore mode (s.readF rs1) (s.readF rs2)).2) ∧
    (∃ t, exec (.fsqrtS rd rs1 rm) s = .next t ∧
      FpEffect s t rd (fsqrtCore mode (s.readF rs1)).1 (fsqrtCore mode (s.readF rs1)).2)

/-- The four fused multiply-adds complete under every legal effective mode, with the sign choices of R226 (R220 to
R226). -/
def Obligations.FusedMultiplyAddCompletes : Prop :=
  ∀ (s : State) (rd rs1 rs2 rs3 : FReg) (rm : RmField) (mode : RoundMode), rmEff rm s.frm = some mode →
    (∃ t, exec (.fmaddS rd rs1 rs2 rs3 rm) s = .next t ∧
      FpEffect s t rd (fmaCore mode (s.readF rs1) (s.readF rs2) (s.readF rs3) false false).1
        (fmaCore mode (s.readF rs1) (s.readF rs2) (s.readF rs3) false false).2) ∧
    (∃ t, exec (.fmsubS rd rs1 rs2 rs3 rm) s = .next t ∧
      FpEffect s t rd (fmaCore mode (s.readF rs1) (s.readF rs2) (s.readF rs3) false true).1
        (fmaCore mode (s.readF rs1) (s.readF rs2) (s.readF rs3) false true).2) ∧
    (∃ t, exec (.fnmsubS rd rs1 rs2 rs3 rm) s = .next t ∧
      FpEffect s t rd (fmaCore mode (s.readF rs1) (s.readF rs2) (s.readF rs3) true false).1
        (fmaCore mode (s.readF rs1) (s.readF rs2) (s.readF rs3) true false).2) ∧
    (∃ t, exec (.fnmaddS rd rs1 rs2 rs3 rm) s = .next t ∧
      FpEffect s t rd (fmaCore mode (s.readF rs1) (s.readF rs2) (s.readF rs3) true true).1
        (fmaCore mode (s.readF rs1) (s.readF rs2) (s.readF rs3) true true).2)

/-- The effective mode: the static mode of the field, or under DYN the mode in `frm` (R130, R131). -/
def Obligations.EffectiveModeIsStaticOrFrm : Prop :=
  ∀ (rm : RmField) (frm : BitVec 3) (mode : RoundMode),
    rmEff rm frm = some mode ↔ rm.bits = mode.bits ∨ (rm.bits = 0b111#3 ∧ frm = mode.bits)

/-- `round_int` (R133): the rounding of a non-negative real to an integer in each mode, for the reals that the model's exact
magnitudes denote (the model's representation, assumption log 19). -/
def Obligations.RoundIntFollowsRule : Prop :=
  ∀ (mode : RoundMode) (s : Bool) (m : Mag) (y : ℝ), m.Denotes y →
    (y - ⌊y⌋₊ = 0 → roundInt mode s m = ⌊y⌋₊) ∧
    (y - ⌊y⌋₊ ≠ 0 →
      match mode with
      | .rtz => roundInt mode s m = ⌊y⌋₊
      | .rdn => roundInt mode s m = if s then ⌊y⌋₊ + 1 else ⌊y⌋₊
      | .rup => roundInt mode s m = if s then ⌊y⌋₊ else ⌊y⌋₊ + 1
      | .rne =>
        (1 / 2 < y - ⌊y⌋₊ → roundInt mode s m = ⌊y⌋₊ + 1) ∧
        (y - ⌊y⌋₊ < 1 / 2 → roundInt mode s m = ⌊y⌋₊) ∧
        (y - ⌊y⌋₊ = 1 / 2 → roundInt mode s m = if Even ⌊y⌋₊ then ⌊y⌋₊ else ⌊y⌋₊ + 1)
      | .rmm =>
        (1 / 2 ≤ y - ⌊y⌋₊ → roundInt mode s m = ⌊y⌋₊ + 1) ∧
        (y - ⌊y⌋₊ < 1 / 2 → roundInt mode s m = ⌊y⌋₊))

/-- `round_f32` delivers the correctly rounded binary32 result of every nonzero exact real, with its overflow, underflow
and inexact flags, in each of the five modes (R130, R134 to R137). -/
def Obligations.RoundF32IsCorrectlyRounded : Prop :=
  ∀ (mode : RoundMode) (e : Exact) (zs : Bool) (v : ℝ), e.Denotes v → v ≠ 0 →
    RoundsTo mode v (roundF32 mode e zs).1 (roundF32 mode e zs).2

/-- The basic operations on finite operands with a nonzero exact result deliver that result correctly rounded, once
(R120, R129, R210 to R215). -/
def Obligations.ArithmeticIsCorrectlyRounded : Prop :=
  ∀ (mode : RoundMode) (a b : Bits32), isFinite a = true → isFinite b = true →
    ((fval a : ℝ) + fval b ≠ 0 → RoundsTo mode (fval a + fval b) (faddCore mode a b).1 (faddCore mode a b).2) ∧
    ((fval a : ℝ) - fval b ≠ 0 → RoundsTo mode (fval a - fval b) (fsubCore mode a b).1 (fsubCore mode a b).2) ∧
    ((fval a : ℝ) * fval b ≠ 0 → RoundsTo mode (fval a * fval b) (fmulCore mode a b).1 (fmulCore mode a b).2) ∧
    (fval a ≠ 0 → fval b ≠ 0 → RoundsTo mode ((fval a : ℝ) / fval b) (fdivCore mode a b).1 (fdivCore mode a b).2) ∧
    (0 < fval a → RoundsTo mode (Real.sqrt (fval a)) (fsqrtCore mode a).1 (fsqrtCore mode a).2)

/-- The four fused multiply-adds on finite operands with a nonzero exact result round the exact `±(a b) ± c` once
(R220 to R226). -/
def Obligations.FusedMultiplyAddIsCorrectlyRounded : Prop :=
  ∀ (mode : RoundMode) (a b c : Bits32), isFinite a = true → isFinite b = true → isFinite c = true →
    ((fval a : ℝ) * fval b + fval c ≠ 0 →
      RoundsTo mode (fval a * fval b + fval c) (fmaCore mode a b c false false).1 (fmaCore mode a b c false false).2) ∧
    ((fval a : ℝ) * fval b - fval c ≠ 0 →
      RoundsTo mode (fval a * fval b - fval c) (fmaCore mode a b c false true).1 (fmaCore mode a b c false true).2) ∧
    (-((fval a : ℝ) * fval b) + fval c ≠ 0 →
      RoundsTo mode (-(fval a * fval b) + fval c) (fmaCore mode a b c true false).1 (fmaCore mode a b c true false).2) ∧
    (-((fval a : ℝ) * fval b) - fval c ≠ 0 →
      RoundsTo mode (-(fval a * fval b) - fval c) (fmaCore mode a b c true true).1 (fmaCore mode a b c true true).2)

/-- The result of an overflow, by mode and sign (R135, the table). -/
def Obligations.OverflowTable : Prop :=
  overflowResult .rne false = 0x7f800000#32 ∧ overflowResult .rne true = 0xff800000#32 ∧
  overflowResult .rmm false = 0x7f800000#32 ∧ overflowResult .rmm true = 0xff800000#32 ∧
  overflowResult .rtz false = 0x7f7fffff#32 ∧ overflowResult .rtz true = 0xff7fffff#32 ∧
  overflowResult .rdn false = 0x7f7fffff#32 ∧ overflowResult .rdn true = 0xff800000#32 ∧
  overflowResult .rup false = 0x7f800000#32 ∧ overflowResult .rup true = 0xff7fffff#32

/-- NaN operands of the nine computational instructions: the canonical NaN, NV exactly for a signaling operand or for
`inf x 0` in a fused multiply-add (R127). -/
def Obligations.NanOperandsGiveCanonicalNan : Prop :=
  ∀ (mode : RoundMode) (a b c : Bits32) (np nc : Bool),
    (isNaN a = true ∨ isNaN b = true →
      ∀ r ∈ [faddCore mode a b, fsubCore mode a b, fmulCore mode a b, fdivCore mode a b],
        r.1 = 0x7fc00000#32 ∧ r.2 = if isSNaN a || isSNaN b then 0b10000#5 else 0#5) ∧
    (isNaN a = true →
      (fsqrtCore mode a).1 = 0x7fc00000#32 ∧ (fsqrtCore mode a).2 = if isSNaN a then 0b10000#5 else 0#5) ∧
    (isNaN a = true ∨ isNaN b = true ∨ isNaN c = true →
      (fmaCore mode a b c np nc).1 = 0x7fc00000#32 ∧
      (fmaCore mode a b c np nc).2 =
        if isSNaN a || isSNaN b || isSNaN c || (isInf a && isZero b) || (isZero a && isInf b) then 0b10000#5 else 0#5)

/-- A result of the arithmetic that is a NaN is the canonical NaN (R126). -/
def Obligations.NanResultsAreCanonical : Prop :=
  ∀ (mode : RoundMode) (a b c : Bits32) (np nc : Bool),
    ∀ r ∈ [(faddCore mode a b).1, (fsubCore mode a b).1, (fmulCore mode a b).1, (fdivCore mode a b).1,
        (fsqrtCore mode a).1, (fmaCore mode a b c np nc).1, (fminCore a b).1, (fmaxCore a b).1],
      isNaN r = true → r = 0x7fc00000#32

/-- The invalid operations on operands that are no NaN: the canonical NaN with NV alone (R141 items (b) to (g)). -/
def Obligations.InvalidOperationsGiveNan : Prop :=
  ∀ (mode : RoundMode) (a b c : Bits32) (np nc : Bool),
    (isInf a = true → isInf b = true → fsign a ≠ fsign b → faddCore mode a b = (0x7fc00000#32, 0b10000#5)) ∧
    (isInf a = true → isInf b = true → fsign a = fsign b → fsubCore mode a b = (0x7fc00000#32, 0b10000#5)) ∧
    ((isZero a = true ∧ isInf b = true) ∨ (isInf a = true ∧ isZero b = true) →
      fmulCore mode a b = (0x7fc00000#32, 0b10000#5)) ∧
    ((isZero a = true ∧ isZero b = true) ∨ (isInf a = true ∧ isInf b = true) →
      fdivCore mode a b = (0x7fc00000#32, 0b10000#5)) ∧
    (fsign a = true → isZero a = false → isNaN a = false → fsqrtCore mode a = (0x7fc00000#32, 0b10000#5)) ∧
    ((isZero a = true ∧ isInf b = true) ∨ (isInf a = true ∧ isZero b = true) →
      fmaCore mode a b c np nc = (0x7fc00000#32, 0b10000#5)) ∧
    (isInf a = true ∨ isInf b = true → isZero a = false → isZero b = false → isNaN a = false → isNaN b = false →
      isInf c = true → (fsign c ^^ nc) ≠ ((fsign a ^^ fsign b) ^^ np) →
      fmaCore mode a b c np nc = (0x7fc00000#32, 0b10000#5))

/-- Arithmetic on infinities, with no NaN operand and no invalid case of R141, is exact and sets no flag (R140): sums and
differences (R212), products, quotients and the root, and the fused multiply-adds, where an infinite product gives the
infinity of the product's sign and an infinite addend of a finite product that of the addend's sign, each after the sign
change of its form (R139, R220). -/
def Obligations.InfinityArithmeticIsExact : Prop :=
  ∀ (mode : RoundMode) (a b c : Bits32) (np nc : Bool),
    (isInf a = true → isNaN b = false → (isInf b = true → fsign a = fsign b) →
      faddCore mode a b = (a, 0#5) ∧ faddCore mode b a = (a, 0#5)) ∧
    (isInf a = true → isNaN b = false → (isInf b = true → fsign a ≠ fsign b) →
      fsubCore mode a b = (a, 0#5) ∧ fsubCore mode b a = (infOf (!fsign a), 0#5)) ∧
    (isInf a = true → isNaN b = false → isZero b = false →
      fmulCore mode a b = (infOf (fsign a ^^ fsign b), 0#5) ∧ fmulCore mode b a = (infOf (fsign a ^^ fsign b), 0#5)) ∧
    (isInf a = true → isFinite b = true → fdivCore mode a b = (infOf (fsign a ^^ fsign b), 0#5)) ∧
    (isFinite a = true → isInf b = true → fdivCore mode a b = (zeroOf (fsign a ^^ fsign b), 0#5)) ∧
    fsqrtCore mode 0x7f800000#32 = (0x7f800000#32, 0#5) ∧
    (isInf a = true → isNaN b = false → isZero b = false → isNaN c = false →
      (isInf c = true → (fsign c ^^ nc) = ((fsign a ^^ fsign b) ^^ np)) →
      fmaCore mode a b c np nc = (infOf ((fsign a ^^ fsign b) ^^ np), 0#5) ∧
      fmaCore mode b a c np nc = (infOf ((fsign a ^^ fsign b) ^^ np), 0#5)) ∧
    (isFinite a = true → isFinite b = true → isInf c = true →
      fmaCore mode a b c np nc = (infOf (fsign c ^^ nc), 0#5))

/-- A difference is the sum with the subtrahend's sign bit inverted, whatever the operands (R212). The sign of an exact zero
result: sums, differences and fused sums (R138), products, quotients and roots (R139). -/
def Obligations.ExactZeroResults : Prop :=
  (∀ (mode : RoundMode) (a b : Bits32), fsubCore mode a b = faddCore mode a (b ^^^ 0x80000000#32)) ∧
  ∀ (mode : RoundMode) (a b c : Bits32) (np nc : Bool),
    isFinite a = true → isFinite b = true → isFinite c = true →
    (fval a + fval b = 0 →
      faddCore mode a b =
        (if isZero a && isZero b && (fsign a == fsign b) then zeroOf (fsign a) else zeroOf (mode == .rdn), 0#5)) ∧
    (fval a - fval b = 0 →
      fsubCore mode a b =
        (if isZero a && isZero b && (fsign a != fsign b) then zeroOf (fsign a) else zeroOf (mode == .rdn), 0#5)) ∧
    (fval a * fval b = 0 → fmulCore mode a b = (zeroOf (fsign a ^^ fsign b), 0#5)) ∧
    (fval a = 0 → fval b ≠ 0 → fdivCore mode a b = (zeroOf (fsign a ^^ fsign b), 0#5)) ∧
    (fval a = 0 → fsqrtCore mode a = (a, 0#5)) ∧
    ((if np then -(fval a * fval b) else fval a * fval b) + (if nc then -fval c else fval c) = 0 →
      fmaCore mode a b c np nc =
        (if (isZero a || isZero b) && isZero c && ((fsign a ^^ fsign b) ^^ np) == (fsign c ^^ nc)
         then zeroOf (fsign c ^^ nc) else zeroOf (mode == .rdn), 0#5))

/-- Divide by zero (R142): an infinity with the sign of R139 and DZ alone for a finite nonzero dividend; `0/0` is invalid,
`inf/0` sets no flag; no instruction but FDIV.S sets DZ. -/
def Obligations.DivideByZero : Prop :=
  (∀ (mode : RoundMode) (a b : Bits32), isZero b = true →
    (isFinite a = true → isZero a = false → fdivCore mode a b = (infOf (fsign a ^^ fsign b), 0b01000#5)) ∧
    (isZero a = true → fdivCore mode a b = (0x7fc00000#32, 0b10000#5)) ∧
    (isInf a = true → fdivCore mode a b = (infOf (fsign a ^^ fsign b), 0#5))) ∧
  (∀ (i : Instr) (s t : State), i.csr? = none → (∀ rd rs1 rs2 rm, i ≠ .fdivS rd rs1 rs2 rm) →
    exec i s = .next t → t.fflags.getLsbD 3 = s.fflags.getLsbD 3)

/-- A square root never lies half-way between two binary32 numbers, which the spec derives (R215): every other binary32
number is strictly farther from the exact root of a positive number than the one that RNE delivers. So RNE and RMM give the
same result and flags on every operand. -/
def Obligations.SquareRootNeverTies : Prop :=
  ∀ a : Bits32,
    (isFinite a = true → 0 < fval a → ∀ p : Bits32, isFinite p = true → fval p ≠ fval (fsqrtCore .rne a).1 →
      |(fval (fsqrtCore .rne a).1 : ℝ) - Real.sqrt (fval a)| < |(fval p : ℝ) - Real.sqrt (fval a)|) ∧
    fsqrtCore .rne a = fsqrtCore .rmm a

/-- Which flags each instruction can yield (R150): in particular a sum never underflows, a root neither overflows nor
underflows. -/
def Obligations.FlagsByInstruction : Prop :=
  ∀ (mode : RoundMode) (a b c : Bits32) (np nc : Bool),
    (faddCore mode a b).2 ∈ [0#5, flagNV, flagNX, flagOF ||| flagNX] ∧
    (fsubCore mode a b).2 ∈ [0#5, flagNV, flagNX, flagOF ||| flagNX] ∧
    (fmulCore mode a b).2 ∈ [0#5, flagNV, flagNX, flagUF ||| flagNX, flagOF ||| flagNX] ∧
    (fdivCore mode a b).2 ∈ [0#5, flagNV, flagDZ, flagNX, flagUF ||| flagNX, flagOF ||| flagNX] ∧
    (fsqrtCore mode a).2 ∈ [0#5, flagNV, flagNX] ∧
    (fmaCore mode a b c np nc).2 ∈ [0#5, flagNV, flagNX, flagUF ||| flagNX, flagOF ||| flagNX] ∧
    (fminCore a b).2 = (if isSNaN a || isSNaN b then flagNV else 0#5) ∧
    (fmaxCore a b).2 = (if isSNaN a || isSNaN b then flagNV else 0#5) ∧
    (∀ w signed, (fcvtIntCore mode a w signed).2 ∈ [0#5, flagNV, flagNX]) ∧
    (∀ n : ℤ, |n| ≤ 2 ^ 64 → (fcvtFloatCore mode n).2 ∈ [0#5, flagNX])

/-- The flag combinations one instruction can add, a list the spec derives (R151). -/
def Obligations.FlagCombinations : Prop :=
  ∀ (i : Instr) (s t : State), i.csr? = none → exec i s = .next t →
    ∃ m ∈ [0b00000#5, 0b00001#5, 0b00011#5, 0b00101#5, 0b01000#5, 0b10000#5], t.fflags = s.fflags ||| m

/-! ### Minimum and maximum (R216 to R218) -/

/-- FMIN.S and FMAX.S complete in every state, with their core functions' results (R217, R218). -/
def Obligations.MinMaxCompletes : Prop :=
  ∀ (s : State) (rd rs1 rs2 : FReg),
    (∃ t, exec (.fminS rd rs1 rs2) s = .next t ∧
      FpEffect s t rd (fminCore (s.readF rs1) (s.readF rs2)).1 (fminCore (s.readF rs1) (s.readF rs2)).2) ∧
    (∃ t, exec (.fmaxS rd rs1 rs2) s = .next t ∧
      FpEffect s t rd (fmaxCore (s.readF rs1) (s.readF rs2)).1 (fmaxCore (s.readF rs1) (s.readF rs2)).2)

/-- The minimum and the maximum number: one of the operands, the smaller or the larger, `-0` below `+0`; the other operand
when one is a NaN; the canonical NaN when both are; NV exactly for a signaling operand (R216). -/
def Obligations.MinMaxSelectTheNumber : Prop :=
  ∀ a b : Bits32,
    (isNaN a = false → isNaN b = false →
      ((fminCore a b).1 = a ∨ (fminCore a b).1 = b) ∧ ((fmaxCore a b).1 = a ∨ (fmaxCore a b).1 = b) ∧
      ¬ Less a (fminCore a b).1 ∧ ¬ Less b (fminCore a b).1 ∧ ¬ Less (fmaxCore a b).1 a ∧ ¬ Less (fmaxCore a b).1 b ∧
      (isZero a = true → isZero b = true →
        fsign (fminCore a b).1 = (fsign a || fsign b) ∧ fsign (fmaxCore a b).1 = (fsign a && fsign b))) ∧
    (isNaN a = true → isNaN b = false → (fminCore a b).1 = b ∧ (fmaxCore a b).1 = b) ∧
    (isNaN a = false → isNaN b = true → (fminCore a b).1 = a ∧ (fmaxCore a b).1 = a) ∧
    (isNaN a = true → isNaN b = true → (fminCore a b).1 = 0x7fc00000#32 ∧ (fmaxCore a b).1 = 0x7fc00000#32) ∧
    (fminCore a b).2 = (if isSNaN a || isSNaN b then 0b10000#5 else 0#5) ∧
    (fmaxCore a b).2 = (if isSNaN a || isSNaN b then 0b10000#5 else 0#5)

/-! ### Conversions, sign injection, moves (`44_convert_move.md`) -/

/-- The float-to-integer conversions complete under every legal effective mode, the 64-bit ones at XLEN=64: `x[rd]` gets
the integer of the core function, a 32-bit one sign-extended to XLEN also in the unsigned form (R241 to R245). -/
def Obligations.FloatToIntCompletes : Prop :=
  ∀ (s : State) (rd : XReg) (rs1 : FReg) (rm : RmField) (mode : RoundMode), rmEff rm s.frm = some mode →
    (∃ t, exec (.fcvtWS rd rs1 rm) s = .next t ∧
      IntEffect s t rd (sextXlen s.cfg.xlen (BitVec.ofInt 32 (fcvtIntCore mode (s.readF rs1) 32 true).1))
        (fcvtIntCore mode (s.readF rs1) 32 true).2) ∧
    (∃ t, exec (.fcvtWUS rd rs1 rm) s = .next t ∧
      IntEffect s t rd (sextXlen s.cfg.xlen (BitVec.ofInt 32 (fcvtIntCore mode (s.readF rs1) 32 false).1))
        (fcvtIntCore mode (s.readF rs1) 32 false).2) ∧
    (s.cfg.xlen = .rv64 →
      (∃ t, exec (.fcvtLS rd rs1 rm) s = .next t ∧
        IntEffect s t rd (BitVec.ofInt 64 (fcvtIntCore mode (s.readF rs1) 64 true).1)
          (fcvtIntCore mode (s.readF rs1) 64 true).2) ∧
      (∃ t, exec (.fcvtLUS rd rs1 rm) s = .next t ∧
        IntEffect s t rd (BitVec.ofInt 64 (fcvtIntCore mode (s.readF rs1) 64 false).1)
          (fcvtIntCore mode (s.readF rs1) 64 false).2))

/-- The float-to-integer table (R245): NaN and `+inf` give the largest integer, `-inf` the smallest, with NV; a finite
operand the integer its mode delivers, clipped to the range with NV, else with NX exactly when it was inexact. -/
def Obligations.FloatToIntRoundsAndSaturates : Prop :=
  ∀ (mode : RoundMode) (a : Bits32) (w : Nat) (signed : Bool), w = 32 ∨ w = 64 →
    ∀ lo hi : ℤ, lo = (if signed then -2 ^ (w - 1) else 0) → hi = (if signed then 2 ^ (w - 1) - 1 else 2 ^ w - 1) →
      (isNaN a = true → fcvtIntCore mode a w signed = (hi, 0b10000#5)) ∧
      (a = 0x7f800000#32 → fcvtIntCore mode a w signed = (hi, 0b10000#5)) ∧
      (a = 0xff800000#32 → fcvtIntCore mode a w signed = (lo, 0b10000#5)) ∧
      (isFinite a = true → ∃ n : ℤ, DeliversInt mode (fval a) n ∧
        fcvtIntCore mode a w signed =
          if n < lo then (lo, 0b10000#5) else if hi < n then (hi, 0b10000#5)
          else (n, if (n : ℚ) = fval a then 0#5 else 0b00001#5))

/-- The integer-to-float conversions complete under every legal effective mode, the 64-bit ones at XLEN=64: the integer is
read from the low 32 bits or from all 64, signed or unsigned (R246 to R250). -/
def Obligations.IntToFloatCompletes : Prop :=
  ∀ (s : State) (rd : FReg) (rs1 : XReg) (rm : RmField) (mode : RoundMode), rmEff rm s.frm = some mode →
    (∃ t, exec (.fcvtSW rd rs1 rm) s = .next t ∧
      FpEffect s t rd (fcvtFloatCore mode ((s.readX rs1).extractLsb' 0 32).toInt).1
        (fcvtFloatCore mode ((s.readX rs1).extractLsb' 0 32).toInt).2) ∧
    (∃ t, exec (.fcvtSWU rd rs1 rm) s = .next t ∧
      FpEffect s t rd (fcvtFloatCore mode (((s.readX rs1).extractLsb' 0 32).toNat : ℤ)).1
        (fcvtFloatCore mode (((s.readX rs1).extractLsb' 0 32).toNat : ℤ)).2) ∧
    (s.cfg.xlen = .rv64 →
      (∃ t, exec (.fcvtSL rd rs1 rm) s = .next t ∧
        FpEffect s t rd (fcvtFloatCore mode (s.readX rs1).toInt).1 (fcvtFloatCore mode (s.readX rs1).toInt).2) ∧
      (∃ t, exec (.fcvtSLU rd rs1 rm) s = .next t ∧
        FpEffect s t rd (fcvtFloatCore mode ((s.readX rs1).toNat : ℤ)).1
          (fcvtFloatCore mode ((s.readX rs1).toNat : ℤ)).2))

/-- Integer to float (R250): zero gives `+0`, every other integer is rounded once, exactly and without a flag up to
2^24 in magnitude. -/
def Obligations.IntToFloatIsCorrectlyRounded : Prop :=
  ∀ (mode : RoundMode) (n : ℤ),
    (n = 0 → fcvtFloatCore mode n = (0#32, 0#5)) ∧
    (n ≠ 0 → RoundsTo mode (n : ℝ) (fcvtFloatCore mode n).1 (fcvtFloatCore mode n).2) ∧
    (|n| ≤ 2 ^ 24 → fval (fcvtFloatCore mode n).1 = n ∧ (fcvtFloatCore mode n).2 = 0#5)

/-- FSGNJ.S, FSGNJN.S, FSGNJX.S complete in every state: all bits but bit 31 from `rs1`, bit 31 from `rs2`, its opposite,
or the exclusive or of both; no flag, NaNs included (R251 to R254). -/
def Obligations.SignInjectionMovesBits : Prop :=
  ∀ (s : State) (rd rs1 rs2 : FReg),
    (∃ t v, exec (.fsgnjS rd rs1 rs2) s = .next t ∧ FpEffect s t rd v 0#5 ∧
      (∀ k < 31, v.getLsbD k = (s.readF rs1).getLsbD k) ∧ v.getLsbD 31 = (s.readF rs2).getLsbD 31) ∧
    (∃ t v, exec (.fsgnjnS rd rs1 rs2) s = .next t ∧ FpEffect s t rd v 0#5 ∧
      (∀ k < 31, v.getLsbD k = (s.readF rs1).getLsbD k) ∧ v.getLsbD 31 = !(s.readF rs2).getLsbD 31) ∧
    (∃ t v, exec (.fsgnjxS rd rs1 rs2) s = .next t ∧ FpEffect s t rd v 0#5 ∧
      (∀ k < 31, v.getLsbD k = (s.readF rs1).getLsbD k) ∧
      v.getLsbD 31 = ((s.readF rs1).getLsbD 31 ^^ (s.readF rs2).getLsbD 31))

/-- FMV.X.W and FMV.W.X complete in every state and move the 32 bits unmodified; at XLEN=64 the higher bits of `x[rd]`
are copies of the sign bit (R255, R256). -/
def Obligations.MovesKeepTheBits : Prop :=
  ∀ (s : State) (xr : XReg) (fr : FReg),
    (∃ t, exec (.fmvXW xr fr) s = .next t ∧
      IntEffect s t xr
        (match s.cfg.xlen with
         | .rv32 => (s.readF fr).setWidth 64
         | .rv64 => (s.readF fr).signExtend 64) 0#5) ∧
    (∃ t, exec (.fmvWX fr xr) s = .next t ∧ FpEffect s t fr ((s.readX xr).extractLsb' 0 32) 0#5)

/-- An integer destination `x0` discards the value and nothing else: the integer registers stay, and the flags are those
of any other destination (R240, the spec's decision D23). -/
def Obligations.DestinationX0StillAccruesFlags : Prop :=
  ∀ (s t u : State) (rd : XReg) (a b : FReg) (rm : RmField),
    ∀ p ∈ [(Instr.fcvtWS 0 a rm, Instr.fcvtWS rd a rm), (.fcvtWUS 0 a rm, .fcvtWUS rd a rm),
        (.fcvtLS 0 a rm, .fcvtLS rd a rm), (.fcvtLUS 0 a rm, .fcvtLUS rd a rm), (.fmvXW 0 a, .fmvXW rd a),
        (.feqS 0 a b, .feqS rd a b), (.fltS 0 a b, .fltS rd a b), (.fleS 0 a b, .fleS rd a b),
        (.fclassS 0 a, .fclassS rd a)],
      exec p.1 s = .next t → exec p.2 s = .next u → (∀ r, t.readX r = s.readX r) ∧ t.fflags = u.fflags

/-! ### Comparisons and classification (`45_compare.md`, `46_classify.md`) -/

/-- FEQ.S, FLT.S, FLE.S complete in every state: 1 when the relation of R143 holds, 0 otherwise and with a NaN operand;
NV for a signaling NaN, for FLT.S and FLE.S for any NaN (R270 to R274). -/
def Obligations.CompareWritesTheRelation : Prop :=
  ∀ (s : State) (rd : XReg) (rs1 rs2 : FReg) (a b : Bits32), a = s.readF rs1 → b = s.readF rs2 →
    (∃ t v, exec (.feqS rd rs1 rs2) s = .next t ∧
      IntEffect s t rd v (if isSNaN a || isSNaN b then 0b10000#5 else 0#5) ∧
      (v = 1 ∨ v = 0) ∧ (v = 1 ↔ isNaN a = false ∧ isNaN b = false ∧ SameNumber a b)) ∧
    (∃ t v, exec (.fltS rd rs1 rs2) s = .next t ∧
      IntEffect s t rd v (if isNaN a || isNaN b then 0b10000#5 else 0#5) ∧
      (v = 1 ∨ v = 0) ∧ (v = 1 ↔ isNaN a = false ∧ isNaN b = false ∧ Less a b)) ∧
    (∃ t v, exec (.fleS rd rs1 rs2) s = .next t ∧
      IntEffect s t rd v (if isNaN a || isNaN b then 0b10000#5 else 0#5) ∧
      (v = 1 ∨ v = 0) ∧ (v = 1 ↔ isNaN a = false ∧ isNaN b = false ∧ (Less a b ∨ SameNumber a b)))

/-- The relations among the three results, which the spec derives (R275) and which rest on the order of R143. -/
def Obligations.CompareResultsAreATrichotomy : Prop :=
  ∀ a b : Bits32,
    (isNaN a = false → isNaN b = false →
      (fleCore a b).1 = ((fltCore a b).1 || (feqCore a b).1) ∧
      (fleCore a b).1 = !(fltCore b a).1 ∧
      [(fltCore a b).1, (feqCore a b).1, (fltCore b a).1].count true = 1) ∧
    (isNaN a = true ∨ isNaN b = true →
      (fleCore a b).1 = false ∧ (fltCore a b).1 = false ∧ (feqCore a b).1 = false)

/-- FCLASS.S completes in every state and writes the mask of the table (R280, R281); no flag. -/
def Obligations.ClassifyWritesTheMask : Prop :=
  ∀ (s : State) (rd : XReg) (rs1 : FReg) (a : Bits32), a = s.readF rs1 →
    ∃ t, exec (.fclassS rd rs1) s = .next t ∧
      IntEffect s t rd
        (if a = 0xff800000#32 then 0x001
         else if isNormal a && fsign a then 0x002
         else if isSubnormal a && fsign a then 0x004
         else if a = 0x80000000#32 then 0x008
         else if a = 0x00000000#32 then 0x010
         else if isSubnormal a then 0x020
         else if isNormal a then 0x040
         else if a = 0x7f800000#32 then 0x080
         else if isSNaN a then 0x100
         else 0x200) 0#5

/-- Exactly one bit of the mask is set (R280), because the classes of R122 exclude each other and exhaust the patterns. -/
def Obligations.ClassifySetsExactlyOneBit : Prop :=
  ∀ a : Bits32,
    (∃ k < 10, (fclassMask a).getLsbD k = true ∧ ∀ j < 10, (fclassMask a).getLsbD j = true → j = k) ∧
    [isZero a, isSubnormal a, isNormal a, isInf a, isSNaN a, isQNaN a].count true = 1

/-! ### CSR access (`41_fcsr_access.md`) -/

/-- CSRRW, CSRRS, CSRRC complete on the three CSRs: `x[rd]` gets the old value zero-extended, the view's fields are
written, their bits set, or their bits cleared, bits above the view ignored (R30, R31, R170 to R174). With `rs1 = x0` the
set and clear forms change nothing. -/
def Obligations.CsrRegisterFormsComplete : Prop :=
  ∀ (s : State) (rd rs1 : XReg) (w : Word), w = s.readX rs1 →
    (∃ t, exec (.csrrw rd 0x001 rs1) s = .next t ∧
      CsrEffect s t rd (s.fflags.setWidth 64) s.frm (w.extractLsb' 0 5)) ∧
    (∃ t, exec (.csrrw rd 0x002 rs1) s = .next t ∧
      CsrEffect s t rd (s.frm.setWidth 64) (w.extractLsb' 0 3) s.fflags) ∧
    (∃ t, exec (.csrrw rd 0x003 rs1) s = .next t ∧
      CsrEffect s t rd ((s.frm ++ s.fflags).setWidth 64) (w.extractLsb' 5 3) (w.extractLsb' 0 5)) ∧
    (∃ t, exec (.csrrs rd 0x001 rs1) s = .next t ∧
      CsrEffect s t rd (s.fflags.setWidth 64) s.frm (s.fflags ||| w.extractLsb' 0 5)) ∧
    (∃ t, exec (.csrrs rd 0x002 rs1) s = .next t ∧
      CsrEffect s t rd (s.frm.setWidth 64) (s.frm ||| w.extractLsb' 0 3) s.fflags) ∧
    (∃ t, exec (.csrrs rd 0x003 rs1) s = .next t ∧
      CsrEffect s t rd ((s.frm ++ s.fflags).setWidth 64) (s.frm ||| w.extractLsb' 5 3) (s.fflags ||| w.extractLsb' 0 5)) ∧
    (∃ t, exec (.csrrc rd 0x001 rs1) s = .next t ∧
      CsrEffect s t rd (s.fflags.setWidth 64) s.frm (s.fflags &&& ~~~w.extractLsb' 0 5)) ∧
    (∃ t, exec (.csrrc rd 0x002 rs1) s = .next t ∧
      CsrEffect s t rd (s.frm.setWidth 64) (s.frm &&& ~~~w.extractLsb' 0 3) s.fflags) ∧
    (∃ t, exec (.csrrc rd 0x003 rs1) s = .next t ∧
      CsrEffect s t rd ((s.frm ++ s.fflags).setWidth 64) (s.frm &&& ~~~w.extractLsb' 5 3)
        (s.fflags &&& ~~~w.extractLsb' 0 5))

/-- CSRRWI, CSRRSI, CSRRCI complete on the three CSRs, with the 5-bit immediate zero-extended in place of the register: on
`fcsr` the write form clears `frm`, the set and clear forms reach only the flags (R175). -/
def Obligations.CsrImmediateFormsComplete : Prop :=
  ∀ (s : State) (rd : XReg) (u : BitVec 5),
    (∃ t, exec (.csrrwi rd 0x001 u) s = .next t ∧ CsrEffect s t rd (s.fflags.setWidth 64) s.frm u) ∧
    (∃ t, exec (.csrrwi rd 0x002 u) s = .next t ∧ CsrEffect s t rd (s.frm.setWidth 64) (u.extractLsb' 0 3) s.fflags) ∧
    (∃ t, exec (.csrrwi rd 0x003 u) s = .next t ∧ CsrEffect s t rd ((s.frm ++ s.fflags).setWidth 64) 0#3 u) ∧
    (∃ t, exec (.csrrsi rd 0x001 u) s = .next t ∧ CsrEffect s t rd (s.fflags.setWidth 64) s.frm (s.fflags ||| u)) ∧
    (∃ t, exec (.csrrsi rd 0x002 u) s = .next t ∧
      CsrEffect s t rd (s.frm.setWidth 64) (s.frm ||| u.extractLsb' 0 3) s.fflags) ∧
    (∃ t, exec (.csrrsi rd 0x003 u) s = .next t ∧
      CsrEffect s t rd ((s.frm ++ s.fflags).setWidth 64) s.frm (s.fflags ||| u)) ∧
    (∃ t, exec (.csrrci rd 0x001 u) s = .next t ∧ CsrEffect s t rd (s.fflags.setWidth 64) s.frm (s.fflags &&& ~~~u)) ∧
    (∃ t, exec (.csrrci rd 0x002 u) s = .next t ∧
      CsrEffect s t rd (s.frm.setWidth 64) (s.frm &&& ~~~u.extractLsb' 0 3) s.fflags) ∧
    (∃ t, exec (.csrrci rd 0x003 u) s = .next t ∧
      CsrEffect s t rd ((s.frm ++ s.fflags).setWidth 64) s.frm (s.fflags &&& ~~~u))

/-- A value written to `fcsr` reads back as its bits 7:0 and nothing else, and the two fields are seen at once through
their own views (R30, R31, R177). -/
def Obligations.CsrViewsShareOneState : Prop :=
  ∀ (s : State) (w : Word),
    (s.csrWrite 0x003 w).csrRead 0x003 = some (w &&& 0xff) ∧
    (s.csrWrite 0x003 w).csrRead 0x001 = some (w &&& 0x1f) ∧
    (s.csrWrite 0x003 w).csrRead 0x002 = some ((w >>> 5) &&& 0x7) ∧
    (s.csrWrite 0x001 w).csrRead 0x003 = some ((s.frm ++ w.extractLsb' 0 5).setWidth 64) ∧
    (s.csrWrite 0x001 w).csrRead 0x002 = s.csrRead 0x002 ∧
    (s.csrWrite 0x002 w).csrRead 0x003 = some ((w.extractLsb' 0 3 ++ s.fflags).setWidth 64) ∧
    (s.csrWrite 0x002 w).csrRead 0x001 = s.csrRead 0x001
end

