-- ==== Sys2Proof/Laws/Decode.lean ====
section
/-! SUPPORT. The fields of an encoded word (R81, R86, R87, R171), and the rounding-mode field's two directions (R85). -/

namespace Sys2Proof

section Fields

variable (hi5 rs2 rs1 rd : BitVec 5) (fmt : BitVec 2) (f3 : BitVec 3) (op : BitVec 7) (imm : BitVec 12)

/-! ### The R and R4 layouts -/

@[simp] theorem opcodeOf_wordR : opcodeOf (wordR hi5 fmt rs2 rs1 f3 rd op) = op := by
  apply BitVec.eq_of_getLsbD_eq
  intro i hi
  simp only [opcodeOf, wordR, BitVec.getLsbD_extractLsb', BitVec.getLsbD_append]
  grind

@[simp] theorem rdOf_wordR : rdOf (wordR hi5 fmt rs2 rs1 f3 rd op) = rd := by
  apply BitVec.eq_of_getLsbD_eq
  intro i hi
  simp only [rdOf, wordR, BitVec.getLsbD_extractLsb', BitVec.getLsbD_append]
  grind

@[simp] theorem funct3Of_wordR : funct3Of (wordR hi5 fmt rs2 rs1 f3 rd op) = f3 := by
  apply BitVec.eq_of_getLsbD_eq
  intro i hi
  simp only [funct3Of, wordR, BitVec.getLsbD_extractLsb', BitVec.getLsbD_append]
  grind

@[simp] theorem rs1Of_wordR : rs1Of (wordR hi5 fmt rs2 rs1 f3 rd op) = rs1 := by
  apply BitVec.eq_of_getLsbD_eq
  intro i hi
  simp only [rs1Of, wordR, BitVec.getLsbD_extractLsb', BitVec.getLsbD_append]
  grind

@[simp] theorem rs2Of_wordR : rs2Of (wordR hi5 fmt rs2 rs1 f3 rd op) = rs2 := by
  apply BitVec.eq_of_getLsbD_eq
  intro i hi
  simp only [rs2Of, wordR, BitVec.getLsbD_extractLsb', BitVec.getLsbD_append]
  grind

@[simp] theorem fmtOf_wordR : fmtOf (wordR hi5 fmt rs2 rs1 f3 rd op) = fmt := by
  apply BitVec.eq_of_getLsbD_eq
  intro i hi
  simp only [fmtOf, wordR, BitVec.getLsbD_extractLsb', BitVec.getLsbD_append]
  grind

@[simp] theorem funct5Of_wordR : funct5Of (wordR hi5 fmt rs2 rs1 f3 rd op) = hi5 := by
  apply BitVec.eq_of_getLsbD_eq
  intro i hi
  simp only [funct5Of, wordR, BitVec.getLsbD_extractLsb', BitVec.getLsbD_append]
  grind

/-! ### The I layout -/

@[simp] theorem opcodeOf_wordI : opcodeOf (wordI imm rs1 f3 rd op) = op := by
  apply BitVec.eq_of_getLsbD_eq
  intro i hi
  simp only [opcodeOf, wordI, BitVec.getLsbD_extractLsb', BitVec.getLsbD_append]
  grind

@[simp] theorem rdOf_wordI : rdOf (wordI imm rs1 f3 rd op) = rd := by
  apply BitVec.eq_of_getLsbD_eq
  intro i hi
  simp only [rdOf, wordI, BitVec.getLsbD_extractLsb', BitVec.getLsbD_append]
  grind

@[simp] theorem funct3Of_wordI : funct3Of (wordI imm rs1 f3 rd op) = f3 := by
  apply BitVec.eq_of_getLsbD_eq
  intro i hi
  simp only [funct3Of, wordI, BitVec.getLsbD_extractLsb', BitVec.getLsbD_append]
  grind

@[simp] theorem rs1Of_wordI : rs1Of (wordI imm rs1 f3 rd op) = rs1 := by
  apply BitVec.eq_of_getLsbD_eq
  intro i hi
  simp only [rs1Of, wordI, BitVec.getLsbD_extractLsb', BitVec.getLsbD_append]
  grind

@[simp] theorem immIOf_wordI : immIOf (wordI imm rs1 f3 rd op) = imm := by
  apply BitVec.eq_of_getLsbD_eq
  intro i hi
  simp only [immIOf, wordI, BitVec.getLsbD_extractLsb', BitVec.getLsbD_append]
  grind

/-! ### The S layout -/

@[simp] theorem opcodeOf_wordS : opcodeOf (wordS imm rs2 rs1 f3 op) = op := by
  apply BitVec.eq_of_getLsbD_eq
  intro i hi
  simp only [opcodeOf, wordS, BitVec.getLsbD_extractLsb', BitVec.getLsbD_append]
  grind

@[simp] theorem funct3Of_wordS : funct3Of (wordS imm rs2 rs1 f3 op) = f3 := by
  apply BitVec.eq_of_getLsbD_eq
  intro i hi
  simp only [funct3Of, wordS, BitVec.getLsbD_extractLsb', BitVec.getLsbD_append]
  grind

@[simp] theorem rs1Of_wordS : rs1Of (wordS imm rs2 rs1 f3 op) = rs1 := by
  apply BitVec.eq_of_getLsbD_eq
  intro i hi
  simp only [rs1Of, wordS, BitVec.getLsbD_extractLsb', BitVec.getLsbD_append]
  grind

@[simp] theorem rs2Of_wordS : rs2Of (wordS imm rs2 rs1 f3 op) = rs2 := by
  apply BitVec.eq_of_getLsbD_eq
  intro i hi
  simp only [rs2Of, wordS, BitVec.getLsbD_extractLsb', BitVec.getLsbD_append]
  grind

@[simp] theorem immSOf_wordS : immSOf (wordS imm rs2 rs1 f3 op) = imm := by
  apply BitVec.eq_of_getLsbD_eq
  intro i hi
  simp only [immSOf, wordS, BitVec.getLsbD_extractLsb', BitVec.getLsbD_append]
  grind

end Fields

/-! ### The rounding-mode field (R85) -/

@[simp] theorem rmOfBits_bits (rm : RmField) : rmOfBits rm.bits = rm := by
  cases rm with
  | static m => cases m <;> rfl
  | reserved101 => rfl
  | reserved110 => rfl
  | dyn => rfl

@[simp] theorem bits_rmOfBits (b : BitVec 3) : (rmOfBits b).bits = b := by
  revert b
  decide

/-- The rounding-mode field of an encoded word of the R or R4 layout. -/
@[simp] theorem rmOf_wordR (hi5 rs2 rs1 rd : BitVec 5) (fmt : BitVec 2) (rm : RmField) (op : BitVec 7) :
    rmOf (wordR hi5 fmt rs2 rs1 rm.bits rd op) = rm := by
  simp [rmOf]

/-! ### A word is its fields -/

theorem wordR_of_fields (w : Bits32) :
    wordR (funct5Of w) (fmtOf w) (rs2Of w) (rs1Of w) (funct3Of w) (rdOf w) (opcodeOf w) = w := by
  apply BitVec.eq_of_getLsbD_eq
  intro i hi
  simp only [opcodeOf, rdOf, funct3Of, rs1Of, rs2Of, fmtOf, funct5Of, wordR, BitVec.getLsbD_extractLsb',
    BitVec.getLsbD_append]
  grind

theorem wordI_of_fields (w : Bits32) : wordI (immIOf w) (rs1Of w) (funct3Of w) (rdOf w) (opcodeOf w) = w := by
  apply BitVec.eq_of_getLsbD_eq
  intro i hi
  simp only [opcodeOf, rdOf, funct3Of, rs1Of, immIOf, wordI, BitVec.getLsbD_extractLsb', BitVec.getLsbD_append]
  grind

theorem wordS_of_fields (w : Bits32) : wordS (immSOf w) (rs2Of w) (rs1Of w) (funct3Of w) (opcodeOf w) = w := by
  apply BitVec.eq_of_getLsbD_eq
  intro i hi
  simp only [opcodeOf, funct3Of, rs1Of, rs2Of, immSOf, wordS, BitVec.getLsbD_extractLsb', BitVec.getLsbD_append]
  grind

end Sys2Proof
end

