-- ==== Sys2Proof/Laws/State.lean ====
section
/-! SUPPORT. One lemma per field per named update of the state, so that no proof unfolds a record update; and what reading a
register gives after a write (R11, R21, R24). -/

namespace Sys2Proof.Machine

/-! ### `f[i] <- v` -/

@[simp] theorem State.writeF_cfg (s : State) (i : FReg) (v : Bits32) : (s.writeF i v).cfg = s.cfg := rfl
@[simp] theorem State.writeF_x (s : State) (i : FReg) (v : Bits32) : (s.writeF i v).x = s.x := rfl
@[simp] theorem State.writeF_f (s : State) (i : FReg) (v : Bits32) : (s.writeF i v).f = s.f.set i.toNat v i.isLt := rfl
@[simp] theorem State.writeF_pc (s : State) (i : FReg) (v : Bits32) : (s.writeF i v).pc = s.pc := rfl
@[simp] theorem State.writeF_frm (s : State) (i : FReg) (v : Bits32) : (s.writeF i v).frm = s.frm := rfl
@[simp] theorem State.writeF_fflags (s : State) (i : FReg) (v : Bits32) : (s.writeF i v).fflags = s.fflags := rfl
@[simp] theorem State.writeF_mem (s : State) (i : FReg) (v : Bits32) : (s.writeF i v).mem = s.mem := rfl
@[simp] theorem State.writeF_stored (s : State) (i : FReg) (v : Bits32) : (s.writeF i v).stored = s.stored := rfl

/-! ### `pc <- pc + 4` -/

@[simp] theorem State.advance_cfg (s : State) : s.advance.cfg = s.cfg := rfl
@[simp] theorem State.advance_x (s : State) : s.advance.x = s.x := rfl
@[simp] theorem State.advance_f (s : State) : s.advance.f = s.f := rfl
@[simp] theorem State.advance_pc (s : State) : s.advance.pc = truncXlen s.cfg.xlen (s.pcVal + 4) := rfl
@[simp] theorem State.advance_frm (s : State) : s.advance.frm = s.frm := rfl
@[simp] theorem State.advance_fflags (s : State) : s.advance.fflags = s.fflags := rfl
@[simp] theorem State.advance_mem (s : State) : s.advance.mem = s.mem := rfl
@[simp] theorem State.advance_stored (s : State) : s.advance.stored = s.stored := rfl

/-! ### `accrue(m)` -/

@[simp] theorem State.accrue_cfg (s : State) (m : Flags) : (s.accrue m).cfg = s.cfg := rfl
@[simp] theorem State.accrue_x (s : State) (m : Flags) : (s.accrue m).x = s.x := rfl
@[simp] theorem State.accrue_f (s : State) (m : Flags) : (s.accrue m).f = s.f := rfl
@[simp] theorem State.accrue_pc (s : State) (m : Flags) : (s.accrue m).pc = s.pc := rfl
@[simp] theorem State.accrue_frm (s : State) (m : Flags) : (s.accrue m).frm = s.frm := rfl
@[simp] theorem State.accrue_fflags (s : State) (m : Flags) : (s.accrue m).fflags = s.fflags ||| m := rfl
@[simp] theorem State.accrue_mem (s : State) (m : Flags) : (s.accrue m).mem = s.mem := rfl
@[simp] theorem State.accrue_stored (s : State) (m : Flags) : (s.accrue m).stored = s.stored := rfl

/-! ### The four byte writes of FSW -/

@[simp] theorem State.storeWord_cfg (s : State) (a : Word) (v : Bits32) : (s.storeWord a v).cfg = s.cfg := rfl
@[simp] theorem State.storeWord_x (s : State) (a : Word) (v : Bits32) : (s.storeWord a v).x = s.x := rfl
@[simp] theorem State.storeWord_f (s : State) (a : Word) (v : Bits32) : (s.storeWord a v).f = s.f := rfl
@[simp] theorem State.storeWord_pc (s : State) (a : Word) (v : Bits32) : (s.storeWord a v).pc = s.pc := rfl
@[simp] theorem State.storeWord_frm (s : State) (a : Word) (v : Bits32) : (s.storeWord a v).frm = s.frm := rfl
@[simp] theorem State.storeWord_fflags (s : State) (a : Word) (v : Bits32) : (s.storeWord a v).fflags = s.fflags := rfl
@[simp] theorem State.storeWord_mem (s : State) (a : Word) (v : Bits32) :
    (s.storeWord a v).mem = storeBytes s.cfg.xlen s.mem a v := rfl
@[simp] theorem State.storeWord_stored (s : State) (a : Word) (v : Bits32) :
    (s.storeWord a v).stored = addAccess s.cfg.xlen a s.stored := rfl

/-! ### `x[i] <- v`, which does nothing when `i` is 0 -/

theorem State.writeX_zero (s : State) (v : Word) : s.writeX 0#5 v = s := rfl

theorem State.writeX_of_ne (s : State) (i : XReg) (v : Word) (h : i ≠ 0#5) :
    s.writeX i v = { s with x := s.x.set i.toNat (truncXlen s.cfg.xlen v) i.isLt } := by
  simp [State.writeX, h]

@[simp] theorem State.writeX_cfg (s : State) (i : XReg) (v : Word) : (s.writeX i v).cfg = s.cfg := by
  unfold State.writeX
  split <;> rfl
@[simp] theorem State.writeX_f (s : State) (i : XReg) (v : Word) : (s.writeX i v).f = s.f := by
  unfold State.writeX
  split <;> rfl
@[simp] theorem State.writeX_pc (s : State) (i : XReg) (v : Word) : (s.writeX i v).pc = s.pc := by
  unfold State.writeX
  split <;> rfl
@[simp] theorem State.writeX_frm (s : State) (i : XReg) (v : Word) : (s.writeX i v).frm = s.frm := by
  unfold State.writeX
  split <;> rfl
@[simp] theorem State.writeX_fflags (s : State) (i : XReg) (v : Word) : (s.writeX i v).fflags = s.fflags := by
  unfold State.writeX
  split <;> rfl
@[simp] theorem State.writeX_mem (s : State) (i : XReg) (v : Word) : (s.writeX i v).mem = s.mem := by
  unfold State.writeX
  split <;> rfl
@[simp] theorem State.writeX_stored (s : State) (i : XReg) (v : Word) : (s.writeX i v).stored = s.stored := by
  unfold State.writeX
  split <;> rfl

/-! ### `csr_write(n, w)` -/

@[simp] theorem State.csrWrite_cfg (s : State) (n : CsrNum) (w : Word) : (s.csrWrite n w).cfg = s.cfg := by
  unfold State.csrWrite
  split_ifs <;> rfl
@[simp] theorem State.csrWrite_x (s : State) (n : CsrNum) (w : Word) : (s.csrWrite n w).x = s.x := by
  unfold State.csrWrite
  split_ifs <;> rfl
@[simp] theorem State.csrWrite_f (s : State) (n : CsrNum) (w : Word) : (s.csrWrite n w).f = s.f := by
  unfold State.csrWrite
  split_ifs <;> rfl
@[simp] theorem State.csrWrite_pc (s : State) (n : CsrNum) (w : Word) : (s.csrWrite n w).pc = s.pc := by
  unfold State.csrWrite
  split_ifs <;> rfl
@[simp] theorem State.csrWrite_mem (s : State) (n : CsrNum) (w : Word) : (s.csrWrite n w).mem = s.mem := by
  unfold State.csrWrite
  split_ifs <;> rfl
@[simp] theorem State.csrWrite_stored (s : State) (n : CsrNum) (w : Word) : (s.csrWrite n w).stored = s.stored := by
  unfold State.csrWrite
  split_ifs <;> rfl

theorem State.csrWrite_fflags (s : State) (n : CsrNum) (w : Word) :
    (s.csrWrite n w).fflags = if n = 0x001#12 ∨ n = 0x003#12 then w.extractLsb' 0 5 else s.fflags := by
  unfold State.csrWrite
  split_ifs <;> simp_all

theorem State.csrWrite_frm (s : State) (n : CsrNum) (w : Word) :
    (s.csrWrite n w).frm =
      if n = 0x002#12 then w.extractLsb' 0 3 else if n = 0x003#12 then w.extractLsb' 5 3 else s.frm := by
  unfold State.csrWrite
  split_ifs <;> simp_all

/-! ### The derived readings see only the fields they read -/

@[simp] theorem State.pcVal_writeF (s : State) (i : FReg) (v : Bits32) : (s.writeF i v).pcVal = s.pcVal := rfl
@[simp] theorem State.pcVal_accrue (s : State) (m : Flags) : (s.accrue m).pcVal = s.pcVal := rfl
@[simp] theorem State.pcVal_storeWord (s : State) (a : Word) (v : Bits32) : (s.storeWord a v).pcVal = s.pcVal := rfl
@[simp] theorem State.pcVal_writeX (s : State) (i : XReg) (v : Word) : (s.writeX i v).pcVal = s.pcVal := by
  simp [State.pcVal]
@[simp] theorem State.pcVal_csrWrite (s : State) (n : CsrNum) (w : Word) : (s.csrWrite n w).pcVal = s.pcVal := by
  simp [State.pcVal]

@[simp] theorem State.readX_writeF (s : State) (i : FReg) (v : Bits32) (r : XReg) : (s.writeF i v).readX r = s.readX r := rfl
@[simp] theorem State.readX_accrue (s : State) (m : Flags) (r : XReg) : (s.accrue m).readX r = s.readX r := rfl
@[simp] theorem State.readX_advance (s : State) (r : XReg) : s.advance.readX r = s.readX r := rfl
@[simp] theorem State.readX_storeWord (s : State) (a : Word) (v : Bits32) (r : XReg) :
    (s.storeWord a v).readX r = s.readX r := rfl
@[simp] theorem State.readX_csrWrite (s : State) (n : CsrNum) (w : Word) (r : XReg) :
    (s.csrWrite n w).readX r = s.readX r := by
  simp [State.readX]

@[simp] theorem State.readF_accrue (s : State) (m : Flags) (r : FReg) : (s.accrue m).readF r = s.readF r := rfl
@[simp] theorem State.readF_advance (s : State) (r : FReg) : s.advance.readF r = s.readF r := rfl
@[simp] theorem State.readF_storeWord (s : State) (a : Word) (v : Bits32) (r : FReg) :
    (s.storeWord a v).readF r = s.readF r := rfl
@[simp] theorem State.readF_writeX (s : State) (i : XReg) (v : Word) (r : FReg) : (s.writeX i v).readF r = s.readF r := by
  simp [State.readF]
@[simp] theorem State.readF_csrWrite (s : State) (n : CsrNum) (w : Word) (r : FReg) :
    (s.csrWrite n w).readF r = s.readF r := by
  simp [State.readF]

/-! ### A register read after a register write -/

@[simp] theorem truncXlen_idem (xl : Xlen) (w : Word) : truncXlen xl (truncXlen xl w) = truncXlen xl w := by
  cases xl
  · simp only [truncXlen]
    simp
  · rfl

/-- `x[0]` reads zero in every state (R24). -/
@[simp] theorem State.readX_zero (s : State) : s.readX 0#5 = 0 := rfl

theorem State.readX_writeX_same (s : State) (i : XReg) (v : Word) (h : i ≠ 0#5) :
    (s.writeX i v).readX i = truncXlen s.cfg.xlen v := by
  rw [State.writeX_of_ne s i v h]
  simp [State.readX, h]

theorem State.readX_writeX_other (s : State) (i r : XReg) (v : Word) (h : r ≠ i) :
    (s.writeX i v).readX r = s.readX r := by
  by_cases hi : i = 0#5
  · subst hi
    rfl
  · have hn : i.toNat ≠ r.toNat := fun e => h (BitVec.eq_of_toNat_eq e.symm)
    rw [State.writeX_of_ne s i v hi]
    simp [State.readX, Vector.getElem_set_ne _ _ hn]

@[simp] theorem State.readF_writeF_same (s : State) (i : FReg) (v : Bits32) : (s.writeF i v).readF i = v := by
  simp [State.readF]

theorem State.readF_writeF_other (s : State) (i r : FReg) (v : Bits32) (h : r ≠ i) :
    (s.writeF i v).readF r = s.readF r := by
  have hn : i.toNat ≠ r.toNat := fun e => h (BitVec.eq_of_toNat_eq e.symm)
  simp [State.readF, Vector.getElem_set_ne _ _ hn]

end Sys2Proof.Machine
end

