-- ==== Sys2Proof/Laws/Memory.lean ====
section
/-! SUPPORT. Memory: every operation keeps the canonical form, a byte read after a byte write, and the four bytes of an
FSW (R50 to R53, R63). -/

namespace Sys2Proof.Machine

/-! ### The XLEN-bit address of a byte -/

theorem truncXlen_lt (xl : Xlen) (w : Word) : (truncXlen xl w).toNat < addrSpace xl := by
  cases xl
  · simp only [truncXlen, addrSpace, BitVec.toNat_setWidth]
    omega
  · exact w.isLt

theorem toNat_truncXlen (xl : Xlen) (w : Word) : (truncXlen xl w).toNat = w.toNat % addrSpace xl := by
  cases xl
  · simp only [truncXlen, addrSpace, BitVec.toNat_setWidth]
    omega
  · simp [truncXlen, addrSpace, Nat.mod_eq_of_lt w.isLt]

/-- The addresses of an access lie in the address space (R50). -/
theorem byteAddr_lt (xl : Xlen) (addr : Word) (i : Nat) : byteAddr xl addr i < addrSpace xl := truncXlen_lt xl _

/-- `a_i = (addr + i) mod 2^XLEN` (R52). -/
theorem byteAddr_eq (xl : Xlen) (addr : Word) (i : Nat) : byteAddr xl addr i = (addr.toNat + i) % addrSpace xl := by
  unfold byteAddr
  rw [toNat_truncXlen, BitVec.toNat_add, BitVec.toNat_ofNat]
  cases xl <;> simp only [addrSpace] <;> omega

/-- The four addresses of an access are distinct, also where they wrap (R52). -/
theorem byteAddr_injective (xl : Xlen) (addr : Word) {i j : Nat} (hi : i < 4) (hj : j < 4)
    (h : byteAddr xl addr i = byteAddr xl addr j) : i = j := by
  rw [byteAddr_eq, byteAddr_eq] at h
  cases xl <;> simp only [addrSpace] at h <;> omega

/-! ### One byte (R63) -/

theorem Memory.read_cons (k : Nat) (c : Byte) (m : Memory) (a : Nat) :
    Memory.read ((k, c) :: m) a = if a = k then c else Memory.read m a := rfl

theorem Memory.write_cons (k : Nat) (c : Byte) (m : Memory) (a : Nat) (b : Byte) :
    Memory.write ((k, c) :: m) a b =
      if a < k then (if b = unlistedByte then (k, c) :: m else (a, b) :: (k, c) :: m)
      else if a = k then (if b = unlistedByte then m else (a, b) :: m)
      else (k, c) :: Memory.write m a b := rfl

/-- An address below every listed one reads as an unlisted byte. -/
theorem Memory.read_of_lt (m : Memory) (a : Nat) (h : ∀ c ∈ m, a < c.1) : Memory.read m a = unlistedByte := by
  induction m with
  | nil => rfl
  | cons c m ih =>
    obtain ⟨k, b⟩ := c
    have hk : a < k := h (k, b) (by simp)
    rw [Memory.read_cons, if_neg (by omega)]
    exact ih fun c hc => h c (by simp [hc])

/-- A byte of memory after a byte write: the byte written at its address, the old byte elsewhere. -/
theorem Memory.read_write (m : Memory) (hm : m.wf) (a : Nat) (b : Byte) (a' : Nat) :
    Memory.read (m.write a b) a' = if a' = a then b else Memory.read m a' := by
  induction m with
  | nil =>
    unfold Memory.write
    split_ifs with hb ha ha
    · rw [hb]; rfl
    · rfl
    · rw [Memory.read_cons, if_pos ha]
    · rw [Memory.read_cons, if_neg ha]
  | cons c m ih =>
    obtain ⟨k, v⟩ := c
    obtain ⟨hs, hn⟩ := hm
    rw [List.pairwise_cons] at hs
    have htail : Memory.wf m := ⟨hs.2, fun c hc => hn c (by simp [hc])⟩
    have hbelow : ∀ x, x ≤ k → Memory.read m x = unlistedByte := fun x hx =>
      Memory.read_of_lt m x fun c hc => by
        have h1 : k < c.1 := hs.1 c hc
        omega
    rw [Memory.write_cons]
    by_cases ha : a' = a
    · subst ha
      rw [if_pos rfl]
      rcases Nat.lt_trichotomy a' k with h | h | h
      · rw [if_pos h]
        by_cases hb : b = unlistedByte
        · rw [if_pos hb, Memory.read_cons, if_neg (by omega), hbelow a' (by omega), hb]
        · rw [if_neg hb, Memory.read_cons, if_pos rfl]
      · rw [if_neg (by omega), if_pos h]
        by_cases hb : b = unlistedByte
        · rw [if_pos hb, hbelow a' (by omega), hb]
        · rw [if_neg hb, Memory.read_cons, if_pos rfl]
      · rw [if_neg (by omega), if_neg (by omega), Memory.read_cons, if_neg (by omega), ih htail, if_pos rfl]
    · rw [if_neg ha]
      rcases Nat.lt_trichotomy a k with h | h | h
      · rw [if_pos h]
        by_cases hb : b = unlistedByte
        · rw [if_pos hb]
        · rw [if_neg hb, Memory.read_cons, if_neg ha]
      · subst h
        rw [if_neg (by omega), if_pos rfl, Memory.read_cons, if_neg ha]
        by_cases hb : b = unlistedByte
        · rw [if_pos hb]
        · rw [if_neg hb, Memory.read_cons, if_neg ha]
      · rw [if_neg (by omega), if_neg (by omega), Memory.read_cons, Memory.read_cons, ih htail, if_neg ha]

/-- The addresses listed after a byte write are among the old ones and the address written. -/
theorem Memory.mem_write (m : Memory) (a : Nat) (b : Byte) {c : Host.Cell} (h : c ∈ m.write a b) :
    c = (a, b) ∨ c ∈ m := by
  induction m with
  | nil =>
    unfold Memory.write at h
    split_ifs at h with hb
    · exact Or.inr h
    · exact Or.inl (by simpa using h)
  | cons d m ih =>
    obtain ⟨k, v⟩ := d
    unfold Memory.write at h
    split_ifs at h with h1 hb h2 hb2
    · exact Or.inr h
    · rcases List.mem_cons.mp h with h | h
      · exact Or.inl h
      · exact Or.inr h
    · exact Or.inr (by simp [h])
    · rcases List.mem_cons.mp h with h | h
      · exact Or.inl h
      · exact Or.inr (by simp [h])
    · rcases List.mem_cons.mp h with h | h
      · exact Or.inr (by simp [h])
      · rcases ih h with h | h
        · exact Or.inl h
        · exact Or.inr (by simp [h])

/-- A byte write keeps the canonical form. -/
theorem Memory.write_wf (m : Memory) (hm : m.wf) (a : Nat) (b : Byte) : Memory.wf (m.write a b) := by
  induction m with
  | nil =>
    unfold Memory.write
    split_ifs with hb
    · exact hm
    · refine ⟨List.pairwise_singleton _ _, fun c hc => ?_⟩
      rw [List.mem_singleton.mp hc]
      exact hb
  | cons d m ih =>
    obtain ⟨k, v⟩ := d
    obtain ⟨hs, hn⟩ := hm
    have hs' := List.pairwise_cons.mp hs
    have htail : Memory.wf m := ⟨hs'.2, fun c hc => hn c (by simp [hc])⟩
    unfold Memory.write
    split_ifs with h1 hb h2 hb2
    · exact ⟨hs, hn⟩
    · refine ⟨List.pairwise_cons.mpr ⟨fun c hc => ?_, hs⟩, fun c hc => ?_⟩
      · rcases List.mem_cons.mp hc with rfl | hc
        · exact h1
        · have : k < c.1 := hs'.1 c hc
          show a < c.1
          omega
      · rcases List.mem_cons.mp hc with rfl | hc
        · exact hb
        · exact hn c hc
    · exact htail
    · subst h2
      refine ⟨List.pairwise_cons.mpr ⟨hs'.1, hs'.2⟩, fun c hc => ?_⟩
      rcases List.mem_cons.mp hc with rfl | hc
      · exact hb2
      · exact htail.2 c hc
    · obtain ⟨ihs, ihn⟩ := ih htail
      refine ⟨List.pairwise_cons.mpr ⟨fun c hc => ?_, ihs⟩, fun c hc => ?_⟩
      · rcases Memory.mem_write m a b hc with rfl | hc
        · show k < a
          omega
        · exact hs'.1 c hc
      · rcases List.mem_cons.mp hc with rfl | hc
        · exact hn (k, v) (by simp)
        · exact ihn c hc

/-! ### The four bytes of an access (R51 to R53) -/

/-- FSW's byte writes keep the canonical form. -/
theorem storeBytes_wf (xl : Xlen) (m : Memory) (hm : m.wf) (addr : Word) (v : Bits32) :
    Memory.wf (storeBytes xl m addr v) :=
  Memory.write_wf _ (Memory.write_wf _ (Memory.write_wf _ (Memory.write_wf _ hm _ _) _ _) _ _) _ _

/-- FSW's byte writes stay inside the address space. -/
theorem storeBytes_inSpace (xl : Xlen) (m : Memory) (addr : Word) (v : Bits32) (h : ∀ c ∈ m, c.1 < addrSpace xl) :
    ∀ c ∈ storeBytes xl m addr v, c.1 < addrSpace xl := by
  have step : ∀ (m : Memory) (i : Nat) (b : Byte), (∀ c ∈ m, c.1 < addrSpace xl) →
      ∀ c ∈ m.write (byteAddr xl addr i) b, c.1 < addrSpace xl := fun m i b hm c hc => by
    rcases Memory.mem_write m _ b hc with rfl | hc
    · exact byteAddr_lt xl addr i
    · exact hm c hc
  exact step _ _ _ (step _ _ _ (step _ _ _ (step _ _ _ h)))

/-- Byte `i` of the access holds byte `i` of the value, every other byte is unchanged (R53). -/
theorem storeBytes_read (xl : Xlen) (m : Memory) (hm : m.wf) (addr : Word) (v : Bits32) :
    (∀ i < 4, Memory.read (storeBytes xl m addr v) (byteAddr xl addr i) = byteOf v i) ∧
    ∀ a, (∀ i < 4, a ≠ byteAddr xl addr i) → Memory.read (storeBytes xl m addr v) a = Memory.read m a := by
  have h0 := Memory.write_wf m hm (byteAddr xl addr 0) (byteOf v 0)
  have h1 := Memory.write_wf _ h0 (byteAddr xl addr 1) (byteOf v 1)
  have h2 := Memory.write_wf _ h1 (byteAddr xl addr 2) (byteOf v 2)
  have key : ∀ a, Memory.read (storeBytes xl m addr v) a =
      if a = byteAddr xl addr 3 then byteOf v 3 else if a = byteAddr xl addr 2 then byteOf v 2
      else if a = byteAddr xl addr 1 then byteOf v 1 else if a = byteAddr xl addr 0 then byteOf v 0
      else Memory.read m a := fun a => by
    unfold storeBytes
    rw [Memory.read_write _ h2, Memory.read_write _ h1, Memory.read_write _ h0, Memory.read_write _ hm]
  have ne : ∀ {i j : Nat}, i < 4 → j < 4 → i ≠ j → byteAddr xl addr i ≠ byteAddr xl addr j := fun hi hj hij h =>
    hij (byteAddr_injective xl addr hi hj h)
  constructor
  · intro i hi
    rw [key]
    interval_cases i
    · rw [if_neg (ne (by omega) (by omega) (by omega)), if_neg (ne (by omega) (by omega) (by omega)),
        if_neg (ne (by omega) (by omega) (by omega)), if_pos rfl]
    · rw [if_neg (ne (by omega) (by omega) (by omega)), if_neg (ne (by omega) (by omega) (by omega)), if_pos rfl]
    · rw [if_neg (ne (by omega) (by omega) (by omega)), if_pos rfl]
    · rw [if_pos rfl]
  · intro a ha
    rw [key, if_neg (ha 3 (by omega)), if_neg (ha 2 (by omega)), if_neg (ha 1 (by omega)), if_neg (ha 0 (by omega))]

/-- The four bytes of a value, put together little-endian, are the value (R51). -/
theorem wordOfBytes_byteOf (v : Bits32) : wordOfBytes (byteOf v 0) (byteOf v 1) (byteOf v 2) (byteOf v 3) = v := by
  simp only [wordOfBytes, byteOf]
  apply BitVec.eq_of_getLsbD_eq
  intro i hi
  simp only [BitVec.getLsbD_append, BitVec.getLsbD_extractLsb']
  split_ifs <;> simp <;> grind

/-- A word read back at the address it was stored to (R52, R53). -/
theorem loadWord_storeWord (s : State) (hm : s.mem.wf) (addr : Word) (v : Bits32) :
    (s.storeWord addr v).loadWord addr = v := by
  have h := (storeBytes_read s.cfg.xlen s.mem hm addr v).1
  unfold State.loadWord State.readByte
  simp only [State.storeWord_mem, State.storeWord_cfg]
  rw [h 0 (by omega), h 1 (by omega), h 2 (by omega), h 3 (by omega)]
  exact wordOfBytes_byteOf v

/-! ### The list of stored addresses (R66) -/

theorem mem_addAddr (a b : Nat) (l : List Nat) : b ∈ addAddr a l ↔ b = a ∨ b ∈ l := by
  induction l with
  | nil => simp [addAddr]
  | cons k l ih =>
    unfold addAddr
    split_ifs with h1 h2
    · simp
    · subst h2
      simp
    · simp only [List.mem_cons, ih]
      tauto

/-- Adding an address keeps the list strictly rising. -/
theorem addAddr_wf (a : Nat) (l : List Nat) (h : addrsWf l) : addrsWf (addAddr a l) := by
  induction l with
  | nil => exact List.pairwise_singleton _ _
  | cons k l ih =>
    have h' := List.pairwise_cons.mp h
    unfold addAddr
    split_ifs with h1 h2
    · refine List.pairwise_cons.mpr ⟨fun b hb => ?_, h⟩
      rcases List.mem_cons.mp hb with rfl | hb
      · exact h1
      · have := h'.1 b hb
        omega
    · exact h
    · refine List.pairwise_cons.mpr ⟨fun b hb => ?_, ih h'.2⟩
      rcases (mem_addAddr a b l).mp hb with rfl | hb
      · omega
      · exact h'.1 b hb

theorem addAccess_wf (xl : Xlen) (addr : Word) (l : List Nat) (h : addrsWf l) : addrsWf (addAccess xl addr l) :=
  addAddr_wf _ _ (addAddr_wf _ _ (addAddr_wf _ _ (addAddr_wf _ _ h)))

/-- The stored addresses after an access: the old ones and the four of the access. -/
theorem mem_addAccess (xl : Xlen) (addr : Word) (l : List Nat) (a : Nat) :
    a ∈ addAccess xl addr l ↔ a ∈ l ∨ ∃ i < 4, a = byteAddr xl addr i := by
  simp only [addAccess, mem_addAddr]
  constructor
  · rintro (h | h | h | h | h)
    · exact Or.inr ⟨0, by omega, h⟩
    · exact Or.inr ⟨1, by omega, h⟩
    · exact Or.inr ⟨2, by omega, h⟩
    · exact Or.inr ⟨3, by omega, h⟩
    · exact Or.inl h
  · rintro (h | ⟨i, hi, h⟩)
    · simp [h]
    · interval_cases i <;> simp [h]

/-- Dropping an address keeps the list strictly rising. -/
theorem dropAddr_wf (a : Nat) (l : List Nat) (h : addrsWf l) : addrsWf (dropAddr a l) := List.Pairwise.filter _ h

/-- Placing a word keeps memory in canonical form. -/
theorem placeWord_wf (s : State) (hm : s.mem.wf) (w : Bits32) : Memory.wf (s.placeWord w).mem :=
  storeBytes_wf _ _ hm _ _

/-- Memory at reset is in canonical form. -/
theorem reset_memory_wf : Memory.wf State.reset.mem := by
  decide

end Sys2Proof.Machine
end

