-- ==== Sys2Proof/Laws/Ops.lean ====
section
/-! SUPPORT. For each shared operation, one lemma that says once everything it can do. Proofs about an instruction cite
these and do not unfold the operation. -/

namespace Sys2Proof.Machine

/-! ### Sequencing -/

@[simp] theorem Result.bind_next {α β : Type} (a : α) (k : α → Result β) : Result.bind (.next a) k = k a := rfl
@[simp] theorem Result.bind_fault {α β : Type} (e : Fault) (k : α → Result β) : Result.bind (.fault e) k = .fault e := rfl
@[simp] theorem Result.bind_refused {α β : Type} (e : Refusal) (k : α → Result β) :
    Result.bind (.refused e) k = .refused e := rfl

/-- A sequence answers a next state exactly when both parts do. -/
theorem Result.bind_eq_next {α β : Type} (r : Result α) (k : α → Result β) (b : β) :
    Result.bind r k = .next b ↔ ∃ a, r = .next a ∧ k a = .next b := by
  cases r <;> simp [Result.bind]

/-- A sequence faults exactly when its first part does, or its second part after the first. -/
theorem Result.bind_eq_fault {α β : Type} (r : Result α) (k : α → Result β) (e : Fault) :
    Result.bind r k = .fault e ↔ r = .fault e ∨ ∃ a, r = .next a ∧ k a = .fault e := by
  cases r <;> simp [Result.bind]

/-- Raising an exception never answers a next state (R306). -/
theorem State.raise_ne_next {α : Type} (s : State) (e : Word → Fault) (a : α) : s.raise e ≠ .next a := by
  simp [State.raise]

/-! ### XLEN-bit values -/

@[simp] theorem truncXlen_sextXlen (xl : Xlen) {n : Nat} (v : BitVec n) :
    truncXlen xl (sextXlen xl v) = sextXlen xl v := truncXlen_idem xl _

@[simp] theorem truncXlen_zextXlen (xl : Xlen) {n : Nat} (v : BitVec n) :
    truncXlen xl (zextXlen xl v) = zextXlen xl v := truncXlen_idem xl _

@[simp] theorem truncXlen_rv64 (w : Word) : truncXlen .rv64 w = w := rfl

@[simp] theorem truncXlen_zero (xl : Xlen) : truncXlen xl 0 = 0 := by
  cases xl <;> rfl

/-- Reading an integer register gives XLEN bits (R24). -/
@[simp] theorem State.truncXlen_readX (s : State) (r : XReg) : truncXlen s.cfg.xlen (s.readX r) = s.readX r := by
  unfold State.readX
  split_ifs
  · exact truncXlen_zero _
  · exact truncXlen_idem _ _

/-- The pc after `pc <- pc + 4`, in the words of the claims (R26). -/
theorem State.advance_pc_eq (s : State) : s.advance.pc = s.nextPc := rfl

/-! ### The rounding mode (R131) and XLEN (R94) -/

/-- `rm_eff` answered: the continuation runs. -/
theorem withMode_some {insn : Bits32} {rm : RmField} {s : State} {mode : RoundMode} (h : rmEff rm s.frm = some mode)
    (k : RoundMode → Result State) : withMode insn rm s k = k mode := by
  simp [withMode, h]

/-- `rm_eff` raised. -/
theorem withMode_none {insn : Bits32} {rm : RmField} {s : State} (h : rmEff rm s.frm = none)
    (k : RoundMode → Result State) : withMode insn rm s k = .fault (.illegalInstruction insn s.pcVal) := by
  simp [withMode, h, State.raise]

/-- A next state comes only from the continuation at the effective mode. -/
theorem withMode_eq_next (insn : Bits32) (rm : RmField) (s : State) (k : RoundMode → Result State) (t : State) :
    withMode insn rm s k = .next t ↔ ∃ mode, rmEff rm s.frm = some mode ∧ k mode = .next t := by
  cases h : rmEff rm s.frm with
  | none => simp [withMode_none h]
  | some mode => simp [withMode_some h]

theorem needRv64_rv64 {insn : Bits32} {s : State} (h : s.cfg.xlen = .rv64) (k : Result State) :
    needRv64 insn s k = k := by
  simp [needRv64, h]

theorem needRv64_rv32 {insn : Bits32} {s : State} (h : s.cfg.xlen = .rv32) (k : Result State) :
    needRv64 insn s k = .fault (.illegalInstruction insn s.pcVal) := by
  simp [needRv64, h, State.raise]

theorem needRv64_eq_next (insn : Bits32) (s : State) (k : Result State) (t : State) :
    needRv64 insn s k = .next t ↔ s.cfg.xlen = .rv64 ∧ k = .next t := by
  cases h : s.cfg.xlen with
  | rv32 => simp [needRv64_rv32 h]
  | rv64 => simp [needRv64_rv64 h]

/-! ### Memory accesses (R52, R53, R58) -/

/-- Naturally aligned is a multiple of 4 (R55). -/
theorem aligned4_iff (a : Word) : aligned4 a = true ↔ a.toNat % 4 = 0 := by
  simp only [aligned4, beq_iff_eq, ← BitVec.toNat_inj]
  simp

theorem aligned4_eq_false_iff (a : Word) : aligned4 a = false ↔ a.toNat % 4 ≠ 0 := by
  rw [← Bool.not_eq_true, aligned4_iff]

/-- An access is not stopped by its alignment: a multiple of 4, or `MISALIGNED_FP` is `invisible` (R55). -/
theorem alignmentOk_iff (c : Config) (a : Word) :
    alignmentOk c a = true ↔ a.toNat % 4 = 0 ∨ c.misalignedFp = .invisible := by
  simp [alignmentOk, aligned4_iff]

theorem alignmentOk_eq_false_iff (c : Config) (a : Word) :
    alignmentOk c a = false ↔ a.toNat % 4 ≠ 0 ∧ c.misalignedFp = .trap := by
  rw [← Bool.not_eq_true, alignmentOk_iff, not_or]
  cases c.misalignedFp <;> simp

/-- The alignment of a sum that stays inside XLEN bits is that of its low two bits: stepping the pc keeps it (R26). -/
theorem aligned4_truncXlen_add_four (xl : Xlen) (a : Word) (h : aligned4 a = true) :
    aligned4 (truncXlen xl (a + 4)) = true := by
  rw [aligned4_iff] at h ⊢
  rw [toNat_truncXlen, BitVec.toNat_add, show (4 : Word).toNat = 4 from rfl]
  cases xl <;> simp only [addrSpace] <;> omega

theorem aligned4_truncXlen (xl : Xlen) (a : Word) : aligned4 (truncXlen xl a) = aligned4 a := by
  rw [Bool.eq_iff_iff, aligned4_iff, aligned4_iff, toNat_truncXlen]
  cases xl <;> simp only [addrSpace] <;> omega

/-- `MemRead`: the two exceptions in their order, else the four bytes (R52). -/
theorem State.memRead_eq (s : State) (addr : Word) :
    s.memRead addr =
      if alignmentOk s.cfg addr = false then .fault (.loadAddressMisaligned addr s.pcVal)
      else if memValid4 s.cfg addr .read = false then .fault (.loadAccessFault addr s.pcVal)
      else .next (s.loadWord addr) := rfl

theorem State.memRead_eq_next (s : State) (addr : Word) (v : Bits32) :
    s.memRead addr = .next v ↔
      alignmentOk s.cfg addr = true ∧ memValid4 s.cfg addr .read = true ∧ v = s.loadWord addr := by
  rw [State.memRead_eq]
  split_ifs with h1 h2
  · simp [h1]
  · simp [h2]
  · simp [Bool.eq_true_of_not_eq_false h1, Bool.eq_true_of_not_eq_false h2, eq_comm]

/-- `MemWrite`: the two exceptions in their order, else the four bytes are written (R53). -/
theorem State.memWrite_eq (s : State) (addr : Word) (v : Bits32) :
    s.memWrite addr v =
      if alignmentOk s.cfg addr = false then .fault (.storeAddressMisaligned addr s.pcVal)
      else if memValid4 s.cfg addr .write = false then .fault (.storeAccessFault addr s.pcVal)
      else .next (s.storeWord addr v) := rfl

theorem State.memWrite_eq_next (s : State) (addr : Word) (v : Bits32) (t : State) :
    s.memWrite addr v = .next t ↔
      alignmentOk s.cfg addr = true ∧ memValid4 s.cfg addr .write = true ∧ t = s.storeWord addr v := by
  rw [State.memWrite_eq]
  split_ifs with h1 h2
  · simp [h1]
  · simp [h2]
  · simp [Bool.eq_true_of_not_eq_false h1, Bool.eq_true_of_not_eq_false h2, eq_comm]

/-- `MemFetch`: the two exceptions in their order, the refusal of a stored byte, else the word at the pc (R58, R66). -/
theorem State.memFetch_eq (s : State) :
    s.memFetch =
      if aligned4 s.pcVal = false then .fault (.instructionAddressMisaligned s.pcVal)
      else if memValid4 s.cfg s.pcVal .fetch = false then .fault (.instructionAccessFault s.pcVal)
      else if s.storedAt s.pcVal = true then .refused (.fetchOfStoredByte s.pcVal)
      else .next (s.loadWord s.pcVal) := rfl

theorem State.memFetch_eq_next (s : State) (w : Bits32) :
    s.memFetch = .next w ↔
      aligned4 s.pcVal = true ∧ memValid4 s.cfg s.pcVal .fetch = true ∧ s.storedAt s.pcVal = false ∧
        w = s.loadWord s.pcVal := by
  rw [State.memFetch_eq]
  split_ifs with h1 h2 h3
  · simp [h1]
  · simp [h2]
  · simp [h3]
  · simp [Bool.eq_true_of_not_eq_false h1, Bool.eq_true_of_not_eq_false h2, h3, eq_comm]

/-- An address of the word at `addr` is among the stored ones (R66). -/
theorem State.storedAt_iff (s : State) (addr : Word) :
    s.storedAt addr = true ↔ ∃ i < 4, byteAddr s.cfg.xlen addr i ∈ s.stored := by
  simp only [State.storedAt, Bool.or_eq_true, List.contains_iff_mem]
  constructor
  · rintro (((h | h) | h) | h)
    · exact ⟨0, by omega, h⟩
    · exact ⟨1, by omega, h⟩
    · exact ⟨2, by omega, h⟩
    · exact ⟨3, by omega, h⟩
  · rintro ⟨i, hi, h⟩
    interval_cases i <;> simp [h]

/-! ### The shared ends of the instructions -/

theorem finishF_eq (rd : FReg) (r : Bits32 × Flags) (s : State) :
    finishF rd r s = .next (((s.writeF rd r.1).accrue r.2).advance) := rfl

theorem finishX_eq (rd : XReg) (r : Word × Flags) (s : State) :
    finishX rd r s = .next (((s.writeX rd r.1).accrue r.2).advance) := rfl

/-- `f[rd] <- v; accrue(m); pc <- pc + 4` changes what it says and nothing else (R210). -/
theorem finishF_effect (rd : FReg) (r : Bits32 × Flags) (s : State) :
    FpEffect s ((s.writeF rd r.1).accrue r.2).advance rd r.1 r.2 where
  dest := by simp
  otherF q hq := by simp [State.readF_writeF_other s rd q r.1 hq]
  intRegs q := by simp
  frm := rfl
  fflags := rfl
  memory _ := rfl
  stored := rfl
  cfg := rfl
  pc := rfl

/-- `x[rd] <- v; accrue(m); pc <- pc + 4` changes what it says and nothing else (R241, R272). -/
theorem finishX_effect (rd : XReg) (r : Word × Flags) (s : State) (h : truncXlen s.cfg.xlen r.1 = r.1) :
    IntEffect s ((s.writeX rd r.1).accrue r.2).advance rd r.1 r.2 where
  dest hrd := by simp [State.readX_writeX_same s rd r.1 hrd, h]
  zero := rfl
  otherX q hq := by simp [State.readX_writeX_other s rd q r.1 hq]
  fpRegs q := by simp
  frm := by simp
  fflags := by simp
  memory a := by simp
  stored := by simp
  cfg := by simp
  pc := by simp [State.nextPc, State.pcVal]

/-- FSW's byte writes and the step of the pc change what they say and nothing else (R53, R202). -/
theorem storeWord_effect (s : State) (hm : s.mem.wf) (addr : Word) (v : Bits32) :
    StoreEffect s (s.storeWord addr v).advance addr v where
  byte0 := (storeBytes_read s.cfg.xlen s.mem hm addr v).1 0 (by omega)
  byte1 := (storeBytes_read s.cfg.xlen s.mem hm addr v).1 1 (by omega)
  byte2 := (storeBytes_read s.cfg.xlen s.mem hm addr v).1 2 (by omega)
  byte3 := (storeBytes_read s.cfg.xlen s.mem hm addr v).1 3 (by omega)
  otherBytes := (storeBytes_read s.cfg.xlen s.mem hm addr v).2
  stored := mem_addAccess s.cfg.xlen addr s.stored
  intRegs _ := rfl
  fpRegs _ := rfl
  frm := rfl
  fflags := rfl
  cfg := rfl
  pc := rfl

/-! ### The CSR views (R31, R170) -/

/-- A CSR number in scope reads; any other does not (R170, R182). -/
theorem State.csrRead_isSome (s : State) (n : CsrNum) : (s.csrRead n).isSome = csrInScope n := by
  unfold State.csrRead csrInScope
  split_ifs with h1 h2 h3 <;> simp_all

theorem zextXlen_eq (xl : Xlen) {n : Nat} (v : BitVec n) (hn : n ≤ 32) : zextXlen xl v = v.setWidth 64 := by
  cases xl with
  | rv64 => rfl
  | rv32 =>
    apply BitVec.eq_of_toNat_eq
    have hv := v.isLt
    have hp : 2 ^ n ≤ 2 ^ 32 := Nat.pow_le_pow_right (by omega) hn
    simp only [zextXlen, truncXlen, BitVec.toNat_setWidth]
    omega

/-- What the three CSR views read (R31). -/
theorem State.csrRead_fflags (s : State) : s.csrRead 0x001#12 = some (s.fflags.setWidth 64) := by
  simp [State.csrRead, zextXlen_eq]

theorem State.csrRead_frm (s : State) : s.csrRead 0x002#12 = some (s.frm.setWidth 64) := by
  simp [State.csrRead, zextXlen_eq]

theorem State.csrRead_fcsr (s : State) : s.csrRead 0x003#12 = some ((s.frm ++ s.fflags).setWidth 64) := by
  simp [State.csrRead, zextXlen_eq]

theorem csrInstr_inScope (rd : XReg) {n : CsrNum} {t : Word} {s : State} (h : s.csrRead n = some t)
    (upd : Word → Option Word) :
    csrInstr rd n upd s =
      match upd t with
      | none => .next ((s.writeX rd t).advance)
      | some w => .next (((s.csrWrite n w).writeX rd t).advance) := by
  cases hu : upd t <;> simp [csrInstr, h, hu]

theorem csrInstr_outOfScope (rd : XReg) {n : CsrNum} {s : State} (h : s.csrRead n = none) (upd : Word → Option Word) :
    csrInstr rd n upd s = .refused (.csrOutsideSpec n s.pcVal) := by
  simp [csrInstr, h]

/-- A CSR instruction answers a next state exactly on a CSR in scope, and then it is one of these two (R172, R173). -/
theorem csrInstr_eq_next (rd : XReg) (n : CsrNum) (upd : Word → Option Word) (s t : State) :
    csrInstr rd n upd s = .next t ↔
      ∃ old, s.csrRead n = some old ∧
        ((upd old = none ∧ t = (s.writeX rd old).advance) ∨
         ∃ w, upd old = some w ∧ t = ((s.csrWrite n w).writeX rd old).advance) := by
  cases h : s.csrRead n with
  | none => simp [csrInstr_outOfScope rd h]
  | some old =>
    rw [csrInstr_inScope rd h]
    cases hu : upd old <;> simp [hu, eq_comm]

/-- A CSR read gives XLEN bits (R170). -/
theorem State.truncXlen_csrRead (s : State) (n : CsrNum) (t : Word) (h : s.csrRead n = some t) :
    truncXlen s.cfg.xlen t = t := by
  unfold State.csrRead at h
  split_ifs at h <;> (obtain rfl := Option.some.inj h; exact truncXlen_zextXlen _ _)

/-- The end of a CSR instruction changes what it says and nothing else. -/
theorem csrWrite_effect (s : State) (rd : XReg) (n : CsrNum) (w old : Word) (h : truncXlen s.cfg.xlen old = old) :
    CsrEffect s ((s.csrWrite n w).writeX rd old).advance rd old (s.csrWrite n w).frm (s.csrWrite n w).fflags where
  dest hrd := by simp [State.readX_writeX_same _ rd old hrd, h]
  zero := rfl
  otherX q hq := by simp [State.readX_writeX_other _ rd q old hq]
  fpRegs q := by simp
  newFrm := by simp
  newFflags := by simp
  memory a := by simp
  stored := by simp
  cfg := by simp
  pc := by simp [State.nextPc, State.pcVal]

/-- The end of a CSR instruction that writes no CSR. -/
theorem csrKeep_effect (s : State) (rd : XReg) (old : Word) (h : truncXlen s.cfg.xlen old = old) :
    CsrEffect s (s.writeX rd old).advance rd old s.frm s.fflags where
  dest hrd := by simp [State.readX_writeX_same _ rd old hrd, h]
  zero := rfl
  otherX q hq := by simp [State.readX_writeX_other _ rd q old hq]
  fpRegs q := by simp
  newFrm := by simp
  newFflags := by simp
  memory a := by simp
  stored := by simp
  cfg := by simp
  pc := by simp [State.nextPc, State.pcVal]

/-! ### The step -/

/-- Everything a step can do (R25, R326): the harness has ended the run, the fetch stops it, or the fetched word runs. -/
theorem step_eq (s : State) :
    step s = if s.isHalted = true then .refused (.halted s.pcVal) else s.memFetch.bind fun w => runWord w s := rfl

/-- A step that answers a next state has fetched a word that decodes, and executed it. -/
theorem step_eq_next (s t : State) :
    step s = .next t ↔
      s.isHalted = false ∧ ∃ i, s.memFetch = .next (s.loadWord s.pcVal) ∧ decode (s.loadWord s.pcVal) = .ok i ∧
        exec i s = .next t := by
  rw [step_eq]
  by_cases h : s.isHalted = true
  · simp [h]
  · rw [if_neg h, Result.bind_eq_next]
    have hf : s.isHalted = false := by simpa using h
    constructor
    · rintro ⟨w, hw, hr⟩
      obtain ⟨_, _, _, rfl⟩ := (State.memFetch_eq_next s w).mp hw
      refine ⟨hf, ?_⟩
      unfold runWord at hr
      cases hd : decode (s.loadWord s.pcVal) with
      | ok i =>
        rw [hd] at hr
        exact ⟨i, hw, rfl, hr⟩
      | error e =>
        rw [hd] at hr
        cases e <;> simp [State.raise] at hr
    · rintro ⟨_, i, hw, hd, he⟩
      exact ⟨_, hw, by simp [runWord, hd, he]⟩

end Sys2Proof.Machine
end

