-- ==== Sys2Proof/Laws/Exec.lean ====
section
/-! SUPPORT. What an instruction can do, said once: if `exec` answers a next state, it is one of four shapes. Proofs about
every instruction split on these and do not unfold the meanings. -/

namespace Sys2Proof.Machine

@[simp] theorem State.accrue_zero (s : State) : s.accrue 0#5 = s := by
  simp [State.accrue]

/-- If an instruction answers `t`, then it wrote a floating-point register and accrued flags, or an integer register and
accrued flags, or it is FSW, or it is a CSR instruction on a CSR in scope (R210, R241, R202, R172 to R175). -/
theorem exec_cases (i : Instr) (s t : State) (h : exec i s = .next t) :
    (∃ rd v m, i.csr? = none ∧ t = ((s.writeF rd v).accrue m).advance) ∨
    (∃ rd v m, i.csr? = none ∧ t = ((s.writeX rd v).accrue m).advance) ∨
    (∃ rs2 rs1 imm, i = .fsw rs2 rs1 imm ∧ t = (s.storeWord (s.effAddr rs1 imm) (s.readF rs2)).advance) ∨
    (∃ rd n old, i.csr? = some n ∧ s.csrRead n = some old ∧
      (t = (s.writeX rd old).advance ∨ ∃ w, t = ((s.csrWrite n w).writeX rd old).advance)) := by
  cases i with
  | flw rd rs1 imm =>
    obtain ⟨v, _, h⟩ := (Result.bind_eq_next _ _ _).mp h
    obtain rfl := Host.Outcome.next.inj h
    exact .inl ⟨rd, v, 0#5, rfl, by simp⟩
  | fsw rs2 rs1 imm =>
    obtain ⟨u, hu, h⟩ := (Result.bind_eq_next _ _ _).mp h
    obtain ⟨_, _, rfl⟩ := (State.memWrite_eq_next _ _ _ _).mp hu
    obtain rfl := Host.Outcome.next.inj h
    exact .inr (.inr (.inl ⟨rs2, rs1, imm, rfl, rfl⟩))
  | fmaddS =>
    obtain ⟨mode, _, h⟩ := (withMode_eq_next _ _ _ _ _).mp h
    obtain rfl := Host.Outcome.next.inj h
    exact .inl ⟨_, _, _, rfl, rfl⟩
  | fmsubS =>
    obtain ⟨mode, _, h⟩ := (withMode_eq_next _ _ _ _ _).mp h
    obtain rfl := Host.Outcome.next.inj h
    exact .inl ⟨_, _, _, rfl, rfl⟩
  | fnmsubS =>
    obtain ⟨mode, _, h⟩ := (withMode_eq_next _ _ _ _ _).mp h
    obtain rfl := Host.Outcome.next.inj h
    exact .inl ⟨_, _, _, rfl, rfl⟩
  | fnmaddS =>
    obtain ⟨mode, _, h⟩ := (withMode_eq_next _ _ _ _ _).mp h
    obtain rfl := Host.Outcome.next.inj h
    exact .inl ⟨_, _, _, rfl, rfl⟩
  | faddS =>
    obtain ⟨mode, _, h⟩ := (withMode_eq_next _ _ _ _ _).mp h
    obtain rfl := Host.Outcome.next.inj h
    exact .inl ⟨_, _, _, rfl, rfl⟩
  | fsubS =>
    obtain ⟨mode, _, h⟩ := (withMode_eq_next _ _ _ _ _).mp h
    obtain rfl := Host.Outcome.next.inj h
    exact .inl ⟨_, _, _, rfl, rfl⟩
  | fmulS =>
    obtain ⟨mode, _, h⟩ := (withMode_eq_next _ _ _ _ _).mp h
    obtain rfl := Host.Outcome.next.inj h
    exact .inl ⟨_, _, _, rfl, rfl⟩
  | fdivS =>
    obtain ⟨mode, _, h⟩ := (withMode_eq_next _ _ _ _ _).mp h
    obtain rfl := Host.Outcome.next.inj h
    exact .inl ⟨_, _, _, rfl, rfl⟩
  | fsqrtS =>
    obtain ⟨mode, _, h⟩ := (withMode_eq_next _ _ _ _ _).mp h
    obtain rfl := Host.Outcome.next.inj h
    exact .inl ⟨_, _, _, rfl, rfl⟩
  | fcvtSW =>
    obtain ⟨mode, _, h⟩ := (withMode_eq_next _ _ _ _ _).mp h
    obtain rfl := Host.Outcome.next.inj h
    exact .inl ⟨_, _, _, rfl, rfl⟩
  | fcvtSWU =>
    obtain ⟨mode, _, h⟩ := (withMode_eq_next _ _ _ _ _).mp h
    obtain rfl := Host.Outcome.next.inj h
    exact .inl ⟨_, _, _, rfl, rfl⟩
  | fsgnjS =>
    obtain rfl := Host.Outcome.next.inj h
    exact .inl ⟨_, _, _, rfl, rfl⟩
  | fsgnjnS =>
    obtain rfl := Host.Outcome.next.inj h
    exact .inl ⟨_, _, _, rfl, rfl⟩
  | fsgnjxS =>
    obtain rfl := Host.Outcome.next.inj h
    exact .inl ⟨_, _, _, rfl, rfl⟩
  | fminS =>
    obtain rfl := Host.Outcome.next.inj h
    exact .inl ⟨_, _, _, rfl, rfl⟩
  | fmaxS =>
    obtain rfl := Host.Outcome.next.inj h
    exact .inl ⟨_, _, _, rfl, rfl⟩
  | fmvWX =>
    obtain rfl := Host.Outcome.next.inj h
    exact .inl ⟨_, _, _, rfl, rfl⟩
  | fcvtWS =>
    obtain ⟨mode, _, h⟩ := (withMode_eq_next _ _ _ _ _).mp h
    obtain rfl := Host.Outcome.next.inj h
    exact .inr (.inl ⟨_, _, _, rfl, rfl⟩)
  | fcvtWUS =>
    obtain ⟨mode, _, h⟩ := (withMode_eq_next _ _ _ _ _).mp h
    obtain rfl := Host.Outcome.next.inj h
    exact .inr (.inl ⟨_, _, _, rfl, rfl⟩)
  | fcvtLS =>
    obtain ⟨_, h⟩ := (needRv64_eq_next _ _ _ _).mp h
    obtain ⟨mode, _, h⟩ := (withMode_eq_next _ _ _ _ _).mp h
    obtain rfl := Host.Outcome.next.inj h
    exact .inr (.inl ⟨_, _, _, rfl, rfl⟩)
  | fcvtLUS =>
    obtain ⟨_, h⟩ := (needRv64_eq_next _ _ _ _).mp h
    obtain ⟨mode, _, h⟩ := (withMode_eq_next _ _ _ _ _).mp h
    obtain rfl := Host.Outcome.next.inj h
    exact .inr (.inl ⟨_, _, _, rfl, rfl⟩)
  | fcvtSL =>
    obtain ⟨_, h⟩ := (needRv64_eq_next _ _ _ _).mp h
    obtain ⟨mode, _, h⟩ := (withMode_eq_next _ _ _ _ _).mp h
    obtain rfl := Host.Outcome.next.inj h
    exact .inl ⟨_, _, _, rfl, rfl⟩
  | fcvtSLU =>
    obtain ⟨_, h⟩ := (needRv64_eq_next _ _ _ _).mp h
    obtain ⟨mode, _, h⟩ := (withMode_eq_next _ _ _ _ _).mp h
    obtain rfl := Host.Outcome.next.inj h
    exact .inl ⟨_, _, _, rfl, rfl⟩
  | fmvXW =>
    obtain rfl := Host.Outcome.next.inj h
    exact .inr (.inl ⟨_, _, _, rfl, rfl⟩)
  | fclassS =>
    obtain rfl := Host.Outcome.next.inj h
    exact .inr (.inl ⟨_, _, _, rfl, rfl⟩)
  | feqS =>
    obtain rfl := Host.Outcome.next.inj h
    exact .inr (.inl ⟨_, _, _, rfl, rfl⟩)
  | fltS =>
    obtain rfl := Host.Outcome.next.inj h
    exact .inr (.inl ⟨_, _, _, rfl, rfl⟩)
  | fleS =>
    obtain rfl := Host.Outcome.next.inj h
    exact .inr (.inl ⟨_, _, _, rfl, rfl⟩)
  | csrrw rd n u =>
    obtain ⟨old, ho, h⟩ := (csrInstr_eq_next rd n (csrPut (s.readX u)) s t).mp h
    refine .inr (.inr (.inr ⟨rd, n, old, rfl, ho, ?_⟩))
    rcases h with ⟨_, h⟩ | ⟨w, _, h⟩
    · exact .inl h
    · exact .inr ⟨w, h⟩
  | csrrs rd n u =>
    obtain ⟨old, ho, h⟩ := (csrInstr_eq_next rd n (csrSet u (s.readX u)) s t).mp h
    refine .inr (.inr (.inr ⟨rd, n, old, rfl, ho, ?_⟩))
    rcases h with ⟨_, h⟩ | ⟨w, _, h⟩
    · exact .inl h
    · exact .inr ⟨w, h⟩
  | csrrc rd n u =>
    obtain ⟨old, ho, h⟩ := (csrInstr_eq_next rd n (csrClear u (s.readX u)) s t).mp h
    refine .inr (.inr (.inr ⟨rd, n, old, rfl, ho, ?_⟩))
    rcases h with ⟨_, h⟩ | ⟨w, _, h⟩
    · exact .inl h
    · exact .inr ⟨w, h⟩
  | csrrwi rd n u =>
    obtain ⟨old, ho, h⟩ := (csrInstr_eq_next rd n (csrPut (zextXlen s.cfg.xlen u)) s t).mp h
    refine .inr (.inr (.inr ⟨rd, n, old, rfl, ho, ?_⟩))
    rcases h with ⟨_, h⟩ | ⟨w, _, h⟩
    · exact .inl h
    · exact .inr ⟨w, h⟩
  | csrrsi rd n u =>
    obtain ⟨old, ho, h⟩ := (csrInstr_eq_next rd n (csrSet u (zextXlen s.cfg.xlen u)) s t).mp h
    refine .inr (.inr (.inr ⟨rd, n, old, rfl, ho, ?_⟩))
    rcases h with ⟨_, h⟩ | ⟨w, _, h⟩
    · exact .inl h
    · exact .inr ⟨w, h⟩
  | csrrci rd n u =>
    obtain ⟨old, ho, h⟩ := (csrInstr_eq_next rd n (csrClear u (zextXlen s.cfg.xlen u)) s t).mp h
    refine .inr (.inr (.inr ⟨rd, n, old, rfl, ho, ?_⟩))
    rcases h with ⟨_, h⟩ | ⟨w, _, h⟩
    · exact .inl h
    · exact .inr ⟨w, h⟩

/-- Every instruction that completes leaves the parameters alone and steps the pc (R9, R26). -/
theorem exec_cfg_pc (i : Instr) (s t : State) (h : exec i s = .next t) : t.cfg = s.cfg ∧ t.pc = s.nextPc := by
  rcases exec_cases i s t h with ⟨rd, v, m, _, rfl⟩ | ⟨rd, v, m, _, rfl⟩ | ⟨rs2, rs1, imm, _, rfl⟩ |
    ⟨rd, n, old, _, _, rfl | ⟨w, rfl⟩⟩ <;> simp [State.nextPc, State.pcVal]

end Sys2Proof.Machine
end

