-- ==== Sys2Proof/Laws/Numerics.lean ====
section
/-! SUPPORT. The exact arithmetic of `Machine/Numerics.lean` against the real numbers: one spec lemma per function
(integer square root, floor and fraction, scaling, the binary exponent, rounding to an integer: R133, R134, R215). -/

namespace Sys2Proof.Machine

/-! ### The integer square root -/

theorem isqrtFrom_spec (n k acc : Nat) (h1 : acc * acc ≤ n) (h2 : n < (acc + 2 ^ k) * (acc + 2 ^ k)) :
    isqrtFrom n k acc * isqrtFrom n k acc ≤ n ∧ n < (isqrtFrom n k acc + 1) * (isqrtFrom n k acc + 1) := by
  induction k generalizing acc with
  | zero => exact ⟨h1, by simpa [isqrtFrom] using h2⟩
  | succ k ih =>
    unfold isqrtFrom
    split_ifs with h
    · refine ih (acc + 2 ^ k) h ?_
      rwa [show acc + 2 ^ k + 2 ^ k = acc + 2 ^ (k + 1) by ring]
    · exact ih acc h1 (by omega)

/-- `isqrt n` is the greatest `m` with `m * m ≤ n`. -/
theorem isqrt_spec (n : Nat) : isqrt n * isqrt n ≤ n ∧ n < (isqrt n + 1) * (isqrt n + 1) := by
  refine isqrtFrom_spec n _ 0 (by simp) ?_
  have h : n < 2 ^ (n.log2 + 1) := Nat.lt_log2_self
  have h2 : 2 ^ (n.log2 + 1) ≤ 2 ^ ((n.log2 / 2 + 1) + (n.log2 / 2 + 1)) := Nat.pow_le_pow_right (by omega) (by omega)
  rw [Nat.zero_add, ← pow_add]
  omega

/-! ### What a magnitude denotes -/

theorem Mag.Denotes.nonneg {m : Mag} {y : ℝ} (h : m.Denotes y) : 0 ≤ y := by
  cases m with
  | ratio n d =>
    obtain ⟨hd, e⟩ := h
    have hd' : (0 : ℝ) < d := by exact_mod_cast hd
    by_contra hy
    have : y * d < 0 := mul_neg_of_neg_of_pos (by linarith) hd'
    have hn : (0 : ℝ) ≤ n := Nat.cast_nonneg n
    linarith
  | root n d => exact h.2.1

/-- A magnitude is zero exactly when its numerator is (R134). -/
theorem Mag.isZero_iff {m : Mag} {y : ℝ} (h : m.Denotes y) : m.isZero = true ↔ y = 0 := by
  cases m with
  | ratio n d =>
    obtain ⟨hd, e⟩ := h
    have hd' : (d : ℝ) ≠ 0 := by exact_mod_cast hd.ne'
    simp only [Mag.isZero, beq_iff_eq]
    constructor
    · intro hn
      subst hn
      simpa [hd'] using e
    · intro hy
      subst hy
      exact_mod_cast (by simpa using e.symm : (n : ℝ) = 0)
  | root n d =>
    obtain ⟨hd, hy, e⟩ := h
    have hd' : (d : ℝ) ≠ 0 := by exact_mod_cast hd.ne'
    simp only [Mag.isZero, beq_iff_eq]
    constructor
    · intro hn
      subst hn
      simpa [hd'] using e
    · intro hy
      subst hy
      exact_mod_cast (by simpa using e.symm : (n : ℝ) = 0)

theorem two_pow_toNat_div (k : Int) : (2 : ℝ) ^ (-k).toNat / 2 ^ k.toNat = (2 : ℝ) ^ (-k) := by
  rcases le_total 0 k with h | h
  · obtain ⟨j, rfl⟩ := Int.eq_ofNat_of_zero_le h
    simp [zpow_neg]
  · obtain ⟨j, hj⟩ := Int.eq_ofNat_of_zero_le (neg_nonneg.mpr h)
    have hk : k.toNat = 0 := Int.toNat_eq_zero.mpr h
    rw [hj, hk]
    simp

/-- `y / 2^k` (R134). -/
theorem Mag.scale_denotes {m : Mag} {y : ℝ} (h : m.Denotes y) (k : Int) : (m.scale k).Denotes (y * 2 ^ (-k)) := by
  have p1 : (0 : ℝ) < 2 ^ k.toNat := by positivity
  have key := two_pow_toNat_div k
  rw [div_eq_iff p1.ne'] at key
  cases m with
  | ratio n d =>
    obtain ⟨hd, e⟩ := h
    refine ⟨by positivity, ?_⟩
    push_cast
    rw [← e, key]
    ring
  | root n d =>
    obtain ⟨hd, hy, e⟩ := h
    refine ⟨by positivity, by positivity, ?_⟩
    push_cast
    have four : ∀ j : Nat, (4 : ℝ) ^ j = 2 ^ j * 2 ^ j := fun j => by
      rw [← mul_pow]
      norm_num
    rw [← e, four, four, key]
    ring

/-! ### Floor and fraction (R133, R215) -/

/-- `floor(y)` (R133). -/
theorem Mag.floor_spec {m : Mag} {y : ℝ} (h : m.Denotes y) : (m.floor : ℝ) ≤ y ∧ y < m.floor + 1 := by
  cases m with
  | ratio n d =>
    obtain ⟨hd, e⟩ := h
    have hd' : (0 : ℝ) < d := by exact_mod_cast hd
    have h1 : n / d * d ≤ n := Nat.div_mul_le_self n d
    have h2 : n < (n / d + 1) * d := by
      rw [mul_comm]
      exact Nat.lt_mul_div_succ n hd
    have h1' : ((n / d : ℕ) : ℝ) * d ≤ n := by exact_mod_cast h1
    have h2' : (n : ℝ) < ((n / d : ℕ) + 1) * d := by exact_mod_cast h2
    rw [← e] at h1' h2'
    exact ⟨le_of_mul_le_mul_right h1' hd', lt_of_mul_lt_mul_right h2' hd'.le⟩
  | root n d =>
    obtain ⟨hd, hy, e⟩ := h
    have hd' : (0 : ℝ) < d := by exact_mod_cast hd
    obtain ⟨s1, s2⟩ := isqrt_spec (n / d)
    have h1 : isqrt (n / d) * isqrt (n / d) * d ≤ n := le_trans (Nat.mul_le_mul_right d s1) (Nat.div_mul_le_self n d)
    have h2 : n < (isqrt (n / d) + 1) * (isqrt (n / d) + 1) * d := by
      rw [mul_comm _ d]
      exact lt_of_lt_of_le (Nat.lt_mul_div_succ n hd) (Nat.mul_le_mul_left d s2)
    have h1' : (isqrt (n / d) : ℝ) * isqrt (n / d) * d ≤ y * y * d := by
      rw [e]
      exact_mod_cast h1
    have h2' : y * y * d < ((isqrt (n / d) : ℝ) + 1) * (isqrt (n / d) + 1) * d := by
      rw [e]
      exact_mod_cast h2
    have h1'' := le_of_mul_le_mul_right h1' hd'
    have h2'' := lt_of_mul_lt_mul_right h2' hd'.le
    have f0 : (0 : ℝ) ≤ isqrt (n / d) := Nat.cast_nonneg _
    exact ⟨(mul_self_le_mul_self_iff f0 hy).mpr h1'', (mul_self_lt_mul_self_iff hy (by linarith)).mpr h2''⟩

/-- What a fraction of each kind says of the number and its floor (R133). -/
def Rest.Describes : Rest → ℝ → Prop
  | .zero, r => r = 0
  | .below, r => 0 < r ∧ r < 1 / 2
  | .half, r => r = 1 / 2
  | .above, r => 1 / 2 < r

theorem restOf_describes {isInt : Bool} {a b : Nat} {r : ℝ} (h0 : isInt = true ↔ r = 0) (hr : 0 ≤ r)
    (hlt : a < b ↔ r < 1 / 2) (heq : a = b ↔ r = 1 / 2) : (restOf isInt a b).Describes r := by
  unfold restOf
  split_ifs with h1 h2 h3
  · exact h0.mp h1
  · exact ⟨lt_of_le_of_ne hr fun e => h1 (h0.mpr e.symm), hlt.mp h2⟩
  · exact heq.mp h3
  · have h4 : ¬ r < 1 / 2 := fun e => h2 (hlt.mpr e)
    have h5 : r ≠ 1 / 2 := fun e => h3 (heq.mpr e)
    exact lt_of_le_of_ne (not_lt.mp h4) h5.symm

/-- The fraction of `y` against 0 and 1/2 (R133, R215). -/
theorem Mag.rest_spec {m : Mag} {y : ℝ} (h : m.Denotes y) : m.rest.Describes (y - m.floor) := by
  have hfl := Mag.floor_spec h
  cases m with
  | ratio n d =>
    obtain ⟨hd, e⟩ := h
    have hd' : (0 : ℝ) < d := by exact_mod_cast hd
    have hmod : ((n % d : ℕ) : ℝ) = (y - (n / d : ℕ)) * d := by
      have : ((d * (n / d) + n % d : ℕ) : ℝ) = n := by rw [Nat.div_add_mod]
      push_cast at this
      rw [sub_mul, e, ← this]
      ring
    refine restOf_describes ?_ (by have := hfl.1; simp only [Mag.floor] at this ⊢; linarith) ?_ ?_
    · rw [beq_iff_eq, ← Nat.cast_inj (R := ℝ), hmod]
      simp [Mag.floor, hd'.ne']
    · rw [← Nat.cast_lt (α := ℝ)]
      push_cast
      rw [hmod]
      simp only [Mag.floor]
      constructor <;> intro hh <;> nlinarith
    · rw [← Nat.cast_inj (R := ℝ)]
      push_cast
      rw [hmod]
      simp only [Mag.floor]
      constructor
      · intro hh
        have : (2 * (y - (n / d : ℕ)) - 1) * (d : ℝ) = 0 := by linarith
        rcases mul_eq_zero.mp this with h0 | h0
        · linarith
        · exact absurd h0 hd'.ne'
      · intro hh
        rw [hh]
        ring
  | root n d =>
    obtain ⟨hd, hy, e⟩ := h
    have hd' : (0 : ℝ) < d := by exact_mod_cast hd
    simp only [Mag.floor] at hfl
    have f0 : (0 : ℝ) ≤ isqrt (n / d) := Nat.cast_nonneg _
    have sq : ∀ z : ℝ, 0 ≤ z → (y = z ↔ y * y = z * z) := fun z hz => (mul_self_inj hy hz).symm
    have sqlt : ∀ z : ℝ, 0 ≤ z → (y < z ↔ y * y < z * z) := fun z hz => (mul_self_lt_mul_self_iff hy hz)
    refine restOf_describes ?_ (by simp only [Mag.floor]; linarith [hfl.1]) ?_ ?_
    · rw [beq_iff_eq, ← Nat.cast_inj (R := ℝ)]
      push_cast
      rw [← e, sub_eq_zero]
      simp only [Mag.floor]
      rw [sq _ f0]
      constructor
      · intro hh
        exact (mul_right_cancel₀ hd'.ne' hh).symm
      · intro hh
        rw [hh]
    · rw [← Nat.cast_lt (α := ℝ)]
      push_cast
      rw [← e]
      simp only [Mag.floor]
      rw [sub_lt_iff_lt_add', sqlt _ (by linarith)]
      constructor
      · intro hh
        have : (4 * (y * y)) * (d : ℝ) < ((2 * (isqrt (n / d) : ℝ) + 1) * (2 * isqrt (n / d) + 1)) * d := by linarith
        have := lt_of_mul_lt_mul_right this hd'.le
        nlinarith
      · intro hh
        have : (4 * (y * y)) < ((2 * (isqrt (n / d) : ℝ) + 1) * (2 * isqrt (n / d) + 1)) := by nlinarith
        have := mul_lt_mul_of_pos_right this hd'
        linarith
    · rw [← Nat.cast_inj (R := ℝ)]
      push_cast
      rw [← e]
      simp only [Mag.floor]
      rw [sub_eq_iff_eq_add', sq _ (by linarith)]
      constructor
      · intro hh
        have : (4 * (y * y)) * (d : ℝ) = ((2 * (isqrt (n / d) : ℝ) + 1) * (2 * isqrt (n / d) + 1)) * d := by linarith
        have := mul_right_cancel₀ hd'.ne' this
        nlinarith
      · intro hh
        have : (4 * (y * y)) = ((2 * (isqrt (n / d) : ℝ) + 1) * (2 * isqrt (n / d) + 1)) := by nlinarith
        rw [show 4 * (y * y * (d : ℝ)) = 4 * (y * y) * d by ring, this]

/-! ### The binary exponent (R134) -/

theorem ratioLog2_spec (n d : Nat) (hn : 0 < n) (hd : 0 < d) :
    (2 : ℝ) ^ ratioLog2 n d * d ≤ n ∧ (n : ℝ) < 2 ^ (ratioLog2 n d + 1) * d := by
  have n1 : (2 : ℝ) ^ (n.log2 : ℤ) ≤ n := by
    rw [zpow_natCast]
    exact_mod_cast Nat.log2_self_le hn.ne'
  have n2 : (n : ℝ) < 2 ^ ((n.log2 : ℤ) + 1) := by
    rw [show ((n.log2 : ℤ) + 1) = ((n.log2 + 1 : ℕ) : ℤ) by simp, zpow_natCast]
    exact_mod_cast Nat.lt_log2_self
  have d1 : (2 : ℝ) ^ (d.log2 : ℤ) ≤ d := by
    rw [zpow_natCast]
    exact_mod_cast Nat.log2_self_le hd.ne'
  have d2 : (d : ℝ) < 2 ^ ((d.log2 : ℤ) + 1) := by
    rw [show ((d.log2 : ℤ) + 1) = ((d.log2 + 1 : ℕ) : ℤ) by simp, zpow_natCast]
    exact_mod_cast Nat.lt_log2_self
  have hd' : (0 : ℝ) < d := by exact_mod_cast hd
  set l : ℤ := (n.log2 : ℤ) - d.log2 with hl
  have two : (2 : ℝ) ≠ 0 := by norm_num
  have up : (n : ℝ) < 2 ^ (l + 1) * d := by
    calc (n : ℝ) < 2 ^ ((n.log2 : ℤ) + 1) := n2
      _ = 2 ^ (l + 1) * 2 ^ (d.log2 : ℤ) := by
        rw [← zpow_add₀ two]
        congr 1
        omega
      _ ≤ 2 ^ (l + 1) * d := by gcongr
  have low : (2 : ℝ) ^ (l - 1) * d ≤ n := by
    calc (2 : ℝ) ^ (l - 1) * d ≤ 2 ^ (l - 1) * 2 ^ ((d.log2 : ℤ) + 1) := by gcongr
      _ = 2 ^ (n.log2 : ℤ) := by
        rw [← zpow_add₀ two]
        congr 1
        omega
      _ ≤ n := n1
  have test : d * 2 ^ l.toNat ≤ n * 2 ^ (-l).toNat ↔ (2 : ℝ) ^ l * d ≤ n := by
    have key := two_pow_toNat_div (-l)
    rw [neg_neg] at key
    have p : (0 : ℝ) < 2 ^ (-l).toNat := by positivity
    rw [← key, ← Nat.cast_le (α := ℝ)]
    push_cast
    rw [div_mul_eq_mul_div, div_le_iff₀ p, mul_comm (d : ℝ)]
  unfold ratioLog2
  simp only [← hl]
  split_ifs with h
  · exact ⟨test.mp h, up⟩
  · refine ⟨low, ?_⟩
    rw [sub_add_cancel]
    exact not_le.mp fun e => h (test.mpr e)

/-- `2^e ≤ y < 2^(e+1)` for `e = floor(log2(y))` (R134). -/
theorem Mag.ilog2_spec {m : Mag} {y : ℝ} (h : m.Denotes y) (hy : 0 < y) :
    (2 : ℝ) ^ m.ilog2 ≤ y ∧ y < 2 ^ (m.ilog2 + 1) := by
  have two : (2 : ℝ) ≠ 0 := by norm_num
  cases m with
  | ratio n d =>
    obtain ⟨hd, e⟩ := h
    have hd' : (0 : ℝ) < d := by exact_mod_cast hd
    have hn : 0 < n := by
      have : (0 : ℝ) < n := by rw [← e]; positivity
      exact_mod_cast this
    obtain ⟨l1, l2⟩ := ratioLog2_spec n d hn hd
    rw [← e] at l1 l2
    exact ⟨le_of_mul_le_mul_right l1 hd', lt_of_mul_lt_mul_right l2 hd'.le⟩
  | root n d =>
    obtain ⟨hd, hy0, e⟩ := h
    have hd' : (0 : ℝ) < d := by exact_mod_cast hd
    have hn : 0 < n := by
      have : (0 : ℝ) < n := by rw [← e]; positivity
      exact_mod_cast this
    obtain ⟨l1, l2⟩ := ratioLog2_spec n d hn hd
    rw [← e] at l1 l2
    have l1 := le_of_mul_le_mul_right l1 hd'
    have l2 := lt_of_mul_lt_mul_right l2 hd'.le
    simp only [Mag.ilog2]
    set l := ratioLog2 n d
    constructor
    · refine (mul_self_le_mul_self_iff (by positivity) hy0).mpr (le_trans ?_ l1)
      rw [← zpow_add₀ two]
      exact zpow_le_zpow_right₀ (by norm_num) (by omega)
    · refine (mul_self_lt_mul_self_iff hy0 (by positivity)).mpr (lt_of_lt_of_le l2 ?_)
      rw [← zpow_add₀ two]
      exact zpow_le_zpow_right₀ (by norm_num) (by omega)

/-! ### Rounding to an integer (R133) -/

/-- The rounded integer is the floor or the next one, and the floor when the number is an integer (R133). -/
theorem roundInt_eq_or (mode : RoundMode) (neg : Bool) (y : Mag) :
    roundInt mode neg y = y.floor ∨ (roundInt mode neg y = y.floor + 1 ∧ y.rest ≠ .zero) := by
  unfold roundInt
  cases y.rest <;> cases mode <;> cases neg <;> simp <;> omega

/-- The rounded integer is within one of the number. -/
theorem roundInt_close (mode : RoundMode) (neg : Bool) {m : Mag} {y : ℝ} (h : m.Denotes y) :
    |(roundInt mode neg m : ℝ) - y| < 1 := by
  obtain ⟨f1, f2⟩ := Mag.floor_spec h
  rcases roundInt_eq_or mode neg m with e | ⟨e, hr⟩
  · rw [e, abs_lt]
    constructor <;> linarith
  · have hlt : (m.floor : ℝ) < y := by
      refine lt_of_le_of_ne f1 fun e0 => hr ?_
      have := Mag.rest_spec h
      rw [← e0, sub_self] at this
      cases hc : m.rest with
      | zero => rfl
      | below =>
        rw [hc] at this
        exact absurd this.1 (lt_irrefl _)
      | half =>
        rw [hc] at this
        simp [Rest.Describes] at this
      | above =>
        rw [hc] at this
        simp only [Rest.Describes] at this
        norm_num at this
    rw [e, abs_lt]
    push_cast
    constructor <;> linarith

end Sys2Proof.Machine
end

