-- ==== Sys2Proof/Laws/Patterns.lean ====
section
/-! SUPPORT. Patterns and their values: the fields of a packed pattern (R121), the value of a pattern in units of 2^-149
(R123), the spacing of the finite values, and the encoding step of `round_f32` (R134 step E). -/

namespace Sys2Proof.Machine

/-! ### Fields (R121) -/

@[simp] theorem fsign_pack (s : Bool) (e : BitVec 8) (m : BitVec 23) : fsign (pack s e m) = s := by
  simp only [fsign, pack, BitVec.getLsbD_append, BitVec.getLsbD_ofBool]
  simp

@[simp] theorem fexp_pack (s : Bool) (e : BitVec 8) (m : BitVec 23) : fexp (pack s e m) = e := by
  apply BitVec.eq_of_getLsbD_eq
  intro i hi
  simp only [fexp, pack, BitVec.getLsbD_extractLsb', BitVec.getLsbD_append]
  grind

@[simp] theorem ffrac_pack (s : Bool) (e : BitVec 8) (m : BitVec 23) : ffrac (pack s e m) = m := by
  apply BitVec.eq_of_getLsbD_eq
  intro i hi
  simp only [ffrac, pack, BitVec.getLsbD_extractLsb', BitVec.getLsbD_append]
  grind

/-- A pattern is its three fields. -/
theorem pack_fields (b : Bits32) : pack (fsign b) (fexp b) (ffrac b) = b := by
  apply BitVec.eq_of_getLsbD_eq
  intro i hi
  simp only [fsign, fexp, ffrac, pack, BitVec.getLsbD_extractLsb', BitVec.getLsbD_append, BitVec.getLsbD_ofBool]
  by_cases h : i = 31
  · subst h
    simp
  · grind

theorem getLsbD_zero_pack (s : Bool) (e : BitVec 8) (m : BitVec 23) : (pack s e m).getLsbD 0 = m.getLsbD 0 := by
  simp only [pack, BitVec.getLsbD_append]
  simp

/-- The six classes exhaust the patterns (R122): zero, subnormal, normal, infinity, NaN. -/
theorem class_cases (b : Bits32) :
    isZero b = true ∨ isSubnormal b = true ∨ isNormal b = true ∨ isInf b = true ∨ isNaN b = true := by
  simp only [isZero, isSubnormal, isNormal, isInf, isNaN, Bool.and_eq_true, beq_iff_eq, bne_iff_ne]
  tauto

theorem isFinite_iff (b : Bits32) : isFinite b = true ↔ isInf b = false ∧ isNaN b = false := by
  by_cases h : ffrac b = 0#23 <;> simp [isFinite, isInf, isNaN, h]

/-! ### Values (R123) -/

/-- The magnitude of `val(b)` in units of 2^-149. -/
theorem fval_eq_units (b : Bits32) : fval b = (units b : ℚ) / 2 ^ 149 := by
  have mag : (if fexp b = 0#8 then ((ffrac b).toNat : ℚ) * 2 ^ (-149 : ℤ)
      else ((2 ^ 23 + (ffrac b).toNat : ℕ) : ℚ) * 2 ^ (((fexp b).toNat : ℤ) - 150)) = (magUnits b : ℚ) / 2 ^ 149 := by
    unfold magUnits
    split_ifs with h
    · rw [zpow_neg, div_eq_mul_inv]
      norm_cast
    · have he : 1 ≤ (fexp b).toNat := by
        rcases Nat.eq_zero_or_pos (fexp b).toNat with h0 | h0
        · exact absurd (BitVec.eq_of_toNat_eq (by simpa using h0)) h
        · exact h0
      obtain ⟨j, hj⟩ := Nat.exists_eq_add_of_le he
      rw [hj, show ((1 + j : ℕ) : ℤ) - 150 = (j : ℤ) - 149 by push_cast; ring, zpow_sub₀ (by norm_num),
        show 1 + j - 1 = j by omega]
      push_cast
      rw [zpow_natCast, ← mul_div_assoc]
      norm_cast
  unfold fval units
  rw [mag]
  cases fsign b <;> simp [neg_div]

theorem units_eq_zero_iff (b : Bits32) : units b = 0 ↔ isZero b = true := by
  have hm : magUnits b = 0 ↔ isZero b = true := by
    unfold magUnits isZero
    split_ifs with h
    · simp only [h, beq_self_eq_true, Bool.true_and, beq_iff_eq]
      constructor
      · intro e
        exact BitVec.eq_of_toNat_eq (by simpa using e)
      · intro e
        rw [e]
        rfl
    · simp [h]
  unfold units
  split_ifs <;> simp [hm]

/-- `val(b) = 0` exactly for the two zeros (R123). -/
theorem fval_eq_zero_iff (b : Bits32) : fval b = 0 ↔ isZero b = true := by
  rw [fval_eq_units, div_eq_zero_iff, ← units_eq_zero_iff b]
  norm_num

theorem abs_units (b : Bits32) : |units b| = magUnits b := by
  unfold units
  split_ifs <;> simp

/-- The exact magnitude of a pattern, as the model carries it, denotes the absolute value (R123). -/
theorem magUnits_denotes (b : Bits32) : (Mag.ratio (magUnits b) (2 ^ 149)).Denotes |(fval b : ℝ)| := by
  refine ⟨by positivity, ?_⟩
  rw [fval_eq_units, Nat.cast_pow, Nat.cast_ofNat, Rat.cast_div, Rat.cast_intCast, Rat.cast_pow, Rat.cast_ofNat]
  have p : (0 : ℝ) < 2 ^ 149 := by positivity
  have hu : |((units b : ℤ) : ℝ)| = (magUnits b : ℝ) := by
    rw [← Int.cast_abs, abs_units]
    norm_cast
  rw [abs_div, abs_of_pos p, hu, div_mul_cancel₀ _ p.ne']

/-- The sign of a nonzero value is the sign bit. -/
theorem fval_neg_iff (b : Bits32) (h : fval b ≠ 0) : fval b < 0 ↔ fsign b = true := by
  have hu : units b ≠ 0 := fun e => h (by rw [fval_eq_units, e]; simp)
  have hm : 0 < magUnits b := by
    have := abs_units b
    have h2 : 0 < |units b| := abs_pos.mpr hu
    omega
  rw [fval_eq_units, div_lt_iff₀ (by positivity), zero_mul]
  unfold units
  cases fsign b
  · simp
  · simpa using hm

/-! ### The spacing of the finite values -/

theorem fval_abs (b : Bits32) :
    |fval b| = if fexp b = 0#8 then ((ffrac b).toNat : ℚ) * 2 ^ (-149 : ℤ)
      else ((2 ^ 23 + (ffrac b).toNat : ℕ) : ℚ) * 2 ^ (((fexp b).toNat : ℤ) - 150) := by
  have s : |(if fsign b = true then (-1 : ℚ) else 1)| = 1 := by cases fsign b <;> simp
  unfold fval
  rw [abs_mul, s, one_mul, abs_of_nonneg]
  split_ifs <;> positivity

/-- Every finite value is a multiple of 2^-149. -/
theorem fval_multiple (b : Bits32) : ∃ k : ℤ, fval b = k * 2 ^ (-149 : ℤ) :=
  ⟨units b, by rw [fval_eq_units, zpow_neg, div_eq_mul_inv]; norm_cast⟩

/-- A finite value of magnitude at least 2^(q+23) is a multiple of 2^q: the precision is 24 bits (R121). -/
theorem fval_multiple_of_le (b : Bits32) (q : ℤ) (hq : -149 ≤ q) (h : (2 : ℚ) ^ (q + 23) ≤ |fval b|) :
    ∃ k : ℤ, fval b = k * 2 ^ q := by
  have two : (2 : ℚ) ≠ 0 := by norm_num
  have fr : ((ffrac b).toNat : ℚ) < 2 ^ (23 : ℤ) := by
    have := (ffrac b).isLt
    exact_mod_cast this
  rw [fval_abs] at h
  have key : q = -149 ∨ (fexp b ≠ 0#8 ∧ q ≤ ((fexp b).toNat : ℤ) - 150) := by
    split_ifs at h with h0
    · left
      have : (2 : ℚ) ^ (q + 23) < 2 ^ (23 : ℤ) * 2 ^ (-149 : ℤ) := lt_of_le_of_lt h (by gcongr)
      rw [← zpow_add₀ two] at this
      have := (zpow_lt_zpow_iff_right₀ (by norm_num : (1 : ℚ) < 2)).mp this
      omega
    · right
      refine ⟨h0, ?_⟩
      have : (2 : ℚ) ^ (q + 23) < 2 ^ (24 : ℤ) * 2 ^ (((fexp b).toNat : ℤ) - 150) := by
        refine lt_of_le_of_lt h ?_
        gcongr
        push_cast
        have : (2 : ℚ) ^ (24 : ℤ) = 2 ^ 23 + 2 ^ (23 : ℤ) := by norm_num
        linarith
      rw [← zpow_add₀ two] at this
      have := (zpow_lt_zpow_iff_right₀ (by norm_num : (1 : ℚ) < 2)).mp this
      omega
  rcases key with rfl | ⟨h0, hle⟩
  · exact fval_multiple b
  · obtain ⟨j, hj⟩ := Int.eq_ofNat_of_zero_le (sub_nonneg.mpr hle)
    refine ⟨(if fsign b then -1 else 1) * ((2 ^ 23 + (ffrac b).toNat : ℕ) * 2 ^ j : ℕ), ?_⟩
    unfold fval
    have hj' : ((fexp b).toNat : ℤ) - 150 = (j : ℤ) + q := by
      have : ((fexp b).toNat : ℤ) - 150 - q = (j : ℤ) := hj
      omega
    rw [if_neg h0, hj', zpow_add₀ two, zpow_natCast]
    cases fsign b <;> push_cast <;> simp <;> ring

/-! ### The encoding step (R134 step E) -/

/-- What `encodeMag` delivers for a magnitude in range: a finite pattern of the sign, of value `± m * 2^(eb-23)`, whose
last bit is the parity of `m`. -/
theorem encodeMag_spec (s : Bool) (eb : ℤ) (m : ℕ) (h1 : -126 ≤ eb) (h2 : eb ≤ 127) (hm : m ≤ 2 ^ 24)
    (hsub : m < 2 ^ 23 → eb = -126) (hcarry : m = 2 ^ 24 → eb ≤ 126) :
    isFinite (encodeMag s eb m) = true ∧ fsign (encodeMag s eb m) = s ∧
    fval (encodeMag s eb m) = (if s then -1 else 1) * (m * 2 ^ (eb - 23)) ∧
    (encodeMag s eb m).getLsbD 0 = decide (m % 2 = 1) := by
  have ofInt : ∀ k : ℤ, 1 ≤ k → k ≤ 254 → (BitVec.ofInt 8 k).toNat = k.toNat ∧ BitVec.ofInt 8 k ≠ 0#8 ∧
      BitVec.ofInt 8 k ≠ 255#8 := by
    intro k k1 k2
    obtain ⟨n, rfl⟩ := Int.eq_ofNat_of_zero_le (by omega : 0 ≤ k)
    have e : (BitVec.ofInt 8 (n : ℤ)).toNat = n := by
      rw [BitVec.ofInt_natCast, BitVec.toNat_ofNat]
      omega
    refine ⟨by simpa using e, fun e2 => ?_, fun e2 => ?_⟩ <;> rw [e2] at e <;> simp at e <;> omega
  unfold encodeMag
  by_cases c1 : m < 2 ^ 23
  · -- zero or subnormal
    rw [if_pos c1]
    obtain rfl := hsub c1
    have e : (BitVec.ofNat 23 m).toNat = m := by
      rw [BitVec.toNat_ofNat]
      omega
    refine ⟨by simp [isFinite], by simp, ?_, ?_⟩
    · unfold fval
      rw [fsign_pack, fexp_pack, ffrac_pack, if_pos rfl, e, show (-126 - 23 : ℤ) = -149 by norm_num]
    · rw [getLsbD_zero_pack, ← BitVec.testBit_toNat, e, Nat.testBit_zero]
  rw [if_neg c1]
  by_cases c2 : m < 2 ^ 24
  · -- normal
    rw [if_pos c2]
    obtain ⟨x1, x2, x3⟩ := ofInt (eb + 127) (by omega) (by omega)
    have e : (BitVec.ofNat 23 (m - 2 ^ 23)).toNat = m - 2 ^ 23 := by
      rw [BitVec.toNat_ofNat]
      omega
    refine ⟨by simp [isFinite, x3], by simp, ?_, ?_⟩
    · unfold fval
      have hm2 : 2 ^ 23 + (m - 2 ^ 23) = m := by omega
      have hx : ((eb + 127).toNat : ℤ) - 150 = eb - 23 := by omega
      rw [fsign_pack, fexp_pack, ffrac_pack, if_neg x2, e, x1, hx, hm2]
    · rw [getLsbD_zero_pack, ← BitVec.testBit_toNat, e, Nat.testBit_zero]
      rw [decide_eq_decide]
      omega
  · -- carried into the next binade
    rw [if_neg c2]
    have hm' : m = 2 ^ 24 := by omega
    obtain ⟨x1, x2, x3⟩ := ofInt (eb + 128) (by omega) (by have := hcarry hm'; omega)
    refine ⟨by simp [isFinite, x3], by simp, ?_, ?_⟩
    · unfold fval
      rw [fsign_pack, fexp_pack, ffrac_pack, if_neg x2, x1, Int.toNat_of_nonneg (by omega), hm',
        show eb + 128 - 150 = (eb - 23) + 1 by ring, zpow_add₀ (by norm_num)]
      simp only [BitVec.toNat_ofNat]
      push_cast
      ring
    · rw [getLsbD_zero_pack, hm']
      simp

end Sys2Proof.Machine
end

