-- ==== Sys2Proof/Laws/PerInstr.lean ====
section
/-! SUPPORT. Statements about every instruction as syntax, one lemma per constructor of `Instr`. `RowMatch`: the encoded
word is a word of the instruction's row of the opcode map (R88, R171). -/

namespace Sys2Proof.Laws.RowMatch

/-- The word of an instruction matches the row of the instruction. -/
def Statement (i : Instr) : Prop := encode i &&& i.row.mask = i.row.pattern

theorem and_ones5 (b : BitVec 5) : b &&& 31#5 = b := by
  revert b
  decide
theorem and_ones2 (b : BitVec 2) : b &&& 3#2 = b := by
  revert b
  decide
theorem and_ones3 (b : BitVec 3) : b &&& 7#3 = b := by
  revert b
  decide
theorem and_ones7 (b : BitVec 7) : b &&& 127#7 = b := by
  revert b
  decide

/-- Masking an R word masks its fields. -/
theorem wordR_and (a b c d a' b' c' d' : BitVec 5) (m m' : BitVec 2) (f f' : BitVec 3) (o o' : BitVec 7) :
    wordR a m b c f d o &&& wordR a' m' b' c' f' d' o' =
      wordR (a &&& a') (m &&& m') (b &&& b') (c &&& c') (f &&& f') (d &&& d') (o &&& o') := by
  apply BitVec.eq_of_getLsbD_eq
  intro i hi
  simp only [wordR, BitVec.getLsbD_and, BitVec.getLsbD_append]
  split_ifs <;> simp

theorem wordI_and (a a' : BitVec 12) (c d c' d' : BitVec 5) (f f' : BitVec 3) (o o' : BitVec 7) :
    wordI a c f d o &&& wordI a' c' f' d' o' = wordI (a &&& a') (c &&& c') (f &&& f') (d &&& d') (o &&& o') := by
  apply BitVec.eq_of_getLsbD_eq
  intro i hi
  simp only [wordI, BitVec.getLsbD_and, BitVec.getLsbD_append]
  split_ifs <;> simp

/-- An R word under the mask of `funct5`, `fmt` and the opcode. -/
theorem funct5_fmt_opcode (a b c d : BitVec 5) (f : BitVec 3) (m : BitVec 2) (o : BitVec 7) :
    wordR a m b c f d o &&& 0xfe00007f#32 = wordR a m 0 0 0 0 o := by
  have h : (0xfe00007f#32 : Bits32) = wordR 31#5 3#2 0#5 0#5 0#3 0#5 127#7 := by decide
  rw [h, wordR_and]
  simp only [and_ones5, and_ones2, and_ones7, BitVec.and_zero]
  rfl

/-- The same with the selector. -/
theorem funct5_fmt_selector_opcode (a b c d : BitVec 5) (f : BitVec 3) (m : BitVec 2) (o : BitVec 7) :
    wordR a m b c f d o &&& 0xfe00707f#32 = wordR a m 0 0 f 0 o := by
  have h : (0xfe00707f#32 : Bits32) = wordR 31#5 3#2 0#5 0#5 7#3 0#5 127#7 := by decide
  rw [h, wordR_and]
  simp only [and_ones5, and_ones2, and_ones3, and_ones7, BitVec.and_zero]
  rfl

/-- The same with `rs2`. -/
theorem funct5_fmt_rs2_opcode (a b c d : BitVec 5) (f : BitVec 3) (m : BitVec 2) (o : BitVec 7) :
    wordR a m b c f d o &&& 0xfff0007f#32 = wordR a m b 0 0 0 o := by
  have h : (0xfff0007f#32 : Bits32) = wordR 31#5 3#2 31#5 0#5 0#3 0#5 127#7 := by decide
  rw [h, wordR_and]
  simp only [and_ones5, and_ones2, and_ones7, BitVec.and_zero]
  rfl

/-- The same with `rs2` and the selector. -/
theorem funct5_fmt_rs2_selector_opcode (a b c d : BitVec 5) (f : BitVec 3) (m : BitVec 2) (o : BitVec 7) :
    wordR a m b c f d o &&& 0xfff0707f#32 = wordR a m b 0 f 0 o := by
  have h : (0xfff0707f#32 : Bits32) = wordR 31#5 3#2 31#5 0#5 7#3 0#5 127#7 := by decide
  rw [h, wordR_and]
  simp only [and_ones5, and_ones2, and_ones3, and_ones7, BitVec.and_zero]
  rfl

/-- An R4 word under the mask of `fmt` and the opcode. -/
theorem fmt_opcode (a b c d : BitVec 5) (f : BitVec 3) (m : BitVec 2) (o : BitVec 7) :
    wordR a m b c f d o &&& 0x0600007f#32 = wordR 0 m 0 0 0 0 o := by
  have h : (0x0600007f#32 : Bits32) = wordR 0#5 3#2 0#5 0#5 0#3 0#5 127#7 := by decide
  rw [h, wordR_and]
  simp only [and_ones2, and_ones7, BitVec.and_zero]
  rfl

/-- An I word under the mask of the width and the opcode. -/
theorem width_opcode (a : BitVec 12) (c d : BitVec 5) (f : BitVec 3) (o : BitVec 7) :
    wordI a c f d o &&& 0x0000707f#32 = wordI 0 0 f 0 o := by
  have h : (0x0000707f#32 : Bits32) = wordI 0#12 0#5 7#3 0#5 127#7 := by decide
  rw [h, wordI_and]
  simp only [and_ones3, and_ones7, BitVec.and_zero]
  rfl

/-- An S word is the R word of its immediate's two parts. -/
theorem wordS_eq_wordR (imm : BitVec 12) (b c : BitVec 5) (f : BitVec 3) (o : BitVec 7) :
    wordS imm b c f o = wordR (imm.extractLsb' 7 5) (imm.extractLsb' 5 2) b c f (imm.extractLsb' 0 5) o := by
  apply BitVec.eq_of_getLsbD_eq
  intro i hi
  simp only [wordS, wordR, BitVec.getLsbD_extractLsb', BitVec.getLsbD_append]
  grind

/-- An S word under the mask of the width and the opcode. -/
theorem store_width_opcode (a b c d : BitVec 5) (f : BitVec 3) (m : BitVec 2) (o : BitVec 7) :
    wordR a m b c f d o &&& 0x0000707f#32 = wordR 0 0 0 0 f 0 o := by
  have h : (0x0000707f#32 : Bits32) = wordR 0#5 0#2 0#5 0#5 7#3 0#5 127#7 := by decide
  rw [h, wordR_and]
  simp only [and_ones3, and_ones7, BitVec.and_zero]
  rfl

theorem flw (rd : FReg) (rs1 : XReg) (imm : BitVec 12) : Statement (.flw rd rs1 imm) := by
  simp only [Statement, encode, Instr.row]
  rw [width_opcode]
  rfl

theorem fsw (rs2 : FReg) (rs1 : XReg) (imm : BitVec 12) : Statement (.fsw rs2 rs1 imm) := by
  simp only [Statement, encode, Instr.row]
  rw [wordS_eq_wordR, store_width_opcode]
  rfl

theorem fmaddS (rd rs1 rs2 rs3 : FReg) (rm : RmField) : Statement (.fmaddS rd rs1 rs2 rs3 rm) := by
  simp only [Statement, encode, Instr.row]
  rw [fmt_opcode]
  rfl

theorem fmsubS (rd rs1 rs2 rs3 : FReg) (rm : RmField) : Statement (.fmsubS rd rs1 rs2 rs3 rm) := by
  simp only [Statement, encode, Instr.row]
  rw [fmt_opcode]
  rfl

theorem fnmsubS (rd rs1 rs2 rs3 : FReg) (rm : RmField) : Statement (.fnmsubS rd rs1 rs2 rs3 rm) := by
  simp only [Statement, encode, Instr.row]
  rw [fmt_opcode]
  rfl

theorem fnmaddS (rd rs1 rs2 rs3 : FReg) (rm : RmField) : Statement (.fnmaddS rd rs1 rs2 rs3 rm) := by
  simp only [Statement, encode, Instr.row]
  rw [fmt_opcode]
  rfl

theorem faddS (rd rs1 rs2 : FReg) (rm : RmField) : Statement (.faddS rd rs1 rs2 rm) := by
  simp only [Statement, encode, wordOpFp, Instr.row]
  rw [funct5_fmt_opcode]
  rfl

theorem fsubS (rd rs1 rs2 : FReg) (rm : RmField) : Statement (.fsubS rd rs1 rs2 rm) := by
  simp only [Statement, encode, wordOpFp, Instr.row]
  rw [funct5_fmt_opcode]
  rfl

theorem fmulS (rd rs1 rs2 : FReg) (rm : RmField) : Statement (.fmulS rd rs1 rs2 rm) := by
  simp only [Statement, encode, wordOpFp, Instr.row]
  rw [funct5_fmt_opcode]
  rfl

theorem fdivS (rd rs1 rs2 : FReg) (rm : RmField) : Statement (.fdivS rd rs1 rs2 rm) := by
  simp only [Statement, encode, wordOpFp, Instr.row]
  rw [funct5_fmt_opcode]
  rfl

theorem fsqrtS (rd rs1 : FReg) (rm : RmField) : Statement (.fsqrtS rd rs1 rm) := by
  simp only [Statement, encode, wordOpFp, Instr.row]
  rw [funct5_fmt_rs2_opcode]
  rfl

theorem fsgnjS (rd rs1 rs2 : FReg) : Statement (.fsgnjS rd rs1 rs2) := by
  simp only [Statement, encode, wordOpFp, Instr.row]
  rw [funct5_fmt_selector_opcode]
  rfl

theorem fsgnjnS (rd rs1 rs2 : FReg) : Statement (.fsgnjnS rd rs1 rs2) := by
  simp only [Statement, encode, wordOpFp, Instr.row]
  rw [funct5_fmt_selector_opcode]
  rfl

theorem fsgnjxS (rd rs1 rs2 : FReg) : Statement (.fsgnjxS rd rs1 rs2) := by
  simp only [Statement, encode, wordOpFp, Instr.row]
  rw [funct5_fmt_selector_opcode]
  rfl

theorem fminS (rd rs1 rs2 : FReg) : Statement (.fminS rd rs1 rs2) := by
  simp only [Statement, encode, wordOpFp, Instr.row]
  rw [funct5_fmt_selector_opcode]
  rfl

theorem fmaxS (rd rs1 rs2 : FReg) : Statement (.fmaxS rd rs1 rs2) := by
  simp only [Statement, encode, wordOpFp, Instr.row]
  rw [funct5_fmt_selector_opcode]
  rfl

theorem fcvtWS (rd : XReg) (rs1 : FReg) (rm : RmField) : Statement (.fcvtWS rd rs1 rm) := by
  simp only [Statement, encode, wordOpFp, Instr.row]
  rw [funct5_fmt_rs2_opcode]
  rfl

theorem fcvtWUS (rd : XReg) (rs1 : FReg) (rm : RmField) : Statement (.fcvtWUS rd rs1 rm) := by
  simp only [Statement, encode, wordOpFp, Instr.row]
  rw [funct5_fmt_rs2_opcode]
  rfl

theorem fcvtLS (rd : XReg) (rs1 : FReg) (rm : RmField) : Statement (.fcvtLS rd rs1 rm) := by
  simp only [Statement, encode, wordOpFp, Instr.row]
  rw [funct5_fmt_rs2_opcode]
  rfl

theorem fcvtLUS (rd : XReg) (rs1 : FReg) (rm : RmField) : Statement (.fcvtLUS rd rs1 rm) := by
  simp only [Statement, encode, wordOpFp, Instr.row]
  rw [funct5_fmt_rs2_opcode]
  rfl

theorem fmvXW (rd : XReg) (rs1 : FReg) : Statement (.fmvXW rd rs1) := by
  simp only [Statement, encode, wordOpFp, Instr.row]
  rw [funct5_fmt_rs2_selector_opcode]
  rfl

theorem fclassS (rd : XReg) (rs1 : FReg) : Statement (.fclassS rd rs1) := by
  simp only [Statement, encode, wordOpFp, Instr.row]
  rw [funct5_fmt_rs2_selector_opcode]
  rfl

theorem feqS (rd : XReg) (rs1 rs2 : FReg) : Statement (.feqS rd rs1 rs2) := by
  simp only [Statement, encode, wordOpFp, Instr.row]
  rw [funct5_fmt_selector_opcode]
  rfl

theorem fltS (rd : XReg) (rs1 rs2 : FReg) : Statement (.fltS rd rs1 rs2) := by
  simp only [Statement, encode, wordOpFp, Instr.row]
  rw [funct5_fmt_selector_opcode]
  rfl

theorem fleS (rd : XReg) (rs1 rs2 : FReg) : Statement (.fleS rd rs1 rs2) := by
  simp only [Statement, encode, wordOpFp, Instr.row]
  rw [funct5_fmt_selector_opcode]
  rfl

theorem fcvtSW (rd : FReg) (rs1 : XReg) (rm : RmField) : Statement (.fcvtSW rd rs1 rm) := by
  simp only [Statement, encode, wordOpFp, Instr.row]
  rw [funct5_fmt_rs2_opcode]
  rfl

theorem fcvtSWU (rd : FReg) (rs1 : XReg) (rm : RmField) : Statement (.fcvtSWU rd rs1 rm) := by
  simp only [Statement, encode, wordOpFp, Instr.row]
  rw [funct5_fmt_rs2_opcode]
  rfl

theorem fcvtSL (rd : FReg) (rs1 : XReg) (rm : RmField) : Statement (.fcvtSL rd rs1 rm) := by
  simp only [Statement, encode, wordOpFp, Instr.row]
  rw [funct5_fmt_rs2_opcode]
  rfl

theorem fcvtSLU (rd : FReg) (rs1 : XReg) (rm : RmField) : Statement (.fcvtSLU rd rs1 rm) := by
  simp only [Statement, encode, wordOpFp, Instr.row]
  rw [funct5_fmt_rs2_opcode]
  rfl

theorem fmvWX (rd : FReg) (rs1 : XReg) : Statement (.fmvWX rd rs1) := by
  simp only [Statement, encode, wordOpFp, Instr.row]
  rw [funct5_fmt_rs2_selector_opcode]
  rfl

theorem csrrw (rd : XReg) (csr : CsrNum) (rs1 : XReg) : Statement (.csrrw rd csr rs1) := by
  simp only [Statement, encode, Instr.row]
  rw [width_opcode]
  rfl

theorem csrrs (rd : XReg) (csr : CsrNum) (rs1 : XReg) : Statement (.csrrs rd csr rs1) := by
  simp only [Statement, encode, Instr.row]
  rw [width_opcode]
  rfl

theorem csrrc (rd : XReg) (csr : CsrNum) (rs1 : XReg) : Statement (.csrrc rd csr rs1) := by
  simp only [Statement, encode, Instr.row]
  rw [width_opcode]
  rfl

theorem csrrwi (rd : XReg) (csr : CsrNum) (uimm : BitVec 5) : Statement (.csrrwi rd csr uimm) := by
  simp only [Statement, encode, Instr.row]
  rw [width_opcode]
  rfl

theorem csrrsi (rd : XReg) (csr : CsrNum) (uimm : BitVec 5) : Statement (.csrrsi rd csr uimm) := by
  simp only [Statement, encode, Instr.row]
  rw [width_opcode]
  rfl

theorem csrrci (rd : XReg) (csr : CsrNum) (uimm : BitVec 5) : Statement (.csrrci rd csr uimm) := by
  simp only [Statement, encode, Instr.row]
  rw [width_opcode]
  rfl

end Sys2Proof.Laws.RowMatch
end

