-- ==== Sys2Proof/Laws/Rounding.lean ====
section
/-! SUPPORT. Rounding against the reals: when the rounded integer reaches a bound, that it is the integer the mode's
definition delivers (R130, R133), the values of patterns (R123), and the encoding step of `round_f32` (R134 step E). -/

namespace Sys2Proof.Machine

/-! ### Rounding to an integer (R133) -/

/-- The magnitudes whose rounding reaches the integer `n ≥ 1`: from `n` up when rounding towards zero, above `n - 1` when
rounding away, from the half-way point up to nearest (exclusive of it under RNE when `n` is odd). -/
def Reaches (mode : RoundMode) (neg : Bool) (n : Nat) (y : ℝ) : Prop :=
  match mode with
  | .rtz => (n : ℝ) ≤ y
  | .rdn => if neg then (n : ℝ) - 1 < y else (n : ℝ) ≤ y
  | .rup => if neg then (n : ℝ) ≤ y else (n : ℝ) - 1 < y
  | .rne => (n : ℝ) - 1 / 2 < y ∨ ((n : ℝ) - 1 / 2 = y ∧ Even n)
  | .rmm => (n : ℝ) - 1 / 2 ≤ y

/-- What the four kinds of fraction say of a number and its floor, with the case named. -/
theorem Mag.rest_cases {m : Mag} {y : ℝ} (h : m.Denotes y) :
    (m.rest = .zero ∧ y = m.floor) ∨ (m.rest = .below ∧ (m.floor : ℝ) < y ∧ y < m.floor + 1 / 2) ∨
    (m.rest = .half ∧ y = m.floor + 1 / 2) ∨ (m.rest = .above ∧ (m.floor : ℝ) + 1 / 2 < y ∧ y < m.floor + 1) := by
  have hs := Mag.rest_spec h
  obtain ⟨_, f2⟩ := Mag.floor_spec h
  cases hc : m.rest <;> rw [hc] at hs <;> simp only [Rest.Describes] at hs
  · exact .inl ⟨rfl, by linarith⟩
  · exact .inr (.inl ⟨rfl, by linarith [hs.1], by linarith [hs.2]⟩)
  · exact .inr (.inr (.inl ⟨rfl, by linarith⟩))
  · exact .inr (.inr (.inr ⟨rfl, by linarith, f2⟩))

theorem floor_le_roundInt (mode : RoundMode) (neg : Bool) (m : Mag) : m.floor ≤ roundInt mode neg m := by
  rcases roundInt_eq_or mode neg m with e | ⟨e, _⟩ <;> omega

theorem roundInt_le_floor_succ (mode : RoundMode) (neg : Bool) (m : Mag) : roundInt mode neg m ≤ m.floor + 1 := by
  rcases roundInt_eq_or mode neg m with e | ⟨e, _⟩ <;> omega

/-- A bound below the floor is reached in every mode. -/
theorem reaches_of_le (mode : RoundMode) (neg : Bool) {n : Nat} {y : ℝ} (h : (n : ℝ) ≤ y) : Reaches mode neg n y := by
  unfold Reaches
  cases mode <;> cases neg <;> simp only [Bool.false_eq_true, if_false, if_true] <;>
    first | exact h | linarith | exact .inl (by linarith)

/-- A bound that is one or more above the number is reached in no mode. -/
theorem not_reaches_of_le (mode : RoundMode) (neg : Bool) {n : Nat} {y : ℝ} (h : y ≤ (n : ℝ) - 1) :
    ¬ Reaches mode neg n y := by
  unfold Reaches
  cases mode <;> cases neg <;> simp only [Bool.false_eq_true, if_false, if_true] <;>
    first
    | (intro hc; linarith)
    | (rintro (hc | ⟨hc, _⟩) <;> linarith)

/-- When the rounded integer is the one above the floor. -/
theorem roundInt_eq_succ_iff (mode : RoundMode) (neg : Bool) {m : Mag} {y : ℝ} (h : m.Denotes y) :
    roundInt mode neg m = m.floor + 1 ↔ Reaches mode neg (m.floor + 1) y := by
  have par : Even (m.floor + 1) ↔ ¬ m.floor % 2 = 0 := by
    rw [Nat.even_add_one, Nat.even_iff]
  have c : ((m.floor + 1 : ℕ) : ℝ) = m.floor + 1 := by push_cast; rfl
  have ne : ¬ m.floor = m.floor + 1 := by omega
  rcases Mag.rest_cases h with ⟨hr, hy⟩ | ⟨hr, hy1, hy2⟩ | ⟨hr, hy⟩ | ⟨hr, hy1, hy2⟩
  · have hno : ¬ Reaches mode neg (m.floor + 1) y := not_reaches_of_le mode neg (by push_cast; linarith)
    simp [roundInt, hr, hno]
  · have a1 : ¬ (m.floor : ℝ) + 1 ≤ y := by linarith
    have a2 : (m.floor : ℝ) + 1 - 1 < y := by linarith
    have a3 : ¬ (m.floor : ℝ) + 1 - 1 / 2 ≤ y := by linarith
    have a4 : ¬ (m.floor : ℝ) + 1 - 1 / 2 < y := by linarith
    have a5 : ¬ (m.floor : ℝ) + 1 - 1 / 2 = y := by intro e; linarith
    unfold roundInt Reaches
    rw [hr, c]
    cases mode <;> cases neg <;> simp only [a1, a2, a3, a4, a5, ne, false_and, or_self, if_true, if_false, Bool.false_eq_true]
  · have a1 : ¬ (m.floor : ℝ) + 1 ≤ y := by linarith
    have a2 : (m.floor : ℝ) + 1 - 1 < y := by linarith
    have a5 : (m.floor : ℝ) + 1 - 1 / 2 = y := by linarith
    unfold roundInt Reaches
    rw [hr, c, par]
    cases mode <;> cases neg <;>
      simp only [a1, a2, a5, ne, true_and, lt_irrefl, le_refl, false_or, reduceIte, Bool.false_eq_true]
    all_goals (split_ifs with hp <;> simp [hp])
  · have a1 : ¬ (m.floor : ℝ) + 1 ≤ y := by linarith
    have a2 : (m.floor : ℝ) + 1 - 1 < y := by linarith
    have a3 : (m.floor : ℝ) + 1 - 1 / 2 ≤ y := by linarith
    have a4 : (m.floor : ℝ) + 1 - 1 / 2 < y := by linarith
    unfold roundInt Reaches
    rw [hr, c]
    cases mode <;> cases neg <;> simp only [a1, a2, a3, a4, ne, true_or, reduceIte, Bool.false_eq_true]

/-- When the rounded integer reaches `n`. -/
theorem le_roundInt_iff (mode : RoundMode) (neg : Bool) {m : Mag} {y : ℝ} (h : m.Denotes y) (n : Nat) :
    n ≤ roundInt mode neg m ↔ Reaches mode neg n y := by
  obtain ⟨f1, f2⟩ := Mag.floor_spec h
  have lo := floor_le_roundInt mode neg m
  have hi := roundInt_le_floor_succ mode neg m
  rcases Nat.lt_trichotomy n (m.floor + 1) with t | t | t
  · have : (n : ℝ) ≤ m.floor := by exact_mod_cast Nat.lt_succ_iff.mp t
    exact ⟨fun _ => reaches_of_le mode neg (by linarith), fun _ => by omega⟩
  · subst t
    rw [← roundInt_eq_succ_iff mode neg h]
    omega
  · have : (m.floor : ℝ) + 2 ≤ n := by exact_mod_cast t
    exact ⟨fun hc => by omega, fun hc => absurd hc (not_reaches_of_le mode neg (by linarith))⟩

/-- The signed integer of a rounded magnitude. -/
theorem negIf_natCast (c : Bool) (n : Nat) : ((negIf c n : ℤ) : ℝ) = if c then -(n : ℝ) else n := by
  cases c <;> simp [negIf]

/-- The mode that does to `-v` what `mode` does to `v`. -/
def mirror : RoundMode → RoundMode
  | .rne => .rne
  | .rtz => .rtz
  | .rdn => .rup
  | .rup => .rdn
  | .rmm => .rmm

theorem roundInt_true (mode : RoundMode) (m : Mag) : roundInt mode true m = roundInt (mirror mode) false m := by
  unfold roundInt
  cases m.rest <;> cases mode <;> rfl

theorem admits_neg (mode : RoundMode) (v x : ℝ) : Admits mode (-v) (-x) ↔ Admits (mirror mode) v x := by
  cases mode <;> simp [Admits, mirror]

/-- What delivers `n` for `v` delivers `-n` for `-v` in the mirrored mode. -/
theorem deliversInt_neg {mode : RoundMode} {v : ℝ} {n : ℤ} (h : DeliversInt (mirror mode) v n) :
    DeliversInt mode (-v) (-n) := by
  have flip : ∀ k : ℤ, |(k : ℝ) - -v| = |((-k : ℤ) : ℝ) - v| := fun k => by
    rw [← abs_neg]
    congr 1
    push_cast
    ring
  refine ⟨?_, fun k hk => ?_, fun k hk he => ?_⟩
  · have := (admits_neg mode v n).mpr h.admitted
    push_cast
    exact this
  · rw [flip, flip, neg_neg]
    refine h.nearest (-k) ((admits_neg mode v _).mp ?_)
    push_cast
    rwa [neg_neg]
  · rw [flip, flip, neg_neg] at he
    have := h.ties (-k) (fun e => hk (by omega)) he
    refine ⟨fun hm => (this.1 (by rw [hm]; rfl)).neg, fun hm => ?_⟩
    rw [abs_neg]
    have h2 := this.2 (by rw [hm]; rfl)
    rwa [abs_neg] at h2

/-- The distance of an integer from a number between `f` and `f + 1`. -/
theorem int_distance {y : ℝ} {f : ℤ} (h1 : (f : ℝ) < y) (h2 : y < f + 1) (k : ℤ) :
    (k ≤ f ∧ (k : ℝ) ≤ f ∧ |(k : ℝ) - y| = y - k) ∨ (f + 1 ≤ k ∧ (f : ℝ) + 1 ≤ k ∧ |(k : ℝ) - y| = k - y) := by
  rcases le_or_gt k f with hk | hk
  · have hk' : (k : ℝ) ≤ f := by exact_mod_cast hk
    exact .inl ⟨hk, hk', by rw [abs_of_nonpos (by linarith)]; ring⟩
  · have hk' : (f : ℝ) + 1 ≤ k := by exact_mod_cast hk
    exact .inr ⟨hk, hk', abs_of_nonneg (by linarith)⟩

/-- The rounding of a positive number between two integers is the one that the mode's definition delivers. -/
theorem roundInt_delivers_pos (mode : RoundMode) {m : Mag} {y : ℝ} (h : m.Denotes y) :
    DeliversInt mode y (roundInt mode false m : ℕ) := by
  have y0 := Mag.Denotes.nonneg h
  rcases Mag.rest_cases h with ⟨hr, hy⟩ | hr'
  · -- an integer
    have hR : roundInt mode false m = m.floor := by simp [roundInt, hr]
    have e : ((m.floor : ℕ) : ℤ) = ((m.floor : ℤ) : ℝ) := by norm_cast
    rw [hR]
    refine ⟨?_, fun k _ => ?_, fun k hk he => ?_⟩
    · rw [hy]
      cases mode <;> simp [Admits]
    · rw [hy]
      simp
    · rw [hy] at he
      simp only [Int.cast_natCast, sub_self, abs_zero, abs_eq_zero, sub_eq_zero] at he
      exact absurd (by exact_mod_cast he) hk
  · have f0 : (0 : ℝ) ≤ m.floor := Nat.cast_nonneg _
    have b1 : ((m.floor : ℤ) : ℝ) < y := by
      rcases hr' with ⟨_, a, _⟩ | ⟨_, a⟩ | ⟨_, a, _⟩ <;> push_cast <;> linarith
    have b2 : y < ((m.floor : ℤ) : ℝ) + 1 := by
      rcases hr' with ⟨_, _, a⟩ | ⟨_, a⟩ | ⟨_, _, a⟩ <;> push_cast <;> linarith
    have dist := int_distance b1 b2
    push_cast at b1 b2 dist
    have down : ∀ R : ℕ, R = m.floor → (∀ k : ℤ, Admits mode y k → (k : ℝ) ≤ y) → Admits mode y m.floor →
        mode ≠ .rne → mode ≠ .rmm → DeliversInt mode y (R : ℕ) := by
      rintro R rfl hle had n1 n2
      refine ⟨by simpa using had, fun k hk => ?_, fun k _ _ => ⟨fun e => absurd e n1, fun e => absurd e n2⟩⟩
      have := hle k hk
      push_cast
      rw [abs_of_nonpos (by linarith : (m.floor : ℝ) - y ≤ 0)]
      rcases dist k with ⟨_, d1, d2⟩ | ⟨_, d1, d2⟩ <;> rw [d2] <;> linarith
    cases mode with
    | rtz =>
      refine down _ (by rcases hr' with ⟨a, _⟩ | ⟨a, _⟩ | ⟨a, _⟩ <;> simp [roundInt, a]) (fun k hk => ?_) ?_ (by simp)
        (by simp)
      · have : |(k : ℝ)| ≤ |y| := hk
        rw [abs_of_nonneg y0] at this
        exact (abs_le.mp this).2
      · show |(m.floor : ℝ)| ≤ |y|
        rw [abs_of_nonneg y0, abs_of_nonneg f0]
        exact b1.le
    | rdn =>
      exact down _ (by rcases hr' with ⟨a, _⟩ | ⟨a, _⟩ | ⟨a, _⟩ <;> simp [roundInt, a]) (fun k hk => hk) b1.le (by simp)
        (by simp)
    | rup =>
      have hR : roundInt .rup false m = m.floor + 1 := by
        rcases hr' with ⟨a, _⟩ | ⟨a, _⟩ | ⟨a, _⟩ <;> simp [roundInt, a]
      rw [hR]
      refine ⟨?_, fun k hk => ?_, fun k _ _ => by simp⟩
      · show y ≤ _
        push_cast
        exact b2.le
      · have hk' : y ≤ k := hk
        push_cast
        rw [abs_of_nonneg (by linarith)]
        rcases dist k with ⟨_, d1, d2⟩ | ⟨_, d1, d2⟩ <;> rw [d2] <;> linarith
    | rne =>
      rcases hr' with ⟨a, _, hy⟩ | ⟨a, hy⟩ | ⟨a, hy, _⟩
      · have hR : roundInt .rne false m = m.floor := by simp [roundInt, a]
        rw [hR]
        have dR : |((m.floor : ℤ) : ℝ) - y| = y - m.floor := by
          push_cast
          rw [abs_of_nonpos (by linarith)]
          ring
        refine ⟨trivial, fun k _ => ?_, fun k hk he => ?_⟩ <;> rw [dR] at *
        · rcases dist k with ⟨_, d1, d2⟩ | ⟨_, d1, d2⟩ <;> rw [d2] <;> linarith
        · rcases dist k with ⟨_, d1, d2⟩ | ⟨_, d1, d2⟩ <;> rw [d2] at he
          · exact absurd (by exact_mod_cast (by linarith : (k : ℝ) = (m.floor : ℝ))) hk
          · exfalso
            linarith
      · have hR : (roundInt .rne false m = m.floor ∧ Even m.floor) ∨
            (roundInt .rne false m = m.floor + 1 ∧ Even (m.floor + 1)) := by
          by_cases hp : m.floor % 2 = 0
          · exact .inl ⟨by simp [roundInt, a, hp], Nat.even_iff.mpr hp⟩
          · exact .inr ⟨by simp [roundInt, a, hp], by rw [Nat.even_add_one, Nat.even_iff]; exact hp⟩
        have dR : |(((roundInt .rne false m : ℕ) : ℤ) : ℝ) - y| = 1 / 2 := by
          rcases hR with ⟨hR, _⟩ | ⟨hR, _⟩ <;> rw [hR] <;> push_cast
          · rw [abs_of_nonpos (by linarith)]
            linarith
          · rw [abs_of_nonneg (by linarith)]
            linarith
        refine ⟨trivial, fun k _ => ?_, fun k hk he => ⟨fun _ => ?_, by simp⟩⟩
        · rw [dR]
          rcases dist k with ⟨_, d1, d2⟩ | ⟨_, d1, d2⟩ <;> rw [d2] <;> linarith
        · rcases hR with ⟨hR, hE⟩ | ⟨hR, hE⟩ <;> rw [hR] <;> exact_mod_cast hE
      · have hR : roundInt .rne false m = m.floor + 1 := by simp [roundInt, a]
        rw [hR]
        have dR : |(((m.floor + 1 : ℕ) : ℤ) : ℝ) - y| = m.floor + 1 - y := by
          push_cast
          exact abs_of_nonneg (by linarith)
        refine ⟨trivial, fun k _ => ?_, fun k hk he => ?_⟩ <;> rw [dR] at *
        · rcases dist k with ⟨_, d1, d2⟩ | ⟨_, d1, d2⟩ <;> rw [d2] <;> linarith
        · rcases dist k with ⟨_, d1, d2⟩ | ⟨_, d1, d2⟩ <;> rw [d2] at he
          · exfalso
            linarith
          · exact absurd (by exact_mod_cast (by linarith : (k : ℝ) = (m.floor : ℝ) + 1)) hk
    | rmm =>
      rcases hr' with ⟨a, _, hy⟩ | ⟨a, hy⟩ | ⟨a, hy, _⟩
      · have hR : roundInt .rmm false m = m.floor := by simp [roundInt, a]
        rw [hR]
        have dR : |((m.floor : ℤ) : ℝ) - y| = y - m.floor := by
          push_cast
          rw [abs_of_nonpos (by linarith)]
          ring
        refine ⟨trivial, fun k _ => ?_, fun k hk he => ?_⟩ <;> rw [dR] at *
        · rcases dist k with ⟨_, d1, d2⟩ | ⟨_, d1, d2⟩ <;> rw [d2] <;> linarith
        · rcases dist k with ⟨_, d1, d2⟩ | ⟨_, d1, d2⟩ <;> rw [d2] at he
          · exact absurd (by exact_mod_cast (by linarith : (k : ℝ) = (m.floor : ℝ))) hk
          · exfalso
            linarith
      all_goals
        have hR : roundInt .rmm false m = m.floor + 1 := by simp [roundInt, a]
        rw [hR]
        have dR : |(((m.floor + 1 : ℕ) : ℤ) : ℝ) - y| = m.floor + 1 - y := by
          push_cast
          exact abs_of_nonneg (by linarith)
        refine ⟨trivial, fun k _ => ?_, fun k hk he => ?_⟩ <;> rw [dR] at *
        · rcases dist k with ⟨_, d1, d2⟩ | ⟨_, d1, d2⟩ <;> rw [d2] <;> linarith
        · rcases dist k with ⟨d0, d1, d2⟩ | ⟨_, d1, d2⟩ <;> rw [d2] at he
          · have : m.floor ≤ k := by
              have : (m.floor : ℝ) ≤ k := by linarith
              exact_mod_cast this
            have hkf : k = m.floor := le_antisymm d0 this
            subst hkf
            refine ⟨by simp, fun _ => ?_⟩
            push_cast
            rw [abs_of_nonneg (by positivity), abs_of_nonneg (by positivity)]
            omega
          · exact absurd (by exact_mod_cast (by linarith : (k : ℝ) = (m.floor : ℝ) + 1)) hk

/-- The rounded integer, with its sign, is the one that the mode's definition delivers (R130, R133). -/
theorem roundInt_delivers (mode : RoundMode) (neg : Bool) {m : Mag} {y : ℝ} (h : m.Denotes y) :
    DeliversInt mode (if neg then -y else y) (negIf neg (roundInt mode neg m)) := by
  cases neg with
  | false => exact roundInt_delivers_pos mode h
  | true =>
    rw [roundInt_true]
    exact deliversInt_neg (roundInt_delivers_pos (mirror mode) h)

end Sys2Proof.Machine
end

