-- ==== Sys2Proof/Laws/RoundF32.lean ====
section
/-! SUPPORT. The three steps of `round_f32` after the scaling: overflow (R134 step B, R135) and tininess (step C, R136) as
thresholds on the exact value, and step D, from the integer delivered at the quantum to the delivered pattern. -/

namespace Sys2Proof.Machine

/-- `m * 2^k ≥ 2^t`, as the model decides it on naturals. -/
theorem atLeastPow_iff (m : ℕ) (k t : ℤ) (hm : 1 ≤ m) : atLeastPow m k t = true ↔ (2 : ℝ) ^ t ≤ m * 2 ^ k := by
  have two : (2 : ℝ) ≠ 0 := by norm_num
  have p : (0 : ℝ) < 2 ^ k := by positivity
  have e : (2 : ℝ) ^ t ≤ m * 2 ^ k ↔ (2 : ℝ) ^ (t - k) ≤ m := by
    rw [zpow_sub₀ two, div_le_iff₀ p]
  rw [e, atLeastPow, decide_eq_true_iff]
  rcases le_total 0 (t - k) with h | h
  · obtain ⟨j, hj⟩ := Int.eq_ofNat_of_zero_le h
    rw [hj, zpow_natCast, Int.toNat_natCast]
    exact_mod_cast Iff.rfl
  · rw [Int.toNat_eq_zero.mpr h, pow_zero]
    have : (2 : ℝ) ^ (t - k) ≤ 1 := zpow_le_one_of_nonpos₀ (by norm_num) h
    have h1 : (1 : ℝ) ≤ m := by exact_mod_cast hm
    exact ⟨fun _ => by linarith, fun _ => hm⟩

/-- When a number scaled down by `c` reaches `n`, in the number itself. -/
theorem reaches_div_iff (mode : RoundMode) (neg : Bool) (n : ℕ) (y c : ℝ) (hc : 0 < c) :
    Reaches mode neg n (y * c⁻¹) ↔
      match mode with
      | .rtz => (n : ℝ) * c ≤ y
      | .rdn => if neg then ((n : ℝ) - 1) * c < y else (n : ℝ) * c ≤ y
      | .rup => if neg then (n : ℝ) * c ≤ y else ((n : ℝ) - 1) * c < y
      | .rne => ((n : ℝ) - 1 / 2) * c < y ∨ (((n : ℝ) - 1 / 2) * c = y ∧ Even n)
      | .rmm => ((n : ℝ) - 1 / 2) * c ≤ y := by
  have l : ∀ a : ℝ, a ≤ y * c⁻¹ ↔ a * c ≤ y := fun a => by rw [← div_eq_mul_inv, le_div_iff₀ hc]
  have l2 : ∀ a : ℝ, a < y * c⁻¹ ↔ a * c < y := fun a => by rw [← div_eq_mul_inv, lt_div_iff₀ hc]
  have l3 : ∀ a : ℝ, a = y * c⁻¹ ↔ a * c = y := fun a => by rw [← div_eq_mul_inv, eq_div_iff hc.ne']
  unfold Reaches
  cases mode <;> simp only [l, l2, l3]

section

variable {mode : RoundMode} {neg : Bool} {y : ℝ} {e : ℤ} {mu : ℕ}

/-- A number of binary exponent `e`, scaled to 24 bits, lies in `[2^23, 2^24)` (R134 step A). -/
theorem scaled_bounds (h1 : (2 : ℝ) ^ e ≤ y) (h2 : y < 2 ^ (e + 1)) :
    (2 : ℝ) ^ 23 ≤ y * 2 ^ (-(e - 23)) ∧ y * 2 ^ (-(e - 23)) < 2 ^ 24 := by
  have two : (2 : ℝ) ≠ 0 := by norm_num
  have p : (0 : ℝ) < 2 ^ (-(e - 23)) := by positivity
  constructor
  · calc (2 : ℝ) ^ 23 = 2 ^ e * 2 ^ (-(e - 23)) := by
          rw [← zpow_add₀ two, show e + -(e - 23) = ((23 : ℕ) : ℤ) by push_cast; ring, zpow_natCast]
      _ ≤ _ := by gcongr
  · calc y * 2 ^ (-(e - 23)) < 2 ^ (e + 1) * 2 ^ (-(e - 23)) := by gcongr
      _ = _ := by
          rw [← zpow_add₀ two, show e + 1 + -(e - 23) = ((24 : ℕ) : ℤ) by push_cast; ring, zpow_natCast]

/-- `2^23 ≤ mu ≤ 2^24` (R134 step A). -/
theorem mu_bounds (h1 : (2 : ℝ) ^ e ≤ y) (h2 : y < 2 ^ (e + 1))
    (hmu : ∀ n, n ≤ mu ↔ Reaches mode neg n (y * 2 ^ (-(e - 23)))) : 2 ^ 23 ≤ mu ∧ mu ≤ 2 ^ 24 := by
  obtain ⟨b1, b2⟩ := scaled_bounds h1 h2
  constructor
  · exact (hmu _).mpr (reaches_of_le _ _ (by rw [Nat.cast_pow, Nat.cast_ofNat]; exact b1))
  · by_contra hc
    refine not_reaches_of_le mode neg (n := 2 ^ 24 + 1) ?_ ((hmu _).mp (by omega))
    rw [Nat.cast_add, Nat.cast_one, Nat.cast_pow, Nat.cast_ofNat]
    linarith

/-- The number rounded to 24 bits stays in the binade of the number or reaches the next. -/
theorem mu_scaled_bounds (b : 2 ^ 23 ≤ mu ∧ mu ≤ 2 ^ 24) :
    (2 : ℝ) ^ e ≤ mu * 2 ^ (e - 23) ∧ (mu : ℝ) * 2 ^ (e - 23) ≤ 2 ^ (e + 1) := by
  have two : (2 : ℝ) ≠ 0 := by norm_num
  have p : (0 : ℝ) < 2 ^ (e - 23) := by positivity
  have b1 : (2 : ℝ) ^ (23 : ℤ) ≤ mu := by exact_mod_cast b.1
  have b2 : (mu : ℝ) ≤ 2 ^ (24 : ℤ) := by exact_mod_cast b.2
  constructor
  · calc (2 : ℝ) ^ e = 2 ^ (23 : ℤ) * 2 ^ (e - 23) := by
          rw [← zpow_add₀ two]
          ring_nf
      _ ≤ _ := by gcongr
  · calc (mu : ℝ) * 2 ^ (e - 23) ≤ 2 ^ (24 : ℤ) * 2 ^ (e - 23) := by gcongr
      _ = _ := by
          rw [← zpow_add₀ two]
          ring_nf

/-- Overflow (R134 step B) happens exactly from the thresholds of R135 on. -/
theorem overflow_iff (hy : 0 < y) (h1 : (2 : ℝ) ^ e ≤ y) (h2 : y < 2 ^ (e + 1))
    (hmu : ∀ n, n ≤ mu ↔ Reaches mode neg n (y * 2 ^ (-(e - 23)))) :
    (2 : ℝ) ^ (128 : ℤ) ≤ mu * 2 ^ (e - 23) ↔ Overflows mode (if neg then -y else y) := by
  have b := mu_bounds h1 h2 hmu
  obtain ⟨s1, s2⟩ := mu_scaled_bounds (e := e) b
  rcases lt_trichotomy e 127 with c | c | c
  · -- below the top binade neither holds
    have up : (2 : ℝ) ^ (e + 1) ≤ 2 ^ (127 : ℤ) := zpow_le_zpow_right₀ (by norm_num) (by omega)
    constructor
    · intro hc
      have := le_trans s2 up
      norm_num at hc this
      linarith
    · intro hc
      exfalso
      have uy := lt_of_lt_of_le h2 up
      norm_num at uy
      cases mode <;> cases neg <;>
        simp only [Overflows, abs_neg, abs_of_pos hy, Bool.false_eq_true, if_false, if_true] at hc
      all_goals first
        | (norm_num at hc; linarith)
        | (rcases hc with hc | hc <;> norm_num at hc <;> linarith)
  · -- in the top binade both say that the rounding carries
    subst c
    have c' : (2 : ℝ) ^ ((127 : ℤ) - 23) = 2 ^ 104 := by norm_num
    have hcarry : (2 : ℝ) ^ (128 : ℤ) ≤ mu * 2 ^ 104 ↔ 2 ^ 24 ≤ mu := by
      rw [← Nat.cast_le (α := ℝ), Nat.cast_pow, Nat.cast_ofNat,
        show (2 : ℝ) ^ (128 : ℤ) = 2 ^ 24 * 2 ^ 104 by norm_num]
      exact mul_le_mul_iff_of_pos_right (by positivity)
    rw [c', hcarry, hmu, zpow_neg, c', reaches_div_iff _ _ _ _ _ (by positivity), Nat.cast_pow, Nat.cast_ofNat]
    have t1 : ((2 : ℝ) ^ 24 - 1 / 2) * 2 ^ 104 = 2 ^ 128 - 2 ^ 103 := by norm_num
    have t2 : ((2 : ℝ) ^ 24 - 1) * 2 ^ 104 = 2 ^ 128 - 2 ^ 104 := by norm_num
    have t3 : (2 : ℝ) ^ 24 * 2 ^ 104 = 2 ^ 128 := by norm_num
    have t4 : (0 : ℝ) < 2 ^ 128 - 2 ^ 104 := by norm_num
    have t5 : (0 : ℝ) < 2 ^ 128 := by norm_num
    have ev : Even (2 ^ 24 : ℕ) := by decide
    simp only [t1, t2, t3, ev, and_true]
    clear hcarry c' hmu b s1 s2 t1 t2 t3
    cases mode <;> cases neg <;>
      simp only [Overflows, abs_neg, abs_of_pos hy, Bool.false_eq_true, if_false, if_true]
    all_goals
      generalize (2 : ℝ) ^ 128 - 2 ^ 104 = A at *
      generalize (2 : ℝ) ^ 128 - 2 ^ 103 = B at *
      generalize (2 : ℝ) ^ 128 = C at *
      first
      | exact le_iff_lt_or_eq.symm
      | exact Iff.rfl
      | exact ⟨fun h => by first | (left; linarith) | (right; linarith),
          fun h => by rcases h with h | h <;> linarith⟩
  · -- above the top binade both hold
    have up : (2 : ℝ) ^ (128 : ℤ) ≤ 2 ^ e := zpow_le_zpow_right₀ (by norm_num) (by omega)
    refine ⟨fun _ => ?_, fun _ => le_trans up s1⟩
    have ly := le_trans up h1
    norm_num at ly
    cases mode <;> cases neg <;>
      simp only [Overflows, abs_neg, abs_of_pos hy, Bool.false_eq_true, if_false, if_true] <;> norm_num
    all_goals first | linarith | (left; linarith) | (right; linarith)

/-- The number rounded to 24 bits reaches 2^-126 exactly when it is not tiny (R136). -/
theorem tiny_iff (hy : 0 < y) (h1 : (2 : ℝ) ^ e ≤ y) (h2 : y < 2 ^ (e + 1))
    (hmu : ∀ n, n ≤ mu ↔ Reaches mode neg n (y * 2 ^ (-(e - 23)))) :
    (2 : ℝ) ^ (-126 : ℤ) ≤ mu * 2 ^ (e - 23) ↔ ¬ Tiny mode (if neg then -y else y) := by
  have two : (2 : ℝ) ≠ 0 := by norm_num
  have b := mu_bounds h1 h2 hmu
  obtain ⟨s1, s2⟩ := mu_scaled_bounds (e := e) b
  obtain ⟨q, hq⟩ : ∃ q : ℝ, q = 2 ^ (-151 : ℤ) := ⟨_, rfl⟩
  have q0 : 0 < q := by rw [hq]; positivity
  have e126 : (2 : ℝ) ^ (-126 : ℤ) = 2 ^ 25 * q := by rw [hq, ← zpow_natCast, ← zpow_add₀ two]; norm_num
  have e127 : (2 : ℝ) ^ (-127 : ℤ) = 2 ^ 24 * q := by rw [hq, ← zpow_natCast, ← zpow_add₀ two]; norm_num
  have e150 : (2 : ℝ) ^ (-150 : ℤ) = 2 * q := by
    rw [hq]
    nth_rewrite 2 [← zpow_one (2 : ℝ)]
    rw [← zpow_add₀ two]
    norm_num
  rcases lt_trichotomy e (-127) with c | c | c
  · have up : (2 : ℝ) ^ (e + 1) ≤ 2 ^ (-127 : ℤ) := zpow_le_zpow_right₀ (by norm_num) (by omega)
    have um := le_trans s2 up
    have uy := lt_of_lt_of_le h2 up
    rw [e127] at um uy
    rw [e126]
    refine ⟨fun hc => by exfalso; linarith, fun hc => absurd ?_ hc⟩
    cases mode <;> cases neg <;>
      simp only [Tiny, abs_neg, abs_of_pos hy, Bool.false_eq_true, if_false, if_true, e126, e150, ← hq]
    all_goals first | linarith | (constructor <;> linarith)
  · subst c
    have c' : (2 : ℝ) ^ ((-127 : ℤ) - 23) = 2 * q := by rw [← e150]; norm_num
    have hreach : (2 : ℝ) ^ 25 * q ≤ mu * (2 * q) ↔ 2 ^ 24 ≤ mu := by
      rw [← Nat.cast_le (α := ℝ), Nat.cast_pow, Nat.cast_ofNat, show (2 : ℝ) ^ 25 * q = 2 ^ 24 * (2 * q) by ring]
      exact mul_le_mul_iff_of_pos_right (by positivity)
    have hlow : 2 ^ 24 * q ≤ y := by rw [← e127]; exact h1
    have hhi : y < 2 ^ 25 * q := by rw [← e126]; exact h2
    have ev : Even (2 ^ 24 : ℕ) := by decide
    rw [c', e126, hreach, hmu, zpow_neg, c', reaches_div_iff _ _ _ _ _ (by positivity), Nat.cast_pow, Nat.cast_ofNat]
    clear hreach c' hmu b s1 s2
    cases mode <;> cases neg <;>
      simp only [Tiny, abs_neg, abs_of_pos hy, Bool.false_eq_true, if_false, if_true, e126, e150, ← hq, not_lt,
        not_and_or, not_le, ev, and_true]
    all_goals first
      | (constructor <;> intro h <;> linarith)
      | (constructor
         · rintro (h | h) <;> linarith
         · intro h
           rcases h.lt_or_eq with h | h
           · left; linarith
           · right; linarith)
      | exact ⟨fun h => by first | (left; linarith) | (right; linarith),
          fun h => by rcases h with h | h <;> linarith⟩
  · have up : (2 : ℝ) ^ (-126 : ℤ) ≤ 2 ^ e := zpow_le_zpow_right₀ (by norm_num) (by omega)
    refine ⟨fun _ => ?_, fun _ => le_trans up s1⟩
    have ly := le_trans up h1
    rw [e126] at ly
    cases mode <;> cases neg <;>
      simp only [Tiny, abs_neg, abs_of_pos hy, Bool.false_eq_true, if_false, if_true, e126, e150, ← hq, not_lt,
        not_and_or, not_le]
    all_goals first | linarith | (left; linarith) | (right; linarith)

end

/-- What a mode admits, on the scale of the quantum `Q`. -/
theorem admits_scale (mode : RoundMode) (v Q x : ℝ) (hQ : 0 < Q) : Admits mode (v * Q⁻¹) x ↔ Admits mode v (x * Q) := by
  have l : ∀ a : ℝ, a ≤ v * Q⁻¹ ↔ a * Q ≤ v := fun a => by rw [← div_eq_mul_inv, le_div_iff₀ hQ]
  have l2 : ∀ a : ℝ, v * Q⁻¹ ≤ a ↔ v ≤ a * Q := fun a => by rw [← div_eq_mul_inv, div_le_iff₀ hQ]
  cases mode <;> simp only [Admits, l, l2]
  rw [abs_mul, abs_mul, abs_of_pos hQ, abs_of_pos (inv_pos.mpr hQ), ← div_eq_mul_inv, le_div_iff₀ hQ]

/-- A distance, on the scale of the quantum `Q`. -/
theorem dist_scale (v Q x : ℝ) (hQ : 0 < Q) : |x - v * Q⁻¹| * Q = |x * Q - v| := by
  rw [← abs_of_pos hQ, ← abs_mul, abs_of_pos hQ, sub_mul, mul_assoc, inv_mul_cancel₀ hQ.ne', mul_one]

/-- The integer a mode delivers for `v / Q` gives the pattern it delivers for `v`, where every finite value either is a
multiple of `Q` or lies closer to zero than `2^23 Q`, and `v` does not (R134 step D). -/
theorem delivers_of_int {mode : RoundMode} {v Q : ℝ} {N : ℤ} {r : Bits32} (hQ : 0 < Q)
    (hD : DeliversInt mode (v * Q⁻¹) N) (fin : isFinite r = true) (hv : (fval r : ℝ) = N * Q)
    (lsb : Even N → r.getLsbD 0 = false)
    (big : ∀ p : Bits32, isFinite p = true → (∃ k : ℤ, (fval p : ℝ) = k * Q) ∨
      (|(fval p : ℝ)| < 2^23 * Q ∧ 2^23 * Q ≤ |v|)) : Delivers mode v r := by
  have near : ∀ k : ℤ, Admits mode v (k * Q) → |(fval r : ℝ) - v| ≤ |(k:ℝ) * Q - v| := by
    intro k hk
    have := hD.nearest k ((admits_scale _ _ _ _ hQ).mpr hk)
    rw [hv, ← dist_scale _ _ _ hQ, ← dist_scale _ _ _ hQ]
    exact mul_le_mul_of_nonneg_right this hQ.le
  have far : ∀ p : Bits32, isFinite p = true → Admits mode v (fval p) →
      (|(fval p : ℝ)| < 2^23 * Q ∧ 2^23 * Q ≤ |v|) → |(fval r : ℝ) - v| < |(fval p : ℝ) - v| := by
    intro p _ ha ⟨h1, h2⟩
    have B0 : 0 < 2^23 * Q := by positivity
    rcases le_total 0 v with hv0 | hv0
    · rw [abs_of_nonneg hv0] at h2
      obtain ⟨p1, p2⟩ := abs_lt.mp h1
      have e : (((2^23 : ℤ)) : ℝ) = 2^23 := by norm_num
      have c := near (2^23) (by
        rw [e]
        cases mode <;> simp only [Admits] at ha ⊢
        · rw [abs_of_pos B0, abs_of_nonneg hv0]; exact h2
        · exact h2
        · linarith)
      rw [e] at c
      refine lt_of_le_of_lt c ?_
      rw [abs_of_nonpos (by linarith), abs_of_neg (by linarith)]; linarith
    · rw [abs_of_nonpos hv0] at h2
      obtain ⟨p1, p2⟩ := abs_lt.mp h1
      have e : (((-2^23 : ℤ)) : ℝ) = -2^23 := by norm_num
      have c := near (-2^23) (by
        rw [e]
        cases mode <;> simp only [Admits] at ha ⊢
        · rw [abs_of_neg (by linarith), abs_of_nonpos hv0]; linarith
        · linarith
        · linarith)
      rw [e] at c
      refine lt_of_le_of_lt c ?_
      rw [abs_of_nonneg (by linarith), abs_of_pos (by linarith)]; linarith
  refine ⟨fin, by rw [hv, ← admits_scale _ _ _ _ hQ]; exact hD.admitted, fun p hp ha => ?_, fun p hp ha hne he => ?_⟩
  · rcases big p hp with ⟨k, hk⟩ | h
    · rw [hk]; exact near k (hk ▸ ha)
    · exact (far p hp ha h).le
  · rcases big p hp with ⟨k, hk⟩ | h
    · have hkN : k ≠ N := by
        rintro rfl
        apply hne
        have : (fval p : ℝ) = fval r := by rw [hk, hv]
        exact_mod_cast this
      have hdist : |(k:ℝ) - v * Q⁻¹| = |(N:ℝ) - v * Q⁻¹| := by
        rw [hk, hv, ← dist_scale _ _ _ hQ, ← dist_scale _ _ _ hQ] at he
        exact mul_right_cancel₀ hQ.ne' he
      obtain ⟨t1, t2⟩ := hD.ties k hkN hdist
      have hr := hD.admitted
      rw [admits_scale _ _ _ _ hQ] at hr
      cases mode with
      | rne => exact lsb (t1 rfl)
      | rmm =>
        have := t2 rfl
        simp only [TieBreak]
        rw [hk, hv, abs_mul, abs_mul, abs_of_pos hQ]
        have : |(k:ℝ)| < |(N:ℝ)| := by exact_mod_cast this
        exact mul_lt_mul_of_pos_right this hQ
      | rtz =>
        exfalso; apply hne
        simp only [Admits] at ha hr
        rw [← hv] at hr
        have : (fval p : ℝ) = fval r := by
          rcases le_total 0 v with h0 | h0
          · rw [abs_of_nonneg h0] at ha hr
            have a1 := abs_le.mp ha; have a2 := abs_le.mp hr
            rw [abs_of_nonpos (by linarith), abs_of_nonpos (by linarith)] at he; linarith
          · rw [abs_of_nonpos h0] at ha hr
            have a1 := abs_le.mp ha; have a2 := abs_le.mp hr
            rw [abs_of_nonneg (by linarith), abs_of_nonneg (by linarith)] at he; linarith
        exact_mod_cast this
      | rdn =>
        exfalso; apply hne
        simp only [Admits] at ha hr
        rw [← hv] at hr
        have : (fval p : ℝ) = fval r := by
            rw [abs_of_nonpos (by linarith), abs_of_nonpos (by linarith)] at he; linarith
        exact_mod_cast this
      | rup =>
        exfalso; apply hne
        simp only [Admits] at ha hr
        rw [← hv] at hr
        have : (fval p : ℝ) = fval r := by
            rw [abs_of_nonneg (by linarith), abs_of_nonneg (by linarith)] at he; linarith
        exact_mod_cast this
    · exact absurd he (far p hp ha h).ne'

end Sys2Proof.Machine
end

