-- ==== Sys2Proof/Tests/Slice0.lean ====
section
/-! SUPPORT. Tests. Every expected word, result and flag is the spec's own: the examples of the rules (files 41 to 46), the
vectors of `95_test_vectors.md`, the tables of `30_encoding.md`. The last part gives, for every obligation with hypotheses, a
concrete state and operands that meet them. -/

namespace Sys2Proof.Tests

open Sys2Proof Sys2Proof.Machine

/-! ### Well-formedness: a term for each check, which the check refuses -/

theorem test_wf_reserved_mode_101 : (Instr.faddS 3 1 2 .reserved101).wellFormed .rv64 = false := by decide
theorem test_wf_reserved_mode_110 : (Instr.fsqrtS 3 1 .reserved110).wellFormed .rv64 = false := by decide
theorem test_wf_csr_outside : (Instr.csrrs 10 0x004 0).wellFormed .rv64 = false := by decide
theorem test_wf_rv64_only : (Instr.fcvtLS 10 1 (.static .rtz)).wellFormed .rv32 = false := by decide
theorem test_wf_good :
    (Instr.faddS 3 1 2 .dyn).wellFormed .rv32 = true ∧ (Instr.csrrw 10 0x003 10).wellFormed .rv32 = true ∧
      (Instr.fcvtLS 10 1 (.static .rtz)).wellFormed .rv64 = true := by decide

/-! ### Decoding: one word per row, as the rule of the instruction prints it -/

theorem test_decode_flw : decode 0x00852087#32 = .ok (.flw 1 10 8) := by decide
theorem test_decode_fsw : decode 0xfe25ae27#32 = .ok (.fsw 2 11 (-4)) := by decide
theorem test_decode_fmadd : decode 0x18208243#32 = .ok (.fmaddS 4 1 2 3 (.static .rne)) := by decide
theorem test_decode_fmsub : decode 0x18208247#32 = .ok (.fmsubS 4 1 2 3 (.static .rne)) := by decide
theorem test_decode_fnmsub : decode 0x1820824b#32 = .ok (.fnmsubS 4 1 2 3 (.static .rne)) := by decide
theorem test_decode_fnmadd : decode 0x1820824f#32 = .ok (.fnmaddS 4 1 2 3 (.static .rne)) := by decide
theorem test_decode_fadd : decode 0x002081d3#32 = .ok (.faddS 3 1 2 (.static .rne)) := by decide
theorem test_decode_fsub : decode 0x082081d3#32 = .ok (.fsubS 3 1 2 (.static .rne)) := by decide
theorem test_decode_fmul : decode 0x102091d3#32 = .ok (.fmulS 3 1 2 (.static .rtz)) := by decide
theorem test_decode_fdiv : decode 0x182081d3#32 = .ok (.fdivS 3 1 2 (.static .rne)) := by decide
theorem test_decode_fsqrt : decode 0x580081d3#32 = .ok (.fsqrtS 3 1 (.static .rne)) := by decide
theorem test_decode_fsgnj : decode 0x202081d3#32 = .ok (.fsgnjS 3 1 2) := by decide
theorem test_decode_fsgnjn : decode 0x202091d3#32 = .ok (.fsgnjnS 3 1 2) := by decide
theorem test_decode_fsgnjx : decode 0x2020a1d3#32 = .ok (.fsgnjxS 3 1 2) := by decide
theorem test_decode_fmin : decode 0x282081d3#32 = .ok (.fminS 3 1 2) := by decide
theorem test_decode_fmax : decode 0x282091d3#32 = .ok (.fmaxS 3 1 2) := by decide
theorem test_decode_fcvt_w_s : decode 0xc0009553#32 = .ok (.fcvtWS 10 1 (.static .rtz)) := by decide
theorem test_decode_fcvt_wu_s : decode 0xc0109553#32 = .ok (.fcvtWUS 10 1 (.static .rtz)) := by decide
theorem test_decode_fcvt_l_s : decode 0xc0209553#32 = .ok (.fcvtLS 10 1 (.static .rtz)) := by decide
theorem test_decode_fcvt_lu_s : decode 0xc0309553#32 = .ok (.fcvtLUS 10 1 (.static .rtz)) := by decide
theorem test_decode_fmv_x_w : decode 0xe0008553#32 = .ok (.fmvXW 10 1) := by decide
theorem test_decode_fclass : decode 0xe0009553#32 = .ok (.fclassS 10 1) := by decide
theorem test_decode_feq : decode 0xa020a553#32 = .ok (.feqS 10 1 2) := by decide
theorem test_decode_flt : decode 0xa0209553#32 = .ok (.fltS 10 1 2) := by decide
theorem test_decode_fle : decode 0xa0208553#32 = .ok (.fleS 10 1 2) := by decide
theorem test_decode_fcvt_s_w : decode 0xd00500d3#32 = .ok (.fcvtSW 1 10 (.static .rne)) := by decide
theorem test_decode_fcvt_s_wu : decode 0xd01500d3#32 = .ok (.fcvtSWU 1 10 (.static .rne)) := by decide
theorem test_decode_fcvt_s_l : decode 0xd02500d3#32 = .ok (.fcvtSL 1 10 (.static .rne)) := by decide
theorem test_decode_fcvt_s_lu : decode 0xd03500d3#32 = .ok (.fcvtSLU 1 10 (.static .rne)) := by decide
theorem test_decode_fmv_w_x : decode 0xf00500d3#32 = .ok (.fmvWX 1 10) := by decide
theorem test_decode_csrrw : decode 0x003515f3#32 = .ok (.csrrw 11 0x003 10) := by decide
theorem test_decode_csrrs : decode 0x00302573#32 = .ok (.csrrs 10 0x003 0) := by decide
theorem test_decode_csrrc : decode 0x0012b073#32 = .ok (.csrrc 0 0x001 5) := by decide
theorem test_decode_csrrwi : decode 0x0020d073#32 = .ok (.csrrwi 0 0x002 1) := by decide
theorem test_decode_csrrsi : decode 0x00106573#32 = .ok (.csrrsi 10 0x001 0) := by decide
theorem test_decode_csrrci : decode 0x003ff573#32 = .ok (.csrrci 10 0x003 31) := by decide
theorem test_decode_dynamic_mode : decode 0x0020f1d3#32 = .ok (.faddS 3 1 2 .dyn) := by decide
theorem test_decode_reserved_mode : decode 0x0020e1d3#32 = .ok (.faddS 3 1 2 .reserved110) := by decide

/-- The rows of the opcode map exclude each other (R88). -/
theorem test_rows_disjoint :
    opcodeTable.Pairwise (fun r q => r.mask &&& q.mask &&& (r.pattern ^^^ q.pattern) ≠ 0#32) := by decide +kernel

/-! ### One step on a small state -/

/-- Reset with `f1`, `f2`, `f3`, `x10` set and the word `w` at the pc, which is 0. -/
def start (w f1 f2 f3 : Bits32) (x10 : Word) : State :=
  ((((State.reset.writeF 1 f1).writeF 2 f2).writeF 3 f3).writeX 10 x10).placeWord w

/-- A floating-point register, the flags and the pc after one step. -/
def fpAfter (s : State) (r : FReg) : Option (Bits32 × Flags × Word) :=
  match step s with
  | .next t => some (t.readF r, t.fflags, t.pcVal)
  | .fault _ => none
  | .refused _ => none

/-- An integer register, the flags and `frm` after one step. -/
def intAfter (s : State) (r : XReg) : Option (Word × Flags × BitVec 3) :=
  match step s with
  | .next t => some (t.readX r, t.fflags, t.frm)
  | .fault _ => none
  | .refused _ => none

/-- The fault of one step. -/
def faultOf (s : State) : Option Fault :=
  match step s with
  | .next _ => none
  | .fault e => some e
  | .refused _ => none

/-- V-ADD-2 of `95_test_vectors.md`, R211: a tie to even. -/
theorem test_fadd :
    fpAfter (start 0x002081d3#32 0x3f800000#32 0x33800000#32 0x00000000#32 0x0#64) 3 =
      some (0x3f800000#32, 0b00001#5, 4) := by decide

/-- R212: an exact zero under RDN. -/
theorem test_fsub_rdn :
    fpAfter (start 0x0820a1d3#32 0x3f800000#32 0x3f800000#32 0x00000000#32 0x0#64) 3 =
      some (0x80000000#32, 0b00000#5, 4) := by decide

/-- R213: MAXF times 2 under RTZ. -/
theorem test_fmul_overflow :
    fpAfter (start 0x102091d3#32 0x7f7fffff#32 0x40000000#32 0x00000000#32 0x0#64) 3 =
      some (0x7f7fffff#32, 0b00101#5, 4) := by decide +kernel

/-- V-DIV-1, R214: 1 / 3. -/
theorem test_fdiv :
    fpAfter (start 0x182081d3#32 0x3f800000#32 0x40400000#32 0x00000000#32 0x0#64) 3 =
      some (0x3eaaaaab#32, 0b00001#5, 4) := by decide

/-- V-DIV-4, R142. -/
theorem test_fdiv_by_zero :
    fpAfter (start 0x182081d3#32 0x3f800000#32 0x80000000#32 0x00000000#32 0x0#64) 3 =
      some (0xff800000#32, 0b01000#5, 4) := by decide

/-- R215: the root of 2 under RUP. -/
theorem test_fsqrt_rup :
    fpAfter (start 0x5800b1d3#32 0x40000000#32 0x00000000#32 0x00000000#32 0x0#64) 3 =
      some (0x3fb504f4#32, 0b00001#5, 4) := by decide

/-- V-MIN-4, R217. -/
theorem test_fmin :
    fpAfter (start 0x282081d3#32 0x7f800001#32 0x3f800000#32 0x00000000#32 0x0#64) 3 =
      some (0x3f800000#32, 0b10000#5, 4) := by decide

/-- R218: -0 and +0. -/
theorem test_fmax :
    fpAfter (start 0x282091d3#32 0x80000000#32 0x00000000#32 0x00000000#32 0x0#64) 3 =
      some (0x00000000#32, 0b00000#5, 4) := by decide

/-- V-FMA-2, R221: the product is not rounded. -/
theorem test_fmadd :
    fpAfter (start 0x18208243#32 0x3f800001#32 0x3f800001#32 0xbf800002#32 0x0#64) 4 =
      some (0x28800000#32, 0b00000#5, 4) := by decide

/-- V-FMA-3, R222. -/
theorem test_fmsub :
    fpAfter (start 0x18208247#32 0x40000000#32 0x40400000#32 0x40800000#32 0x0#64) 4 =
      some (0x40000000#32, 0b00000#5, 4) := by decide

/-- V-FMA-5, R223. -/
theorem test_fnmsub :
    fpAfter (start 0x1820824b#32 0x40000000#32 0x40400000#32 0x40800000#32 0x0#64) 4 =
      some (0xc0000000#32, 0b00000#5, 4) := by decide

/-- V-FMA-7, R224. -/
theorem test_fnmadd :
    fpAfter (start 0x1820824f#32 0x3f800000#32 0x40000000#32 0x40400000#32 0x0#64) 4 =
      some (0xc0a00000#32, 0b00000#5, 4) := by decide

/-- V-SGN-4, R252. -/
theorem test_fsgnj :
    fpAfter (start 0x202081d3#32 0x7f800001#32 0x80000000#32 0x00000000#32 0x0#64) 3 =
      some (0xff800001#32, 0b00000#5, 4) := by decide

/-- V-SGN-3, R253. -/
theorem test_fsgnjn :
    fpAfter (start 0x202091d3#32 0xbf800000#32 0x40000000#32 0x00000000#32 0x0#64) 3 =
      some (0xbf800000#32, 0b00000#5, 4) := by decide

/-- R254. -/
theorem test_fsgnjx :
    fpAfter (start 0x2020a1d3#32 0xc0000000#32 0xbf800000#32 0x00000000#32 0x0#64) 3 =
      some (0x40000000#32, 0b00000#5, 4) := by decide

/-- R241: -1.5 under RTZ. -/
theorem test_fcvt_w_s :
    intAfter (start 0xc0009553#32 0xbfc00000#32 0x00000000#32 0 0) 10 = some (0xffffffffffffffff#64, 0b00001#5, 0) := by decide

/-- V-CVT-11, S5: sign-extended also in the unsigned form. -/
theorem test_fcvt_wu_s :
    intAfter (start 0xc0109553#32 0x4f000000#32 0x00000000#32 0 0) 10 = some (0xffffffff80000000#64, 0b00000#5, 0) := by decide

/-- R243. -/
theorem test_fcvt_l_s :
    intAfter (start 0xc0209553#32 0x4f800000#32 0x00000000#32 0 0) 10 = some (0x100000000#64, 0b00000#5, 0) := by decide

/-- R244: out of range. -/
theorem test_fcvt_lu_s :
    intAfter (start 0xc0309553#32 0xbf800000#32 0x00000000#32 0 0) 10 = some (0x0#64, 0b10000#5, 0) := by decide

/-- V-CVTF-13, R246: only the low word. -/
theorem test_fcvt_s_w :
    fpAfter (start 0xd00500d3#32 0x00000000#32 0x00000000#32 0x00000000#32 0x123456789#64) 1 =
      some (0x4e0d159e#32, 0b00001#5, 4) := by decide

/-- R247. -/
theorem test_fcvt_s_wu :
    fpAfter (start 0xd01500d3#32 0x00000000#32 0x00000000#32 0x00000000#32 0xffffffff#64) 1 =
      some (0x4f800000#32, 0b00001#5, 4) := by decide

/-- R248. -/
theorem test_fcvt_s_l :
    fpAfter (start 0xd02500d3#32 0x00000000#32 0x00000000#32 0x00000000#32 0x100000001#64) 1 =
      some (0x4f800000#32, 0b00001#5, 4) := by decide

/-- R249. -/
theorem test_fcvt_s_lu :
    fpAfter (start 0xd03500d3#32 0x00000000#32 0x00000000#32 0x00000000#32 0xffffffffffffffff#64) 1 =
      some (0x5f800000#32, 0b00001#5, 4) := by decide

/-- V-MV-1, R255. -/
theorem test_fmv_x_w :
    intAfter (start 0xe0008553#32 0xbf800000#32 0x00000000#32 0 0) 10 = some (0xffffffffbf800000#64, 0b00000#5, 0) := by decide

/-- V-MV-4, R256. -/
theorem test_fmv_w_x :
    fpAfter (start 0xf00500d3#32 0x00000000#32 0x00000000#32 0x00000000#32 0x123456787fc00001#64) 1 =
      some (0x7fc00001#32, 0b00000#5, 4) := by decide

/-- V-CMP-4, R272. -/
theorem test_feq :
    intAfter (start 0xa020a553#32 0x80000000#32 0x00000000#32 0 0) 10 = some (0x1#64, 0b00000#5, 0) := by decide

/-- V-CMP-7, R273. -/
theorem test_flt :
    intAfter (start 0xa0209553#32 0x7fc00000#32 0x3f800000#32 0 0) 10 = some (0x0#64, 0b10000#5, 0) := by decide

/-- V-CMP-2, R274. -/
theorem test_fle :
    intAfter (start 0xa0208553#32 0x40000000#32 0x3f800000#32 0 0) 10 = some (0x0#64, 0b00000#5, 0) := by decide

/-- V-CLS-11, R281. -/
theorem test_fclass :
    intAfter (start 0xe0009553#32 0xffbfffff#32 0x00000000#32 0 0) 10 = some (0x100#64, 0b00000#5, 0) := by decide

/-- V-LS-1, R201: `flw f1, 8(x10)`, the byte at the lowest address is bits 7:0. -/
theorem test_flw :
    fpAfter { start 0x00852087#32 0 0 0 0x1000 with
      mem := [(0, 0x87), (1, 0x20), (2, 0x85), (0x1008, 0xdb), (0x1009, 0x0f), (0x100a, 0x49), (0x100b, 0x40)] } 1 =
      some (0x40490fdb#32, 0#5, 4) := by decide

/-- R201, V-LS-4: a misaligned address under `trap`; the fault carries `ea` and the pc. -/
theorem test_flw_misaligned :
    faultOf (start 0x00852087#32 0 0 0 0x1001) = some (.loadAddressMisaligned 0x1009 0) := by decide

/-- The bytes of memory that a step leaves at four addresses. -/
def bytesAfter (s : State) (a b c d : Nat) : Option (Byte × Byte × Byte × Byte) :=
  match step s with
  | .next t => some (t.mem.read a, t.mem.read b, t.mem.read c, t.mem.read d)
  | .fault _ => none
  | .refused _ => none

/-- R202: `fsw f2, -4(x11)`, with `x11` = 0x2000 and `f2` = -1.0. -/
theorem test_fsw :
    bytesAfter ((start 0xfe25ae27#32 0 0xbf800000#32 0 0).writeX 11 0x2000) 0x1ffc 0x1ffd 0x1ffe 0x1fff =
      some (0x00, 0x00, 0x80, 0xbf) := by decide

/-- R202, V-LS-8: a store outside `MEM_VALID` for writing. -/
theorem test_fsw_access_fault :
    faultOf { (start 0xfe25ae27#32 0 0 0 0).writeX 11 0x1010 with cfg := { resetConfig with memValid := [⟨0, 0x100c, true, true, true⟩] } } =
      some (.storeAccessFault 0x100c 0) := by decide

/-- V-CSR-12, R172: `rd` = `rs1` swaps. -/
theorem test_csrrw :
    intAfter { start 0x00251573#32 0 0 0 0x6#64 with frm := 0b001#3, fflags := 0b00000#5 } 10 =
      some (0x1#64, 0b00000#5, 0b110#3) := by decide

/-- V-CSR-4, R177: only bits 7:0. -/
theorem test_csrrw_fcsr :
    intAfter { start 0x003515f3#32 0 0 0 0xffffff60#64 with frm := 0b000#3, fflags := 0b11111#5 } 11 =
      some (0x1f#64, 0b00000#5, 0b011#3) := by decide

/-- V-CSR-1, R173: a pure read. -/
theorem test_csrrs :
    intAfter { start 0x00302573#32 0 0 0 0x0#64 with frm := 0b010#3, fflags := 0b10001#5 } 10 =
      some (0x51#64, 0b10001#5, 0b010#3) := by decide

/-- V-CSR-14, R173: setting every bit. -/
theorem test_csrrs_all :
    intAfter ((start 0x0032a573#32 0 0 0 0).writeX 5 0xffffffff) 10 = some (0, 0b11111#5, 0b111#3) := by decide

/-- V-CSR-8, R174. -/
theorem test_csrrc :
    intAfter { (start 0x0012b073#32 0 0 0 0).writeX 5 1 with frm := 1, fflags := 0b11111#5 } 0 =
      some (0, 0b11110#5, 0b001#3) := by decide

/-- V-CSR-9, R175. -/
theorem test_csrrwi :
    intAfter { start 0x0020d073#32 0 0 0 0x0#64 with frm := 0b111#3, fflags := 0b00000#5 } 0 =
      some (0x0#64, 0b00000#5, 0b001#3) := by decide

/-- V-CSR-10, R175: a pure read. -/
theorem test_csrrsi :
    intAfter { start 0x00106573#32 0 0 0 0x0#64 with frm := 0b011#3, fflags := 0b01010#5 } 10 =
      some (0xa#64, 0b01010#5, 0b011#3) := by decide

/-- V-CSR-11, R175. -/
theorem test_csrrci :
    intAfter { start 0x003ff573#32 0 0 0 0x0#64 with frm := 0b101#3, fflags := 0b11111#5 } 10 =
      some (0xbf#64, 0b00000#5, 0b101#3) := by decide

/-- V-RM-8, R93: DYN with a reserved `frm`. -/
theorem test_reserved_frm :
    faultOf { start 0x0020f1d3#32 0x3f800000#32 0x33800000#32 0 0 with frm := 0b111#3 } =
      some (.illegalInstruction 0x0020f1d3#32 0) := by decide

/-- V-RM-11, R92: a reserved static mode faults although the result would be exact. -/
theorem test_reserved_static :
    faultOf (start 0xd00050d3#32 0 0 0 0) = some (.illegalInstruction 0xd00050d3#32 0) := by decide

/-- V-MUL-9 of `95_test_vectors.md` (R136): tininess is detected after rounding. -/
theorem test_tiny_after_rounding :
    fmulCore .rne 0x00fffffe#32 0x3f000001#32 = (0x00800000#32, 0b00001#5) := by decide +kernel

/-- R242 at XLEN=32 (S5): the 32-bit result fills the register. -/
theorem test_fcvt_wu_s_rv32 :
    intAfter { start 0xc0109553#32 0x4f000000#32 0 0 0 with cfg := { resetConfig with xlen := .rv32 } } 10 =
      some (0x80000000#64, 0#5, 0#3) := by decide

/-- R94: an RV64-only conversion at XLEN=32. -/
theorem test_fcvt_l_s_rv32 :
    faultOf { start 0xc0209553#32 0 0 0 0 with cfg := { resetConfig with xlen := .rv32 } } =
      some (.illegalInstruction 0xc0209553#32 0) := by decide

/-- The host's own interface: the first step after reset runs the placed instruction (R39). -/
theorem test_withFetchWord :
    fpAfter (State.reset.withFetchWord 32 0x18208243) 4 = some (0, 0, 4) := by decide

/-- The decoder as the opcode table numbers its bits. -/
theorem test_decodeTableWord : decodeTableWord 32 0x00106573 = some (.csrrsi 10 0x001 0) := by decide

/-! ### Witnesses: the hypotheses of every obligation that has some, met together, clause by clause -/

/-- A state of XLEN=32 with misaligned accesses done, `frm` reserved and every kind of register in use. -/
def busy : State :=
  { start 0x0020f1d3#32 0x3f800000#32 0x33800000#32 0 0x1001 with
    cfg := { resetConfig with xlen := .rv32, misalignedFp := .invisible }, frm := 0b101#3, fflags := 0b01010#5 }

/-- A state with one region, of eight bytes: readable and writable, but not fetchable, from address 4 on. -/
def fenced (pc : Word) : State :=
  { State.reset with pc := pc, cfg := { resetConfig with memValid := [⟨0, 4, true, true, true⟩, ⟨4, 4, false, false, false⟩] } }

theorem one_val : fval 0x3f800000#32 = 1 := by
  rw [fval_eq_units, show units 0x3f800000#32 = 2 ^ 149 by decide]
  norm_num

theorem two_val : fval 0x40000000#32 = 2 := by
  rw [fval_eq_units, show units 0x40000000#32 = 2 ^ 150 by decide]
  norm_num

theorem zero_val : fval 0x00000000#32 = 0 := by
  rw [fval_eq_units, show units 0x00000000#32 = 0 by decide]
  norm_num

theorem witness_EncodeInvertsDecode : decode 0xfe25ae27#32 = .ok (.fsw 2 11 (-4)) := by decide

theorem witness_DecodeFollowsOpcodeMap :
    decode 0x1820824f#32 = .ok (.fnmaddS 4 1 2 3 (.static .rne)) ∧
    (Instr.fnmaddS 4 1 2 3 (.static .rne)).row ∈ opcodeTable ∧
    0x1820824f#32 &&& (Instr.fnmaddS 4 1 2 3 (.static .rne)).row.mask =
      (Instr.fnmaddS 4 1 2 3 (.static .rne)).row.pattern := by decide +kernel

/-- R91: fmt 01 under OP-FP; R95: width 011 under LOAD-FP; R90 step (6): a word of the base ISA, and the zero word. -/
theorem witness_UnassignedWordsAreRejected :
    (∀ r ∈ opcodeTable, 0x022081d3#32 &&& r.mask ≠ r.pattern) ∧ opcodeOf 0x022081d3#32 = 0b1010011#7 ∧
    (∀ r ∈ opcodeTable, 0x00053087#32 &&& r.mask ≠ r.pattern) ∧ opcodeOf 0x00053087#32 = 0b0000111#7 ∧
    (∀ r ∈ opcodeTable, 0x00000013#32 &&& r.mask ≠ r.pattern) ∧ opcodeOf 0x00000013#32 = 0b0010011#7 ∧
    (∀ r ∈ opcodeTable, 0x00000000#32 &&& r.mask ≠ r.pattern) ∧ opcodeOf 0x00000000#32 = 0b0000000#7 := by
  decide +kernel

theorem witness_StepRunsDecodedInstruction :
    busy.isHalted = false ∧ busy.pcVal.toNat % 4 = 0 ∧ memValid4 busy.cfg busy.pcVal .fetch = true ∧
    busy.storedAt busy.pcVal = false ∧
    decode (busy.mem.read (byteAddr busy.cfg.xlen busy.pcVal 3) ++ busy.mem.read (byteAddr busy.cfg.xlen busy.pcVal 2) ++
      busy.mem.read (byteAddr busy.cfg.xlen busy.pcVal 1) ++ busy.mem.read (byteAddr busy.cfg.xlen busy.pcVal 0)) =
      .ok (.faddS 3 1 2 .dyn) := by decide +kernel

/-- A HALT address; the pc at 2 (misaligned), at 4 (the first address without fetch), at 0 with an unassigned word. -/
theorem witness_FetchAndDecodeExceptions :
    { State.reset with cfg := { resetConfig with halt := [0] } }.isHalted = true ∧
    ((fenced 2).isHalted = false ∧ (fenced 2).pcVal.toNat % 4 ≠ 0) ∧
    ((fenced 4).isHalted = false ∧ (fenced 4).pcVal.toNat % 4 = 0 ∧
      memValid4 (fenced 4).cfg (fenced 4).pcVal .fetch = false) ∧
    ((start 0x022081d3#32 0 0 0 0).isHalted = false ∧ (start 0x022081d3#32 0 0 0 0).pcVal.toNat % 4 = 0 ∧
      memValid4 (start 0x022081d3#32 0 0 0 0).cfg (start 0x022081d3#32 0 0 0 0).pcVal .fetch = true ∧
      (start 0x022081d3#32 0 0 0 0).storedAt (start 0x022081d3#32 0 0 0 0).pcVal = false) := by decide +kernel

theorem witness_FetchAndDecodeExceptions_word :
    ∃ why, decode ((start 0x022081d3#32 0 0 0 0).loadWord (start 0x022081d3#32 0 0 0 0).pcVal) = .error (.illegal why) :=
  ⟨_, rfl⟩

/-- R90 step (6): an ADDI, and the zero word that the reset state fetches. -/
theorem witness_FetchAndDecodeExceptions_outside :
    let s := start 0x00000013#32 0 0 0 0
    s.isHalted = false ∧ s.pcVal.toNat % 4 = 0 ∧ memValid4 s.cfg s.pcVal .fetch = true ∧ s.storedAt s.pcVal = false ∧
    decode (s.loadWord s.pcVal) = .error .outside ∧
    State.reset.isHalted = false ∧ State.reset.pcVal.toNat % 4 = 0 ∧
    memValid4 State.reset.cfg State.reset.pcVal .fetch = true ∧ State.reset.storedAt State.reset.pcVal = false ∧
    decode (State.reset.loadWord State.reset.pcVal) = .error .outside :=
  ⟨rfl, rfl, rfl, rfl, rfl, rfl, rfl, rfl, rfl, rfl⟩

/-- Cause 2 from the decoder and from a reserved mode; causes 1 and 0. -/
theorem witness_FaultCarriesItsInstruction :
    step (start 0x022081d3#32 0 0 0 0) = .fault (.illegalInstruction 0x022081d3#32 0) ∧
    step busy = .fault (.illegalInstruction 0x0020f1d3#32 0) ∧
    (Fault.illegalInstruction 0x0020f1d3#32 0).cause = 2 ∧
    step (fenced 4) = .fault (.instructionAccessFault 4) ∧ (Fault.instructionAccessFault 4).cause ≤ 1 ∧
    step (fenced 2) = .fault (.instructionAddressMisaligned 2) ∧ (Fault.instructionAddressMisaligned 2).cause ≤ 1 :=
  ⟨rfl, rfl, rfl, rfl, by decide, rfl, by decide⟩

/-- A step over a state that has stored; an FSW that completes; a pc whose last byte only was stored. -/
theorem witness_StoredBytesAreNeverExecuted :
    (∃ t, step { start 0x00106573#32 0 0 0 0 with stored := [64] } = .next t) ∧
    (∃ t, exec (.fsw 2 11 (-4)) ((start 0 0 0 0 0).writeX 11 0x2000) = .next t) ∧
    (let s : State := { start 0x00106573#32 0 0 0 0 with stored := [3, 64] }
     s.isHalted = false ∧ s.pcVal.toNat % 4 = 0 ∧ memValid4 s.cfg s.pcVal .fetch = true ∧
       ∃ i < 4, byteAddr s.cfg.xlen s.pcVal i ∈ s.stored) :=
  ⟨⟨_, rfl⟩, ⟨_, rfl⟩, by decide, by decide, by decide, 3, by decide, by decide⟩

theorem witness_StepKeepsInvariant :
    State.Inv { start 0xfe25ae27#32 0 0xbf800000#32 0 0 with stored := [64] } ∧
      ∃ t, step (start 0xfe25ae27#32 0 0xbf800000#32 0 0 |>.writeX 11 0x2000) = .next t :=
  ⟨⟨by decide, by decide, by decide, by decide, by decide, by decide, by decide, by decide⟩, _, rfl⟩

theorem witness_LaunchHasInvariant : State.Launch { start 0x00106573#32 1 2 3 4 with frm := 0b111#3, fflags := 0b10101#5 } :=
  ⟨by decide, by decide, by decide, by decide, by decide, by decide, by decide⟩

theorem witness_ParametersAreConstant : ∃ t, step (start 0x00106573#32 0 0 0 0) = .next t := ⟨_, rfl⟩

/-- At the top of a 32-bit address space, where the pc wraps. -/
theorem witness_PcAdvancesByFour :
    ∃ t, exec (.fminS 3 1 2) { busy with pc := 0xfffffffc } = .next t := ⟨_, rfl⟩

theorem witness_OnlyCsrInstructionsClearFlagsOrWriteFrm :
    (Instr.fdivS 3 1 2 (.static .rne)).csr? = none ∧ (∃ t, exec (.fdivS 3 1 2 (.static .rne)) busy = .next t) ∧
      busy.fflags.getLsbD 1 = true := ⟨rfl, ⟨_, rfl⟩, by decide⟩

theorem witness_OnlyFswWritesMemory :
    (∀ rs2 rs1 imm, Instr.flw 1 10 8 ≠ .fsw rs2 rs1 imm) ∧ ∃ t, exec (.flw 1 10 8) busy = .next t :=
  ⟨by intros; simp, _, rfl⟩

/-- Both reserved static modes, and DYN with each of the three reserved values of `frm`. -/
theorem witness_ReservedRoundingModeTraps :
    (Instr.fcvtSW 1 0 .reserved101).rm? = some .reserved101 ∧ RmField.reserved101.bits = 0b101#3 ∧
    (Instr.fmaddS 4 1 2 3 .reserved110).rm? = some .reserved110 ∧ RmField.reserved110.bits = 0b110#3 ∧
    (Instr.faddS 3 1 2 .dyn).rm? = some .dyn ∧ RmField.dyn.bits = 0b111#3 ∧ busy.frm = 0b101#3 ∧
    { busy with frm := 0b110#3 }.frm = 0b110#3 ∧ { busy with frm := 0b111#3 }.frm = 0b111#3 := by decide

theorem witness_Rv64OnlyConversionsTrapAtXlen32 : busy.cfg.xlen = .rv32 := rfl

/-- The CSR numbers next to the three. -/
theorem witness_OtherCsrNumbersAreRefused :
    (Instr.csrrs 10 0x000 0).csr? = some 0x000 ∧ (Instr.csrrwi 10 0x004 1).csr? = some 0x004 ∧
    0x000#12 ≠ 0x001#12 ∧ 0x000#12 ≠ 0x002#12 ∧ 0x000#12 ≠ 0x003#12 ∧
    0x004#12 ≠ 0x001#12 ∧ 0x004#12 ≠ 0x002#12 ∧ 0x004#12 ≠ 0x003#12 := by decide

/-- The last misaligned address before, and the first address of, a region without read and write. -/
theorem witness_LoadStoreExceptions :
    (((fenced 0).effAddr 0 3).toNat % 4 ≠ 0 ∧ (fenced 0).cfg.misalignedFp = .trap) ∧
    (((fenced 0).effAddr 0 4).toNat % 4 = 0 ∧ memValid4 (fenced 0).cfg ((fenced 0).effAddr 0 4) .read = false ∧
      memValid4 (fenced 0).cfg ((fenced 0).effAddr 0 4) .write = false) ∧
    (let s : State := { fenced 0 with cfg := { (fenced 0).cfg with misalignedFp := .invisible } }
     s.cfg.misalignedFp = .invisible ∧ memValid4 s.cfg (s.effAddr 0 1) .read = false ∧
       memValid4 s.cfg (s.effAddr 0 1) .write = false) := by decide

theorem witness_OperandPatternsNeverFault :
    exec (.fsqrtS 3 1 .dyn) busy = .fault (.illegalInstruction (encode (.fsqrtS 3 1 .dyn)) 0) := rfl

/-- An instruction that completes, one that faults. -/
theorem witness_StaticInstructionsIgnoreFrm :
    (Instr.faddS 3 1 2 (.static .rmm)).csr? = none ∧ (Instr.faddS 3 1 2 (.static .rmm)).rm? ≠ some .dyn ∧
    (∃ t, exec (.faddS 3 1 2 (.static .rmm)) busy = .next t) ∧
    (Instr.fcvtSW 1 0 .reserved101).csr? = none ∧ (Instr.fcvtSW 1 0 .reserved101).rm? ≠ some .dyn ∧
    (∃ e, exec (.fcvtSW 1 0 .reserved101) busy = .fault e) :=
  ⟨rfl, by decide, ⟨_, rfl⟩, rfl, by decide, ⟨_, rfl⟩⟩

/-- An aligned access, and a misaligned one that wraps at the top of the address space. -/
theorem witness_FlwLoadsTheWord :
    ((fenced 0).effAddr 0 0).toNat % 4 = 0 ∧ memValid4 (fenced 0).cfg ((fenced 0).effAddr 0 0) .read = true ∧
    busy.cfg.misalignedFp = .invisible ∧ (busy.effAddr 0 (-1)).toNat = 2 ^ 32 - 1 ∧
    memValid4 busy.cfg (busy.effAddr 0 (-1)) .read = true := by decide

theorem witness_FswStoresTheWord :
    (fenced 0).mem.wf ∧ ((fenced 0).effAddr 0 0).toNat % 4 = 0 ∧
    memValid4 (fenced 0).cfg ((fenced 0).effAddr 0 0) .write = true ∧
    busy.mem.wf ∧ busy.cfg.misalignedFp = .invisible ∧ memValid4 busy.cfg (busy.effAddr 0 (-1)) .write = true := by
  decide +kernel

theorem witness_StoreThenLoadRoundTrip :
    (fenced 0).mem.wf ∧
    (∃ t, exec (.fsw 2 0 0) (fenced 0) = .next t ∧ t.effAddr 5 0 = (fenced 0).effAddr 0 0) ∧
    memValid4 (fenced 0).cfg ((fenced 0).effAddr 0 0) .read = true :=
  ⟨by decide, ⟨_, rfl, by decide⟩, by decide⟩

/-- A legal effective mode, static while `frm` is reserved, and dynamic; every statement that asks for one. -/
theorem witness_effective_mode :
    rmEff (.static .rmm) busy.frm = some .rmm ∧ rmEff .dyn State.reset.frm = some .rne ∧ rmEff .dyn 0b100#3 = some .rmm := by
  decide

theorem witness_ArithmeticCompletes : rmEff (.static .rup) busy.frm = some .rup := by decide

theorem witness_FusedMultiplyAddCompletes : rmEff (.static .rne) busy.frm = some .rne := by decide

theorem witness_FloatToIntCompletes :
    rmEff (.static .rtz) (start 0 0 0 0 0).frm = some .rtz ∧ (start 0 0 0 0 0).cfg.xlen = .rv64 := by decide

theorem witness_IntToFloatCompletes :
    rmEff .dyn (start 0 0 0 0 0).frm = some .rne ∧ (start 0 0 0 0 0).cfg.xlen = .rv64 := by decide

/-- An integer; a quarter, a half and three quarters above one; an irrational root. -/
theorem witness_RoundIntFollowsRule :
    (Mag.ratio 3 1).Denotes 3 ∧ (3 : ℝ) - ⌊(3 : ℝ)⌋₊ = 0 ∧
    (Mag.ratio 5 4).Denotes (5 / 4) ∧ (Mag.ratio 3 2).Denotes (3 / 2) ∧ (Mag.ratio 7 4).Denotes (7 / 4) ∧
    (5 / 4 : ℝ) - ⌊(5 / 4 : ℝ)⌋₊ < 1 / 2 ∧ (3 / 2 : ℝ) - ⌊(3 / 2 : ℝ)⌋₊ = 1 / 2 ∧
    1 / 2 < (7 / 4 : ℝ) - ⌊(7 / 4 : ℝ)⌋₊ ∧ (Mag.root 2 1).Denotes (Real.sqrt 2) := by
  have f1 : ⌊(5 / 4 : ℝ)⌋₊ = 1 := by rw [Nat.floor_eq_iff] <;> norm_num
  have f2 : ⌊(3 / 2 : ℝ)⌋₊ = 1 := by rw [Nat.floor_eq_iff] <;> norm_num
  have f3 : ⌊(7 / 4 : ℝ)⌋₊ = 1 := by rw [Nat.floor_eq_iff] <;> norm_num
  refine ⟨?_, ?_, ?_, ?_, ?_, ?_, ?_, ?_, ?_⟩
  all_goals first
    | (rw [f1]; norm_num)
    | (rw [f2]; norm_num)
    | (rw [f3]; norm_num)
    | (norm_num [Mag.Denotes])

/-- The exact result -5/3. -/
theorem witness_RoundF32IsCorrectlyRounded :
    (⟨true, .ratio 5 3⟩ : Exact).Denotes (-(5 / 3)) ∧ (-(5 / 3) : ℝ) ≠ 0 := by
  refine ⟨⟨5 / 3, ?_, ?_⟩, ?_⟩ <;> norm_num [Mag.Denotes]

/-- 1 and 2: every one of the five exact results is nonzero, and the root's operand is positive. -/
theorem witness_ArithmeticIsCorrectlyRounded :
    isFinite 0x3f800000#32 = true ∧ isFinite 0x40000000#32 = true ∧
    (fval 0x3f800000#32 : ℝ) + fval 0x40000000#32 ≠ 0 ∧ (fval 0x3f800000#32 : ℝ) - fval 0x40000000#32 ≠ 0 ∧
    (fval 0x3f800000#32 : ℝ) * fval 0x40000000#32 ≠ 0 ∧ fval 0x3f800000#32 ≠ 0 ∧ fval 0x40000000#32 ≠ 0 ∧
    0 < fval 0x3f800000#32 := by
  refine ⟨by decide, by decide, ?_⟩
  rw [one_val, two_val]
  norm_num

theorem witness_FusedMultiplyAddIsCorrectlyRounded :
    isFinite 0x3f800000#32 = true ∧ isFinite 0x40000000#32 = true ∧
    (fval 0x40000000#32 : ℝ) * fval 0x40000000#32 + fval 0x3f800000#32 ≠ 0 ∧
    (fval 0x40000000#32 : ℝ) * fval 0x40000000#32 - fval 0x3f800000#32 ≠ 0 ∧
    -((fval 0x40000000#32 : ℝ) * fval 0x40000000#32) + fval 0x3f800000#32 ≠ 0 ∧
    -((fval 0x40000000#32 : ℝ) * fval 0x40000000#32) - fval 0x3f800000#32 ≠ 0 := by
  refine ⟨by decide, by decide, ?_⟩
  rw [one_val, two_val]
  norm_num

/-- The first and the last signaling and quiet patterns, as any of the operands. -/
theorem witness_NanOperandsGiveCanonicalNan :
    isNaN 0x7f800001#32 = true ∧ isNaN 0x7fbfffff#32 = true ∧ isNaN 0x7fc00000#32 = true ∧
    isNaN 0xffffffff#32 = true := by decide

/-- A result that is a NaN, of each of the eight operations. -/
theorem witness_NanResultsAreCanonical :
    [(faddCore .rne 0x7fc00001#32 0#32).1, (fsubCore .rne 0x7fc00001#32 0#32).1, (fmulCore .rne 0x7fc00001#32 0#32).1,
      (fdivCore .rne 0x7fc00001#32 0#32).1, (fsqrtCore .rne 0x7fc00001#32).1,
      (fmaCore .rne 0x7fc00001#32 0#32 0#32 false false).1, (fminCore 0x7fc00001#32 0x7fc00001#32).1,
      (fmaxCore 0x7fc00001#32 0x7fc00001#32).1].all isNaN = true := by decide

/-- Infinities of unlike and of like signs, zeros, a negative subnormal and minus infinity under the root. -/
theorem witness_InvalidOperationsGiveNan :
    (isInf 0x7f800000#32 = true ∧ isInf 0xff800000#32 = true ∧ fsign 0x7f800000#32 ≠ fsign 0xff800000#32) ∧
    (isZero 0x80000000#32 = true ∧ isZero 0x00000000#32 = true) ∧
    (fsign 0x80000001#32 = true ∧ isZero 0x80000001#32 = false ∧ isNaN 0x80000001#32 = false) ∧
    (fsign 0xff800000#32 = true ∧ isZero 0xff800000#32 = false ∧ isNaN 0xff800000#32 = false) ∧
    (isZero 0x3f800000#32 = false ∧ isNaN 0x3f800000#32 = false ∧
      (fsign 0xff800000#32 ^^ false) ≠ ((fsign 0x7f800000#32 ^^ fsign 0x3f800000#32) ^^ false)) := by decide

/-- `a` = +inf and `b` = MAXF (the sum, the difference, the product, the quotient, the fused sum with a finite addend);
`a` = `b` = +inf (the sum) and `b` = -inf (the difference); an addend -inf of the product's sign (`np`), and an addend with
a finite product. -/
theorem witness_InfinityArithmeticIsExact :
    isInf 0x7f800000#32 = true ∧ isInf 0xff800000#32 = true ∧ isNaN 0x7f800000#32 = false ∧ isNaN 0xff800000#32 = false ∧
    isZero 0x7f800000#32 = false ∧ isFinite 0x7f7fffff#32 = true ∧ isNaN 0x7f7fffff#32 = false ∧
    isInf 0x7f7fffff#32 = false ∧ isZero 0x7f7fffff#32 = false ∧ fsign 0x7f800000#32 ≠ fsign 0xff800000#32 ∧
    (fsign 0xff800000#32 ^^ false) = ((fsign 0x7f800000#32 ^^ fsign 0x7f7fffff#32) ^^ true) := by decide

/-- 0 + 0, 1 - 1, 0 - 0, 1 * 0, 0 / 1, the root of 0, -(1 * 1) + 1: every clause. -/
theorem witness_ExactZeroResults :
    isFinite 0x00000000#32 = true ∧ isFinite 0x3f800000#32 = true ∧
    fval 0x00000000#32 + fval 0x00000000#32 = 0 ∧ fval 0x3f800000#32 - fval 0x3f800000#32 = 0 ∧
    fval 0x00000000#32 - fval 0x00000000#32 = 0 ∧ fval 0x3f800000#32 * fval 0x00000000#32 = 0 ∧
    fval 0x00000000#32 = 0 ∧ fval 0x3f800000#32 ≠ 0 ∧
    -(fval 0x3f800000#32 * fval 0x3f800000#32) + fval 0x3f800000#32 = 0 := by
  refine ⟨by decide, by decide, ?_⟩
  rw [one_val, zero_val]
  norm_num

theorem witness_DivideByZero :
    (isZero 0x80000000#32 = true ∧ isFinite 0x00000001#32 = true ∧ isZero 0x00000001#32 = false ∧
      isInf 0xff800000#32 = true) ∧
    ((Instr.fsqrtS 3 1 (.static .rne)).csr? = none ∧
      (∀ rd rs1 rs2 rm, Instr.fsqrtS 3 1 (.static .rne) ≠ .fdivS rd rs1 rs2 rm) ∧
      ∃ t, exec (.fsqrtS 3 1 (.static .rne)) busy = .next t) :=
  ⟨by decide, rfl, by intros; simp, _, rfl⟩

/-- The root of 2, which is no binary32 number, beside the next pattern above the delivered one. -/
theorem witness_SquareRootNeverTies :
    isFinite 0x40000000#32 = true ∧ 0 < fval 0x40000000#32 ∧ (fsqrtCore .rne 0x40000000#32).1 = 0x3fb504f3#32 ∧
    isFinite 0x3fb504f4#32 = true ∧ fval 0x3fb504f4#32 ≠ fval 0x3fb504f3#32 := by
  refine ⟨by decide, by rw [two_val]; norm_num, by decide, by decide, ?_⟩
  rw [fval_eq_units, fval_eq_units, show units 0x3fb504f4#32 = 11863284 * 2 ^ 126 by decide,
    show units 0x3fb504f3#32 = 11863283 * 2 ^ 126 by decide]
  norm_num

/-- The ends of the integer range. -/
theorem witness_FlagsByInstruction : |(2 ^ 64 : ℤ)| ≤ 2 ^ 64 ∧ |(-(2 ^ 64) : ℤ)| ≤ 2 ^ 64 := by norm_num

theorem witness_FlagCombinations :
    (Instr.fdivS 3 1 2 (.static .rne)).csr? = none ∧ ∃ t, exec (.fdivS 3 1 2 (.static .rne)) busy = .next t :=
  ⟨rfl, _, rfl⟩

/-- Two numbers, two zeros, one NaN on either side, two NaNs. -/
theorem witness_MinMaxSelectTheNumber :
    isNaN 0x7f7fffff#32 = false ∧ isNaN 0xff800000#32 = false ∧ isNaN 0x80000000#32 = false ∧
    isZero 0x80000000#32 = true ∧ isZero 0x00000000#32 = true ∧ isNaN 0x00000000#32 = false ∧
    isNaN 0x7f800001#32 = true ∧ isNaN 0xffc00000#32 = true := by decide

/-- Both widths, both signednesses, and each row of the table. -/
theorem witness_FloatToIntRoundsAndSaturates :
    ((32 : ℕ) = 32 ∨ (32 : ℕ) = 64) ∧ ((64 : ℕ) = 32 ∨ (64 : ℕ) = 64) ∧
    (∃ lo hi : ℤ, lo = (if true then -2 ^ (32 - 1) else 0) ∧ hi = (if true then 2 ^ (32 - 1) - 1 else 2 ^ 32 - 1)) ∧
    (∃ lo hi : ℤ, lo = (if false then -2 ^ (64 - 1) else 0) ∧ hi = (if false then 2 ^ (64 - 1) - 1 else 2 ^ 64 - 1)) ∧
    isNaN 0xffffffff#32 = true ∧ isFinite 0x4f000000#32 = true ∧ isFinite 0x80000001#32 = true :=
  ⟨.inl rfl, .inr rfl, ⟨_, _, rfl, rfl⟩, ⟨_, _, rfl, rfl⟩, by decide, by decide, by decide⟩

theorem witness_IntToFloatIsCorrectlyRounded :
    (0 : ℤ) = 0 ∧ (2 ^ 24 + 1 : ℤ) ≠ 0 ∧ |(2 ^ 24 : ℤ)| ≤ 2 ^ 24 ∧ |(-(2 ^ 24) : ℤ)| ≤ 2 ^ 24 := by norm_num

/-- Each of the nine pairs completes at XLEN=64. -/
theorem witness_DestinationX0StillAccruesFlags :
    ∀ p ∈ [(Instr.fcvtWS 0 1 (.static .rtz), Instr.fcvtWS 10 1 (.static .rtz)),
        (.fcvtWUS 0 1 (.static .rtz), .fcvtWUS 10 1 (.static .rtz)), (.fcvtLS 0 1 (.static .rtz), .fcvtLS 10 1 (.static .rtz)),
        (.fcvtLUS 0 1 (.static .rtz), .fcvtLUS 10 1 (.static .rtz)), (.fmvXW 0 1, .fmvXW 10 1), (.feqS 0 1 2, .feqS 10 1 2),
        (.fltS 0 1 2, .fltS 10 1 2), (.fleS 0 1 2, .fleS 10 1 2), (.fclassS 0 1, .fclassS 10 1)],
      (∃ t, exec p.1 State.reset = .next t) ∧ (∃ u, exec p.2 State.reset = .next u) := by
  simp only [List.mem_cons, List.not_mem_nil, or_false, forall_eq_or_imp, forall_eq]
  exact ⟨⟨⟨_, rfl⟩, _, rfl⟩, ⟨⟨_, rfl⟩, _, rfl⟩, ⟨⟨_, rfl⟩, _, rfl⟩, ⟨⟨_, rfl⟩, _, rfl⟩, ⟨⟨_, rfl⟩, _, rfl⟩,
    ⟨⟨_, rfl⟩, _, rfl⟩, ⟨⟨_, rfl⟩, _, rfl⟩, ⟨⟨_, rfl⟩, _, rfl⟩, ⟨⟨_, rfl⟩, _, rfl⟩⟩

theorem witness_CompareWritesTheRelation :
    ∃ a b, a = busy.readF 1 ∧ b = busy.readF 2 ∧ isNaN a = false ∧ isNaN b = false := ⟨_, _, rfl, rfl, by decide, by decide⟩

/-- Both zeros, as two numbers; a NaN on one side. -/
theorem witness_CompareResultsAreATrichotomy :
    isNaN 0x00000000#32 = false ∧ isNaN 0x80000000#32 = false ∧ isNaN 0x7f800001#32 = true := by decide

theorem witness_ClassifyWritesTheMask : ∃ a, a = busy.readF 1 := ⟨_, rfl⟩

theorem witness_CsrRegisterFormsComplete : ∃ w, w = busy.readX 10 := ⟨_, rfl⟩

end Sys2Proof.Tests
end

section
/-! PROOF. The scope's statement about the parameters (`00_scope.md`). -/

namespace Sys2Proof.Proofs

open Sys2Proof.Machine

/-- Settles O13: a step that answers a next state has executed a decoded instruction, and no instruction writes the
parameters. -/
theorem parametersAreConstant : Obligations.ParametersAreConstant := by
  intro s t hstep
  obtain ⟨_, i, _, _, hexec⟩ := (step_eq_next s t).mp hstep
  exact (exec_cfg_pc i s t hexec).1

end Sys2Proof.Proofs
end

section
/-! PROOF. The state of the hart: its invariant and reset, the step, the pc, the flags, the CSR views (`10_state.md`). -/

namespace Sys2Proof.Proofs

open Sys2Proof.Machine

/-! ### Each state operation keeps the invariant -/

/-- The invariant speaks of five fields alone: parameters, memory, stored addresses, integer registers, pc. -/
theorem inv_of_fields_eq {s t : State} (h : s.Inv) (hcfg : t.cfg = s.cfg) (hmem : t.mem = s.mem)
    (hstored : t.stored = s.stored) (hx : t.x = s.x) (hpc : t.pc = s.pc) : t.Inv where
  memWf := hmem ▸ h.memWf
  memInSpace := by simpa only [hmem, hcfg] using h.memInSpace
  storedWf := hstored ▸ h.storedWf
  storedInSpace := by simpa only [hstored, hcfg] using h.storedInSpace
  xZero := by simpa only [hx] using h.xZero
  xFits := by simpa only [hx, hcfg] using h.xFits
  pcFits := by simpa only [hpc, hcfg] using h.pcFits
  pcAligned := hpc ▸ h.pcAligned

theorem inv_writeF {s : State} (h : s.Inv) (rd : FReg) (v : Bits32) : (s.writeF rd v).Inv :=
  inv_of_fields_eq h rfl rfl rfl rfl rfl

theorem inv_accrue {s : State} (h : s.Inv) (m : Flags) : (s.accrue m).Inv :=
  inv_of_fields_eq h rfl rfl rfl rfl rfl

theorem inv_csrWrite {s : State} (h : s.Inv) (n : CsrNum) (w : Word) : (s.csrWrite n w).Inv :=
  inv_of_fields_eq h (by simp) (by simp) (by simp) (by simp) (by simp)

/-- A write of `x0` is discarded, and a write of another register cuts the value to XLEN bits (R11, R24). -/
theorem inv_writeX {s : State} (h : s.Inv) (rd : XReg) (v : Word) : (s.writeX rd v).Inv := by
  by_cases hrd : rd = 0#5
  · rw [hrd, State.writeX_zero]
    exact h
  · have hne : rd.toNat ≠ 0 := fun e => hrd (BitVec.eq_of_toNat_eq e)
    rw [State.writeX_of_ne s rd v hrd]
    exact { h with
      xZero := by simpa [Vector.getElem_set_ne _ _ hne] using h.xZero
      xFits := fun i => by
        by_cases hi : rd.toNat = i
        · simp [hi]
        · simpa [Vector.getElem_set_ne _ _ hi] using h.xFits i }

/-- The byte writes of FSW and their record stay canonical and inside the address space (R50, R66). -/
theorem inv_storeWord {s : State} (h : s.Inv) (addr : Word) (v : Bits32) : (s.storeWord addr v).Inv :=
  { h with
    memWf := storeBytes_wf _ _ h.memWf _ _
    memInSpace := storeBytes_inSpace _ _ _ _ h.memInSpace
    storedWf := addAccess_wf _ _ _ h.storedWf
    storedInSpace := fun a ha => by
      rcases (mem_addAccess _ _ _ a).mp ha with hold | ⟨i, _, rfl⟩
      · exact h.storedInSpace a hold
      · exact byteAddr_lt _ _ i }

/-- Stepping the pc by 4 keeps it an aligned XLEN-bit value, also where it wraps (R26, R58). -/
theorem inv_advance {s : State} (h : s.Inv) : s.advance.Inv :=
  { h with
    pcFits := truncXlen_idem _ _
    pcAligned := aligned4_truncXlen_add_four _ _ ((aligned4_truncXlen _ _).trans h.pcAligned) }

/-- Every instruction that completes keeps the invariant, in each of the shapes it can have. -/
theorem exec_keeps_inv (i : Instr) {s t : State} (h : s.Inv) (hexec : exec i s = .next t) : t.Inv := by
  rcases exec_cases i s t hexec with ⟨rd, v, m, _, rfl⟩ | ⟨rd, v, m, _, rfl⟩ | ⟨rs2, rs1, imm, _, rfl⟩ |
    ⟨rd, n, old, _, _, rfl | ⟨w, rfl⟩⟩
  case inl => exact inv_advance (inv_accrue (inv_writeF h rd v) m)
  case inr.inl => exact inv_advance (inv_accrue (inv_writeX h rd v) m)
  case inr.inr.inl => exact inv_advance (inv_storeWord h _ _)
  case inr.inr.inr.inl => exact inv_advance (inv_writeX h rd old)
  case inr.inr.inr.inr => exact inv_advance (inv_writeX (inv_csrWrite h n w) rd old)

/-- Settles O10: a step that answers a next state has executed a decoded instruction, and each instruction is a sequence
of state operations that keep the invariant. -/
theorem stepKeepsInvariant : Obligations.StepKeepsInvariant := by
  intro s t hinv hstep
  obtain ⟨_, i, _, _, hexec⟩ := (step_eq_next s t).mp hstep
  exact exec_keeps_inv i hinv hexec

/-! ### The pc, the flags and `frm` after an instruction (R26, R28, R29) -/

/-- `pc + 4` modulo 2^XLEN as a number: the 64-bit sum wraps at a multiple of 2^XLEN. -/
theorem nextPc_toNat (s : State) : s.nextPc.toNat = (s.pcVal.toNat + 4) % addrSpace s.cfg.xlen := by
  rw [State.nextPc, toNat_truncXlen, BitVec.toNat_add, show (4 : Word).toNat = 4 from rfl]
  cases s.cfg.xlen <;> simp only [addrSpace] <;> omega

/-- Settles O14: every instruction that completes ends at `nextPc`. -/
theorem pcAdvancesByFour : Obligations.PcAdvancesByFour := by
  intro i s t hexec
  obtain ⟨_, hpc⟩ := exec_cfg_pc i s t hexec
  rw [hpc, nextPc_toNat]

/-- An instruction that names no CSR keeps `frm` and only accrues flags (R28, R29). -/
theorem exec_frm_fflags {i : Instr} {s t : State} (hcsr : i.csr? = none) (hexec : exec i s = .next t) :
    t.frm = s.frm ∧ ∃ m, t.fflags = s.fflags ||| m := by
  rcases exec_cases i s t hexec with ⟨rd, v, m, _, rfl⟩ | ⟨rd, v, m, _, rfl⟩ | ⟨rs2, rs1, imm, _, rfl⟩ |
    ⟨rd, n, old, hn, _⟩
  case inl => exact ⟨rfl, m, rfl⟩
  case inr.inl => exact ⟨by simp, m, by simp⟩
  case inr.inr.inl => exact ⟨rfl, 0#5, by simp⟩
  case inr.inr.inr =>
    rw [hcsr] at hn
    contradiction

/-- Settles O15: OR-ing flags in clears none. -/
theorem onlyCsrInstructionsClearFlagsOrWriteFrm : Obligations.OnlyCsrInstructionsClearFlagsOrWriteFrm := by
  intro i s t hcsr hexec
  obtain ⟨hfrm, m, hflags⟩ := exec_frm_fflags hcsr hexec
  refine ⟨hfrm, fun k hk => ?_⟩
  rw [hflags, BitVec.getLsbD_or, hk, Bool.true_or]

/-! ### The step (R25) -/

/-- Where the run is not halted and the fetch succeeds, a word that decodes is executed (R25, R58, R66, R90). -/
theorem step_eq_exec {s : State} {i : Instr} (hhalt : s.isHalted = false)
    (hfetch : s.memFetch = .next (s.loadWord s.pcVal)) (hdecode : decode (s.loadWord s.pcVal) = .ok i) :
    step s = exec i s := by
  rw [step_eq, hhalt, if_neg Bool.false_ne_true, hfetch, Result.bind_next, runWord, hdecode]

/-- Settles O6: the four conditions on the state make the fetch answer the little-endian word at the pc. -/
theorem stepRunsDecodedInstruction : Obligations.StepRunsDecodedInstruction := by
  intro s i hhalt halign hvalid hstored hdecode
  have hfetch : s.memFetch = .next (s.loadWord s.pcVal) :=
    (State.memFetch_eq_next s _).mpr ⟨(aligned4_iff _).mpr halign, hvalid, hstored, rfl⟩
  exact step_eq_exec hhalt hfetch hdecode

/-! ### Launch and reset (R36 to R39, R340) -/

/-- A launch state has the invariant: nothing is stored yet, and the pc is an aligned `RESET_PC` cut to XLEN bits. -/
theorem inv_of_launch {s : State} (h : s.Launch) : s.Inv where
  memWf := h.memWf
  memInSpace := h.memInSpace
  storedWf := by simp [h.nothingStored]
  storedInSpace := by simp [h.nothingStored]
  xZero := h.xZero
  xFits := h.xFits
  pcFits := by rw [h.pcAtReset, truncXlen_idem]
  pcAligned := by rw [h.pcAtReset, aligned4_truncXlen, h.resetPcAligned]

/-- The state after reset is a launch state under all parameters whose `RESET_PC` is an aligned XLEN-bit value. -/
theorem resetWith_launch (c : Config) (halign : aligned4 c.resetPc = true)
    (hfits : truncXlen c.xlen c.resetPc = c.resetPc) : (State.resetWith c).Launch where
  memWf := reset_memory_wf
  memInSpace := by simp [State.resetWith]
  nothingStored := rfl
  xZero := rfl
  xFits i := by simpa [State.resetWith] using truncXlen_zero c.xlen
  resetPcAligned := halign
  pcAtReset := hfits.symm

/-- Settles O12: the model's parameters have `RESET_PC` 0, which is aligned. -/
theorem resetIsALaunchState : Obligations.ResetIsALaunchState := by
  have hlaunch : State.reset.Launch := resetWith_launch resetConfig (by decide) rfl
  exact ⟨hlaunch, inv_of_launch hlaunch, rfl, State.readX_zero _, rfl⟩

/-! ### The CSR views (R30, R31, R177) -/

/-- Writing one view sets its fields to the low bits of the word and keeps the others (R30, R170). -/
theorem csrWrite_fields (s : State) (w : Word) :
    ((s.csrWrite 0x001#12 w).frm = s.frm ∧ (s.csrWrite 0x001#12 w).fflags = w.extractLsb' 0 5) ∧
    ((s.csrWrite 0x002#12 w).frm = w.extractLsb' 0 3 ∧ (s.csrWrite 0x002#12 w).fflags = s.fflags) ∧
    ((s.csrWrite 0x003#12 w).frm = w.extractLsb' 5 3 ∧ (s.csrWrite 0x003#12 w).fflags = w.extractLsb' 0 5) := by
  simp [State.csrWrite_frm, State.csrWrite_fflags]

/-- A field of a word, zero-extended, is the shifted word under a mask of the field's width (R170). -/
theorem setWidth_extractLsb' (w : Word) (lo n : Nat) (hn : n < 64) :
    (w.extractLsb' lo n).setWidth 64 = (w >>> lo) &&& BitVec.ofNat 64 (2 ^ n - 1) := by
  have hpow : 2 ^ n < 2 ^ 64 := Nat.pow_lt_pow_right (by omega) hn
  have hpos : 0 < 2 ^ n := Nat.two_pow_pos n
  apply BitVec.eq_of_toNat_eq
  rw [BitVec.toNat_and, BitVec.toNat_ofNat, Nat.mod_eq_of_lt (by omega : 2 ^ n - 1 < 2 ^ 64),
    Nat.and_two_pow_sub_one_eq_mod, BitVec.toNat_setWidth, BitVec.extractLsb'_toNat, BitVec.toNat_ushiftRight,
    Nat.mod_eq_of_lt ((Nat.mod_lt _ hpos).trans hpow)]

/-- Settles O60: each view after each write, by the fields that the write sets and the view reads. The two fields of a
word written to `fcsr` are its bits 7:5 and 4:0, which together are its bits 7:0. -/
theorem csrViewsShareOneState : Obligations.CsrViewsShareOneState := by
  intro s w
  obtain ⟨⟨hfrm1, hflags1⟩, ⟨hfrm2, hflags2⟩, ⟨hfrm3, hflags3⟩⟩ := csrWrite_fields s w
  have hjoin : w.extractLsb' 5 3 ++ w.extractLsb' 0 5 = w.extractLsb' 0 8 :=
    BitVec.extractLsb'_append_extractLsb'_eq_extractLsb' rfl
  simp only [BitVec.ofNat_eq_ofNat]
  refine ⟨?_, ?_, ?_, ?_, ?_, ?_, ?_⟩
  · rw [State.csrRead_fcsr, hfrm3, hflags3, hjoin, setWidth_extractLsb' w 0 8 (by omega), BitVec.ushiftRight_zero]
    rfl
  · rw [State.csrRead_fflags, hflags3, setWidth_extractLsb' w 0 5 (by omega), BitVec.ushiftRight_zero]
    rfl
  · rw [State.csrRead_frm, hfrm3, setWidth_extractLsb' w 5 3 (by omega)]
    rfl
  · rw [State.csrRead_fcsr, hfrm1, hflags1]
  · rw [State.csrRead_frm, State.csrRead_frm, hfrm1]
  · rw [State.csrRead_fcsr, hfrm2, hflags2]
  · rw [State.csrRead_fflags, State.csrRead_fflags, hflags2]

end Sys2Proof.Proofs
end

section
/-! PROOF. Memory: the addresses of an access, what writes memory and the record of stores, the exceptions of loads, stores
and fetches (`20_memory.md`). -/

namespace Sys2Proof.Proofs

open Sys2Proof.Machine

/-! ### The addresses of an access (R50, R52, R54) -/

/-- The 64-bit sums of the model wrap at a multiple of 2^XLEN, so cutting them to XLEN bits loses nothing. -/
theorem addrSpace_dvd (xl : Xlen) : addrSpace xl ∣ 2 ^ 64 := by
  cases xl <;> decide

/-- `sext_XLEN(v)` as a number: the two's complement value modulo 2^XLEN (R10). -/
theorem sextXlen_toNat (xl : Xlen) {n : Nat} (v : BitVec n) :
    ((sextXlen xl v).toNat : ℤ) = v.toInt % (addrSpace xl : ℤ) := by
  have hdvd : (addrSpace xl : ℤ) ∣ 2 ^ 64 := by exact_mod_cast addrSpace_dvd xl
  have hext : ((v.signExtend 64).toNat : ℤ) = v.toInt % 2 ^ 64 := by
    rw [BitVec.signExtend, BitVec.toNat_ofInt]
    omega
  calc ((sextXlen xl v).toNat : ℤ)
      = ((v.signExtend 64).toNat : ℤ) % (addrSpace xl : ℤ) := by rw [sextXlen, toNat_truncXlen, Int.natCast_emod]
    _ = v.toInt % (addrSpace xl : ℤ) := by rw [hext, Int.emod_emod_of_dvd _ hdvd]

/-- A sum cut to XLEN bits is the sum modulo 2^XLEN (R54). -/
theorem truncXlen_add_toNat (xl : Xlen) (a b : Word) :
    (truncXlen xl (a + b)).toNat = (a.toNat + b.toNat) % addrSpace xl := by
  rw [toNat_truncXlen, BitVec.toNat_add, Nat.mod_mod_of_dvd _ (addrSpace_dvd xl)]

/-- `ea = (x[rs1] + sext(imm)) mod 2^XLEN` over the integers (R54). -/
theorem effAddr_toNat (s : State) (rs1 : XReg) (imm : BitVec 12) :
    ((s.effAddr rs1 imm).toNat : ℤ) = ((s.readX rs1).toNat + imm.toInt) % (addrSpace s.cfg.xlen : ℤ) := by
  rw [State.effAddr, truncXlen_add_toNat, Int.natCast_emod, Int.natCast_add, sextXlen_toNat, Int.add_emod_emod]

/-- Settles O24: the effective address by its sum, the bytes of the access by `byteAddr_eq`. -/
theorem effectiveAddressWraps : Obligations.EffectiveAddressWraps := by
  intro s rs1 imm i
  exact ⟨effAddr_toNat s rs1 imm, byteAddr_eq _ _ i⟩

/-! ### FLW and FSW: their outcomes (R52, R53, R201, R202) -/

theorem exec_flw (rd : FReg) (rs1 : XReg) (imm : BitVec 12) (s : State) :
    exec (.flw rd rs1 imm) s = (s.memRead (s.effAddr rs1 imm)).bind fun v => .next ((s.writeF rd v).advance) := rfl

theorem exec_fsw (rs2 : FReg) (rs1 : XReg) (imm : BitVec 12) (s : State) :
    exec (.fsw rs2 rs1 imm) s =
      (s.memWrite (s.effAddr rs1 imm) (s.readF rs2)).bind fun t => .next t.advance := rfl

/-- A misaligned access under `MISALIGNED_FP = trap` raises before `MEM_VALID` is looked at (R52, R53, R304). -/
theorem exec_loadStore_misaligned {s : State} {rs1 : XReg} {imm : BitVec 12}
    (halign : alignmentOk s.cfg (s.effAddr rs1 imm) = false) (r : FReg) :
    exec (.flw r rs1 imm) s = .fault (.loadAddressMisaligned (s.effAddr rs1 imm) s.pcVal) ∧
    exec (.fsw r rs1 imm) s = .fault (.storeAddressMisaligned (s.effAddr rs1 imm) s.pcVal) := by
  constructor
  · rw [exec_flw, State.memRead_eq, if_pos halign, Result.bind_fault]
  · rw [exec_fsw, State.memWrite_eq, if_pos halign, Result.bind_fault]

/-- FLW of a byte that is not `MEM_VALID` for reading, where the alignment does not stop it (R52). -/
theorem exec_flw_accessFault {s : State} {rs1 : XReg} {imm : BitVec 12}
    (halign : alignmentOk s.cfg (s.effAddr rs1 imm) = true)
    (hvalid : memValid4 s.cfg (s.effAddr rs1 imm) .read = false) (rd : FReg) :
    exec (.flw rd rs1 imm) s = .fault (.loadAccessFault (s.effAddr rs1 imm) s.pcVal) := by
  rw [exec_flw, State.memRead_eq, halign, if_neg (by decide), if_pos hvalid, Result.bind_fault]

/-- FSW to a byte that is not `MEM_VALID` for writing, where the alignment does not stop it (R53). -/
theorem exec_fsw_accessFault {s : State} {rs1 : XReg} {imm : BitVec 12}
    (halign : alignmentOk s.cfg (s.effAddr rs1 imm) = true)
    (hvalid : memValid4 s.cfg (s.effAddr rs1 imm) .write = false) (rs2 : FReg) :
    exec (.fsw rs2 rs1 imm) s = .fault (.storeAccessFault (s.effAddr rs1 imm) s.pcVal) := by
  rw [exec_fsw, State.memWrite_eq, halign, if_neg (by decide), if_pos hvalid, Result.bind_fault]

/-- Settles O21: the alignment decides first, and the access fault is raised only where it lets the access pass. -/
theorem loadStoreExceptions : Obligations.LoadStoreExceptions := by
  intro s r rs1 imm
  constructor
  · intro hmis htrap
    exact exec_loadStore_misaligned ((alignmentOk_eq_false_iff _ _).mpr ⟨hmis, htrap⟩) r
  · intro hpass
    have halign := (alignmentOk_iff _ _).mpr hpass
    exact ⟨fun hread => exec_flw_accessFault halign hread r, fun hwrite => exec_fsw_accessFault halign hwrite r⟩

/-! ### What writes memory and the record of stores (R59, R66) -/

/-- An FSW that completes has stored `f[rs2]` at its effective address and stepped the pc (R202). -/
theorem exec_fsw_next {rs2 : FReg} {rs1 : XReg} {imm : BitVec 12} {s t : State}
    (hexec : exec (.fsw rs2 rs1 imm) s = .next t) :
    t = (s.storeWord (s.effAddr rs1 imm) (s.readF rs2)).advance := by
  obtain ⟨u, hwrite, hnext⟩ := (Result.bind_eq_next _ _ _).mp hexec
  obtain ⟨_, _, rfl⟩ := (State.memWrite_eq_next _ _ _ _).mp hwrite
  exact (Host.Outcome.next.inj hnext).symm

/-- The addresses recorded after an FSW: those before it and the four of its access (R66). -/
theorem mem_stored_of_fsw {rs2 : FReg} {rs1 : XReg} {imm : BitVec 12} {s t : State}
    (hexec : exec (.fsw rs2 rs1 imm) s = .next t) (a : Nat) :
    a ∈ t.stored ↔ a ∈ s.stored ∨ ∃ i < 4, a = byteAddr s.cfg.xlen (s.effAddr rs1 imm) i := by
  rw [exec_fsw_next hexec, State.advance_stored, State.storeWord_stored, mem_addAccess]

/-- An instruction that completes is an FSW, or it left memory and the record of stores alone (R59). -/
theorem exec_fsw_or_mem_stored (i : Instr) {s t : State} (hexec : exec i s = .next t) :
    (∃ rs2 rs1 imm, i = .fsw rs2 rs1 imm) ∨ (t.mem = s.mem ∧ t.stored = s.stored) := by
  rcases exec_cases i s t hexec with ⟨rd, v, m, _, rfl⟩ | ⟨rd, v, m, _, rfl⟩ | ⟨rs2, rs1, imm, hi, _⟩ |
    ⟨rd, n, old, _, _, rfl | ⟨w, rfl⟩⟩
  case inl => exact .inr ⟨rfl, rfl⟩
  case inr.inl => exact .inr ⟨by simp, by simp⟩
  case inr.inr.inl => exact .inl ⟨rs2, rs1, imm, hi⟩
  case inr.inr.inr.inl => exact .inr ⟨by simp, by simp⟩
  case inr.inr.inr.inr => exact .inr ⟨by simp, by simp⟩

/-- Settles O16: of the shapes an instruction can have, only that of FSW touches memory. -/
theorem onlyFswWritesMemory : Obligations.OnlyFswWritesMemory := by
  intro i s t hne hexec
  rcases exec_fsw_or_mem_stored i hexec with ⟨rs2, rs1, imm, hi⟩ | hkept
  · exact absurd hi (hne rs2 rs1 imm)
  · exact hkept

/-- No instruction forgets a stored address (R66). -/
theorem stored_subset_of_exec {i : Instr} {s t : State} (hexec : exec i s = .next t) {a : Nat} (ha : a ∈ s.stored) :
    a ∈ t.stored := by
  rcases exec_fsw_or_mem_stored i hexec with ⟨rs2, rs1, imm, rfl⟩ | ⟨_, hstored⟩
  · exact (mem_stored_of_fsw hexec a).mpr (.inl ha)
  · rwa [hstored]

/-! ### A step that executes no instruction (R58, R66, R90, R326) -/

/-- At a `HALT` address the run is over (R326(c)). -/
theorem step_halted {s : State} (hhalt : s.isHalted = true) : step s = .refused (.halted s.pcVal) := by
  rw [step_eq, if_pos hhalt]

/-- Elsewhere the step is the fetch and then the fetched word (R25). -/
theorem step_of_not_halted {s : State} (hhalt : s.isHalted = false) :
    step s = s.memFetch.bind fun w => runWord w s := by
  rw [step_eq, hhalt, if_neg Bool.false_ne_true]

theorem memFetch_misaligned {s : State} (halign : s.pcVal.toNat % 4 ≠ 0) :
    s.memFetch = .fault (.instructionAddressMisaligned s.pcVal) := by
  rw [State.memFetch_eq, if_pos ((aligned4_eq_false_iff _).mpr halign)]

section AlignedPc

variable {s : State} (halign : s.pcVal.toNat % 4 = 0)
include halign

theorem memFetch_accessFault (hvalid : memValid4 s.cfg s.pcVal .fetch = false) :
    s.memFetch = .fault (.instructionAccessFault s.pcVal) := by
  rw [State.memFetch_eq, (aligned4_iff _).mpr halign, if_neg (by decide), if_pos hvalid]

/-- The fetch of a stored byte is refused (R66, decision D17). -/
theorem memFetch_stored (hvalid : memValid4 s.cfg s.pcVal .fetch = true) (hstored : s.storedAt s.pcVal = true) :
    s.memFetch = .refused (.fetchOfStoredByte s.pcVal) := by
  rw [State.memFetch_eq, (aligned4_iff _).mpr halign, hvalid, if_neg (by decide), if_neg (by decide), if_pos hstored]

/-- A fetch that succeeds hands the little-endian word at the pc to `runWord` (R58, R90). -/
theorem step_eq_runWord (hhalt : s.isHalted = false) (hvalid : memValid4 s.cfg s.pcVal .fetch = true)
    (hstored : s.storedAt s.pcVal = false) : step s = runWord (s.loadWord s.pcVal) s := by
  have hfetch : s.memFetch = .next (s.loadWord s.pcVal) :=
    (State.memFetch_eq_next s _).mpr ⟨(aligned4_iff _).mpr halign, hvalid, hstored, rfl⟩
  rw [step_of_not_halted hhalt, hfetch, Result.bind_next]

end AlignedPc

/-- An unassigned word of F's opcode space raises IllegalInstruction with the word (R90 step (5), R301). -/
theorem runWord_illegal {w : Bits32} {why : IllegalEncoding} (hdecode : decode w = .error (.illegal why)) (s : State) :
    runWord w s = .fault (.illegalInstruction w s.pcVal) := by
  rw [runWord, hdecode, State.raise]

/-- A word outside the spec is refused (R90 step (6), R326(d)). -/
theorem runWord_outside {w : Bits32} (hdecode : decode w = .error .outside) (s : State) :
    runWord w s = .refused (.wordOutsideSpec w s.pcVal) := by
  rw [runWord, hdecode]

/-- Settles O9: no instruction drops an address from the record, FSW adds the four of its access, and the fetch tests the
record last. -/
theorem storedBytesAreNeverExecuted : Obligations.StoredBytesAreNeverExecuted := by
  refine ⟨?keeps, ?records, ?refuses⟩
  case keeps =>
    intro s t hstep a ha
    obtain ⟨_, i, _, _, hexec⟩ := (step_eq_next s t).mp hstep
    exact stored_subset_of_exec hexec ha
  case records =>
    intro s t rs2 rs1 imm hexec i hi
    exact (mem_stored_of_fsw hexec _).mpr (.inr ⟨i, hi, rfl⟩)
  case refuses =>
    intro s hhalt halign hvalid hstored
    rw [step_of_not_halted hhalt, memFetch_stored halign hvalid ((State.storedAt_iff _ _).mpr hstored),
      Result.bind_refused]

/-- Settles O7: halt, the two fetch exceptions, and what the fetched word does where it does not decode. -/
theorem fetchAndDecodeExceptions : Obligations.FetchAndDecodeExceptions := by
  intro s
  refine ⟨step_halted, fun hhalt => ⟨?misaligned, ?accessFault, ?undecodable⟩⟩
  case misaligned =>
    intro halign
    rw [step_of_not_halted hhalt, memFetch_misaligned halign, Result.bind_fault]
  case accessFault =>
    intro halign hvalid
    rw [step_of_not_halted hhalt, memFetch_accessFault halign hvalid, Result.bind_fault]
  case undecodable =>
    intro halign hvalid hstored
    rw [step_eq_runWord halign hhalt hvalid hstored]
    exact ⟨fun why hdecode => runWord_illegal hdecode s, fun hdecode => runWord_outside hdecode s⟩

end Sys2Proof.Proofs
end

section
/-! PROOF. Encoding: the decoder and the encoder are inverse, the decoder is the opcode map, and the traps of a reserved
rounding mode and of the 64-bit conversions at XLEN=32 (`30_encoding.md`, `41_fcsr_access.md` R171). -/

namespace Sys2Proof.Proofs

open Sys2Proof.Machine

/-! ### The fields of a word of each layout (R81, R85) -/

@[simp] theorem bits_rmOf (w : Bits32) : (rmOf w).bits = funct3Of w := bits_rmOfBits _

/-- A word whose fixed I-layout fields are known (R81). -/
theorem wordI_eq_of_fields {w : Bits32} {f3 : BitVec 3} {op : BitVec 7} (hop : opcodeOf w = op)
    (hf3 : funct3Of w = f3) : wordI (immIOf w) (rs1Of w) f3 (rdOf w) op = w := by
  rw [← hop, ← hf3, wordI_of_fields]

/-- A word whose fixed S-layout fields are known (R81). -/
theorem wordS_eq_of_fields {w : Bits32} {f3 : BitVec 3} {op : BitVec 7} (hop : opcodeOf w = op)
    (hf3 : funct3Of w = f3) : wordS (immSOf w) (rs2Of w) (rs1Of w) f3 op = w := by
  rw [← hop, ← hf3, wordS_of_fields]

/-- A word whose fixed R4-layout fields are known (R81, R83). -/
theorem wordR4_eq_of_fields {w : Bits32} {op : BitVec 7} (hop : opcodeOf w = op) (hfmt : fmtOf w = 0b00#2) :
    wordR (funct5Of w) 0b00#2 (rs2Of w) (rs1Of w) (rmOf w).bits (rdOf w) op = w := by
  rw [← hop, ← hfmt, bits_rmOf, wordR_of_fields]

section OpFpWord

variable {w : Bits32} (hop : opcodeOf w = 0b1010011#7) (hfmt : fmtOf w = 0b00#2)
include hop hfmt

/-- An OP-FP word whose fixed fields are `funct5` and perhaps `rs2` or the selector (R81, R83). -/
theorem wordOpFp_eq_of_fields {funct5 rs2 : BitVec 5} {f3 : BitVec 3} (hfunct5 : funct5Of w = funct5)
    (hrs2 : rs2Of w = rs2) (hf3 : funct3Of w = f3) : wordOpFp funct5 rs2 (rs1Of w) f3 (rdOf w) = w := by
  rw [wordOpFp, ← hop, ← hfmt, ← hfunct5, ← hrs2, ← hf3, wordR_of_fields]

/-- The same where bits 14:12 are the rounding-mode field (R85). -/
theorem wordOpFp_rm_eq_of_fields {funct5 rs2 : BitVec 5} (hfunct5 : funct5Of w = funct5) (hrs2 : rs2Of w = rs2) :
    wordOpFp funct5 rs2 (rs1Of w) (rmOf w).bits (rdOf w) = w :=
  wordOpFp_eq_of_fields hop hfmt hfunct5 hrs2 (bits_rmOf w).symm

end OpFpWord

/-! ### What the decoder can answer (R90) -/

/-- The seven major opcodes of F (R82). -/
abbrev fMajorOpcodes : List (BitVec 7) :=
  [0b0000111#7, 0b0100111#7, 0b1000011#7, 0b1000111#7, 0b1001011#7, 0b1001111#7, 0b1010011#7]

/-- The answers to a word that R90 admits: step (1), an instruction that the word encodes; step (5), an unassigned word
under a major opcode of F; step (6), a word of no row elsewhere. -/
inductive Answers (w : Bits32) : Except DecodeError Instr → Prop
  | instr {i : Instr} (hencode : encode i = w) : Answers w (.ok i)
  | unassigned {why : IllegalEncoding} (hmajor : opcodeOf w ∈ fMajorOpcodes) : Answers w (.error (.illegal why))
  | outside (hmajor : opcodeOf w ∉ fMajorOpcodes) : Answers w (.error .outside)

/-- One test of the decoder. -/
theorem answers_ite {w : Bits32} {c : Prop} [Decidable c] {yes no : Except DecodeError Instr}
    (hyes : c → Answers w yes) (hno : ¬c → Answers w no) : Answers w (if c then yes else no) := by
  split
  · exact hyes ‹c›
  · exact hno ‹¬c›

theorem answers_decodeLoadFp {w : Bits32} (hop : opcodeOf w = 0b0000111#7) : Answers w (decodeLoadFp w) := by
  unfold decodeLoadFp
  split_ifs with hwidth
  · exact .instr (wordI_eq_of_fields hop hwidth)
  · exact .unassigned (by simp [hop])

theorem answers_decodeStoreFp {w : Bits32} (hop : opcodeOf w = 0b0100111#7) : Answers w (decodeStoreFp w) := by
  unfold decodeStoreFp
  split_ifs with hwidth
  · exact .instr (wordS_eq_of_fields hop hwidth)
  · exact .unassigned (by simp [hop])

/-- The R4 format, for an instruction that has the R4 layout under the word's major opcode. -/
theorem answers_decodeFused {w : Bits32} {mk : FReg → FReg → FReg → FReg → RmField → Instr} {op : BitVec 7}
    (hmk : ∀ rd rs1 rs2 rs3 rm, encode (mk rd rs1 rs2 rs3 rm) = wordR rs3 0b00#2 rs2 rs1 rm.bits rd op)
    (hop : opcodeOf w = op) (hmajor : op ∈ fMajorOpcodes) : Answers w (decodeFused mk w) := by
  unfold decodeFused
  split_ifs with hfmt
  · exact .instr ((hmk _ _ _ _ _).trans (wordR4_eq_of_fields hop hfmt))
  · exact .unassigned (hop ▸ hmajor)

section OpFp

variable {w : Bits32} (hop : opcodeOf w = 0b1010011#7)

include hop in
theorem answers_opFp_unassigned (why : IllegalEncoding) : Answers w (.error (.illegal why)) :=
  .unassigned (by simp [hop])

variable (hfmt : fmtOf w = 0b00#2)
include hop hfmt

theorem answers_decodeSqrt (hfunct5 : funct5Of w = 0b01011#5) : Answers w (decodeSqrt w) := by
  unfold decodeSqrt
  split_ifs with hrs2
  · exact .instr (wordOpFp_rm_eq_of_fields hop hfmt hfunct5 hrs2)
  · exact answers_opFp_unassigned hop _

theorem answers_decodeSgnj (hfunct5 : funct5Of w = 0b00100#5) : Answers w (decodeSgnj w) := by
  unfold decodeSgnj
  split_ifs with hj hjn hjx
  · exact .instr (wordOpFp_eq_of_fields hop hfmt hfunct5 rfl hj)
  · exact .instr (wordOpFp_eq_of_fields hop hfmt hfunct5 rfl hjn)
  · exact .instr (wordOpFp_eq_of_fields hop hfmt hfunct5 rfl hjx)
  · exact answers_opFp_unassigned hop _

theorem answers_decodeMinMax (hfunct5 : funct5Of w = 0b00101#5) : Answers w (decodeMinMax w) := by
  unfold decodeMinMax
  split_ifs with hmin hmax
  · exact .instr (wordOpFp_eq_of_fields hop hfmt hfunct5 rfl hmin)
  · exact .instr (wordOpFp_eq_of_fields hop hfmt hfunct5 rfl hmax)
  · exact answers_opFp_unassigned hop _

theorem answers_decodeCmp (hfunct5 : funct5Of w = 0b10100#5) : Answers w (decodeCmp w) := by
  unfold decodeCmp
  split_ifs with heq hlt hle
  · exact .instr (wordOpFp_eq_of_fields hop hfmt hfunct5 rfl heq)
  · exact .instr (wordOpFp_eq_of_fields hop hfmt hfunct5 rfl hlt)
  · exact .instr (wordOpFp_eq_of_fields hop hfmt hfunct5 rfl hle)
  · exact answers_opFp_unassigned hop _

theorem answers_decodeToInt (hfunct5 : funct5Of w = 0b11000#5) : Answers w (decodeToInt w) := by
  unfold decodeToInt
  split_ifs with hw hwu hl hlu
  · exact .instr (wordOpFp_rm_eq_of_fields hop hfmt hfunct5 hw)
  · exact .instr (wordOpFp_rm_eq_of_fields hop hfmt hfunct5 hwu)
  · exact .instr (wordOpFp_rm_eq_of_fields hop hfmt hfunct5 hl)
  · exact .instr (wordOpFp_rm_eq_of_fields hop hfmt hfunct5 hlu)
  · exact answers_opFp_unassigned hop _

theorem answers_decodeFromInt (hfunct5 : funct5Of w = 0b11010#5) : Answers w (decodeFromInt w) := by
  unfold decodeFromInt
  split_ifs with hw hwu hl hlu
  · exact .instr (wordOpFp_rm_eq_of_fields hop hfmt hfunct5 hw)
  · exact .instr (wordOpFp_rm_eq_of_fields hop hfmt hfunct5 hwu)
  · exact .instr (wordOpFp_rm_eq_of_fields hop hfmt hfunct5 hl)
  · exact .instr (wordOpFp_rm_eq_of_fields hop hfmt hfunct5 hlu)
  · exact answers_opFp_unassigned hop _

theorem answers_decodeMvClass (hfunct5 : funct5Of w = 0b11100#5) : Answers w (decodeMvClass w) := by
  unfold decodeMvClass
  split_ifs with hrs2 hmv hclass
  · exact answers_opFp_unassigned hop _
  · exact .instr (wordOpFp_eq_of_fields hop hfmt hfunct5 (not_not.mp hrs2) hmv)
  · exact .instr (wordOpFp_eq_of_fields hop hfmt hfunct5 (not_not.mp hrs2) hclass)
  · exact answers_opFp_unassigned hop _

theorem answers_decodeMvWX (hfunct5 : funct5Of w = 0b11110#5) : Answers w (decodeMvWX w) := by
  unfold decodeMvWX
  split_ifs with hrs2 hmv
  · exact answers_opFp_unassigned hop _
  · exact .instr (wordOpFp_eq_of_fields hop hfmt hfunct5 (not_not.mp hrs2) hmv)
  · exact answers_opFp_unassigned hop _

omit hfmt in
theorem answers_decodeOpFp : Answers w (decodeOpFp w) := by
  unfold decodeOpFp
  refine answers_ite (fun _ => answers_opFp_unassigned hop _) fun hne => ?_
  have hfmt : fmtOf w = 0b00#2 := not_not.mp hne
  exact
    answers_ite (fun hadd => .instr (wordOpFp_rm_eq_of_fields hop hfmt hadd rfl)) fun _ =>
    answers_ite (fun hsub => .instr (wordOpFp_rm_eq_of_fields hop hfmt hsub rfl)) fun _ =>
    answers_ite (fun hmul => .instr (wordOpFp_rm_eq_of_fields hop hfmt hmul rfl)) fun _ =>
    answers_ite (fun hdiv => .instr (wordOpFp_rm_eq_of_fields hop hfmt hdiv rfl)) fun _ =>
    answers_ite (answers_decodeSqrt hop hfmt) fun _ =>
    answers_ite (answers_decodeSgnj hop hfmt) fun _ =>
    answers_ite (answers_decodeMinMax hop hfmt) fun _ =>
    answers_ite (answers_decodeToInt hop hfmt) fun _ =>
    answers_ite (answers_decodeFromInt hop hfmt) fun _ =>
    answers_ite (answers_decodeMvClass hop hfmt) fun _ =>
    answers_ite (answers_decodeMvWX hop hfmt) fun _ =>
    answers_ite (answers_decodeCmp hop hfmt) fun _ => answers_opFp_unassigned hop _

end OpFp

theorem answers_decodeSystem {w : Bits32} (hop : opcodeOf w = 0b1110011#7) : Answers w (decodeSystem w) := by
  unfold decodeSystem
  split_ifs with hrw hrs hrc hrwi hrsi hrci
  · exact .instr (wordI_eq_of_fields hop hrw)
  · exact .instr (wordI_eq_of_fields hop hrs)
  · exact .instr (wordI_eq_of_fields hop hrc)
  · exact .instr (wordI_eq_of_fields hop hrwi)
  · exact .instr (wordI_eq_of_fields hop hrsi)
  · exact .instr (wordI_eq_of_fields hop hrci)
  · exact .outside (by simp [hop])

/-- The decoder answers every word as R90 says. -/
theorem answers_decode (w : Bits32) : Answers w (decode w) := by
  unfold decode
  exact
    answers_ite answers_decodeLoadFp fun hload =>
    answers_ite answers_decodeStoreFp fun hstore =>
    answers_ite (fun hop => answers_decodeFused (fun _ _ _ _ _ => rfl) hop (by decide)) fun hmadd =>
    answers_ite (fun hop => answers_decodeFused (fun _ _ _ _ _ => rfl) hop (by decide)) fun hmsub =>
    answers_ite (fun hop => answers_decodeFused (fun _ _ _ _ _ => rfl) hop (by decide)) fun hnmsub =>
    answers_ite (fun hop => answers_decodeFused (fun _ _ _ _ _ => rfl) hop (by decide)) fun hnmadd =>
    answers_ite answers_decodeOpFp fun hopFp =>
    answers_ite answers_decodeSystem fun _ =>
    .outside (by simp [hload, hstore, hmadd, hmsub, hnmsub, hnmadd, hopFp])

/-! ### The round trip (R81, R88, R171) -/

/-- Settles O1: the fields of the encoded word select the instruction's branch of the decoder and give its operands
back. -/
theorem decodeInvertsEncode : Obligations.DecodeInvertsEncode := by
  intro i
  cases i with
  | flw => simp [encode, decode, decodeLoadFp]
  | fsw => simp [encode, decode, decodeStoreFp]
  | fmaddS | fmsubS | fnmsubS | fnmaddS => simp [encode, decode, decodeFused]
  | faddS | fsubS | fmulS | fdivS => simp [encode, wordOpFp, decode, decodeOpFp]
  | fsqrtS => simp [encode, wordOpFp, decode, decodeOpFp, decodeSqrt]
  | fsgnjS | fsgnjnS | fsgnjxS => simp [encode, wordOpFp, decode, decodeOpFp, decodeSgnj]
  | fminS | fmaxS => simp [encode, wordOpFp, decode, decodeOpFp, decodeMinMax]
  | fcvtWS | fcvtWUS | fcvtLS | fcvtLUS => simp [encode, wordOpFp, decode, decodeOpFp, decodeToInt]
  | fmvXW | fclassS => simp [encode, wordOpFp, decode, decodeOpFp, decodeMvClass]
  | feqS | fltS | fleS => simp [encode, wordOpFp, decode, decodeOpFp, decodeCmp]
  | fcvtSW | fcvtSWU | fcvtSL | fcvtSLU => simp [encode, wordOpFp, decode, decodeOpFp, decodeFromInt]
  | fmvWX => simp [encode, wordOpFp, decode, decodeOpFp, decodeMvWX]
  | csrrw | csrrs | csrrc | csrrwi | csrrsi | csrrci => simp [encode, decode, decodeSystem]

/-- Settles O2: an instruction that the decoder answers encodes the word. -/
theorem encodeInvertsDecode : Obligations.EncodeInvertsDecode := by
  intro w i hdecode
  have hanswers := answers_decode w
  rw [hdecode] at hanswers
  cases hanswers with
  | instr hencode => exact hencode

/-! ### The opcode map (R88, R171) -/

theorem row_mem_opcodeTable (i : Instr) : i.row ∈ opcodeTable := by
  cases i <;> simp [opcodeTable, rowInstrs, Instr.row]

/-- The word of an instruction matches the instruction's row. -/
theorem encode_and_mask (i : Instr) : encode i &&& i.row.mask = i.row.pattern := by
  cases i with
  | flw => exact Laws.RowMatch.flw ..
  | fsw => exact Laws.RowMatch.fsw ..
  | fmaddS => exact Laws.RowMatch.fmaddS ..
  | fmsubS => exact Laws.RowMatch.fmsubS ..
  | fnmsubS => exact Laws.RowMatch.fnmsubS ..
  | fnmaddS => exact Laws.RowMatch.fnmaddS ..
  | faddS => exact Laws.RowMatch.faddS ..
  | fsubS => exact Laws.RowMatch.fsubS ..
  | fmulS => exact Laws.RowMatch.fmulS ..
  | fdivS => exact Laws.RowMatch.fdivS ..
  | fsqrtS => exact Laws.RowMatch.fsqrtS ..
  | fsgnjS => exact Laws.RowMatch.fsgnjS ..
  | fsgnjnS => exact Laws.RowMatch.fsgnjnS ..
  | fsgnjxS => exact Laws.RowMatch.fsgnjxS ..
  | fminS => exact Laws.RowMatch.fminS ..
  | fmaxS => exact Laws.RowMatch.fmaxS ..
  | fcvtWS => exact Laws.RowMatch.fcvtWS ..
  | fcvtWUS => exact Laws.RowMatch.fcvtWUS ..
  | fcvtLS => exact Laws.RowMatch.fcvtLS ..
  | fcvtLUS => exact Laws.RowMatch.fcvtLUS ..
  | fmvXW => exact Laws.RowMatch.fmvXW ..
  | fclassS => exact Laws.RowMatch.fclassS ..
  | feqS => exact Laws.RowMatch.feqS ..
  | fltS => exact Laws.RowMatch.fltS ..
  | fleS => exact Laws.RowMatch.fleS ..
  | fcvtSW => exact Laws.RowMatch.fcvtSW ..
  | fcvtSWU => exact Laws.RowMatch.fcvtSWU ..
  | fcvtSL => exact Laws.RowMatch.fcvtSL ..
  | fcvtSLU => exact Laws.RowMatch.fcvtSLU ..
  | fmvWX => exact Laws.RowMatch.fmvWX ..
  | csrrw => exact Laws.RowMatch.csrrw ..
  | csrrs => exact Laws.RowMatch.csrrs ..
  | csrrc => exact Laws.RowMatch.csrrc ..
  | csrrwi => exact Laws.RowMatch.csrrwi ..
  | csrrsi => exact Laws.RowMatch.csrrsi ..
  | csrrci => exact Laws.RowMatch.csrrci ..

/-- A word that the decoder accepts matches the row of the instruction, which is the word's encoding. -/
theorem matches_row_of_decode {w : Bits32} {i : Instr} (hdecode : decode w = .ok i) :
    w &&& i.row.mask = i.row.pattern := by
  rw [← encodeInvertsDecode w i hdecode, encode_and_mask]

/-! Two words that agree under a mask agree on the fields that the mask covers. -/

section Masks

variable {v w : Bits32}

theorem fields_eq_of_and_width_opcode (h : w &&& 0x0000707f#32 = v &&& 0x0000707f#32) :
    opcodeOf w = opcodeOf v ∧ funct3Of w = funct3Of v := by
  rw [← wordI_of_fields w, ← wordI_of_fields v, Laws.RowMatch.width_opcode, Laws.RowMatch.width_opcode] at h
  exact ⟨by simpa using congrArg opcodeOf h, by simpa using congrArg funct3Of h⟩

theorem fields_eq_of_and_fmt_opcode (h : w &&& 0x0600007f#32 = v &&& 0x0600007f#32) :
    opcodeOf w = opcodeOf v ∧ fmtOf w = fmtOf v := by
  rw [← wordR_of_fields w, ← wordR_of_fields v, Laws.RowMatch.fmt_opcode, Laws.RowMatch.fmt_opcode] at h
  exact ⟨by simpa using congrArg opcodeOf h, by simpa using congrArg fmtOf h⟩

theorem fields_eq_of_and_funct5_fmt_opcode (h : w &&& 0xfe00007f#32 = v &&& 0xfe00007f#32) :
    opcodeOf w = opcodeOf v ∧ fmtOf w = fmtOf v ∧ funct5Of w = funct5Of v := by
  rw [← wordR_of_fields w, ← wordR_of_fields v, Laws.RowMatch.funct5_fmt_opcode,
    Laws.RowMatch.funct5_fmt_opcode] at h
  exact ⟨by simpa using congrArg opcodeOf h, by simpa using congrArg fmtOf h, by simpa using congrArg funct5Of h⟩

theorem fields_eq_of_and_funct5_fmt_selector_opcode (h : w &&& 0xfe00707f#32 = v &&& 0xfe00707f#32) :
    opcodeOf w = opcodeOf v ∧ fmtOf w = fmtOf v ∧ funct5Of w = funct5Of v ∧ funct3Of w = funct3Of v := by
  rw [← wordR_of_fields w, ← wordR_of_fields v, Laws.RowMatch.funct5_fmt_selector_opcode,
    Laws.RowMatch.funct5_fmt_selector_opcode] at h
  exact ⟨by simpa using congrArg opcodeOf h, by simpa using congrArg fmtOf h, by simpa using congrArg funct5Of h,
    by simpa using congrArg funct3Of h⟩

theorem fields_eq_of_and_funct5_fmt_rs2_opcode (h : w &&& 0xfff0007f#32 = v &&& 0xfff0007f#32) :
    opcodeOf w = opcodeOf v ∧ fmtOf w = fmtOf v ∧ funct5Of w = funct5Of v ∧ rs2Of w = rs2Of v := by
  rw [← wordR_of_fields w, ← wordR_of_fields v, Laws.RowMatch.funct5_fmt_rs2_opcode,
    Laws.RowMatch.funct5_fmt_rs2_opcode] at h
  exact ⟨by simpa using congrArg opcodeOf h, by simpa using congrArg fmtOf h, by simpa using congrArg funct5Of h,
    by simpa using congrArg rs2Of h⟩

theorem fields_eq_of_and_funct5_fmt_rs2_selector_opcode (h : w &&& 0xfff0707f#32 = v &&& 0xfff0707f#32) :
    opcodeOf w = opcodeOf v ∧ fmtOf w = fmtOf v ∧ funct5Of w = funct5Of v ∧ rs2Of w = rs2Of v ∧
      funct3Of w = funct3Of v := by
  rw [← wordR_of_fields w, ← wordR_of_fields v, Laws.RowMatch.funct5_fmt_rs2_selector_opcode,
    Laws.RowMatch.funct5_fmt_rs2_selector_opcode] at h
  exact ⟨by simpa using congrArg opcodeOf h, by simpa using congrArg fmtOf h, by simpa using congrArg funct5Of h,
    by simpa using congrArg rs2Of h, by simpa using congrArg funct3Of h⟩

end Masks

/-- A word that agrees with an instruction's word under the mask of its row decodes to an instruction of that row. -/
theorem decode_of_and_mask_eq {i : Instr} {w : Bits32} (h : w &&& i.row.mask = encode i &&& i.row.mask) :
    ∃ j, decode w = .ok j ∧ j.row = i.row := by
  cases i with
  | flw =>
    obtain ⟨hop, hf3⟩ := fields_eq_of_and_width_opcode h
    simp only [encode, opcodeOf_wordI, funct3Of_wordI] at hop hf3
    simp [decode, decodeLoadFp, hop, hf3, Instr.row]
  | fsw =>
    obtain ⟨hop, hf3⟩ := fields_eq_of_and_width_opcode h
    simp only [encode, opcodeOf_wordS, funct3Of_wordS] at hop hf3
    simp [decode, decodeStoreFp, hop, hf3, Instr.row]
  | fmaddS | fmsubS | fnmsubS | fnmaddS =>
    obtain ⟨hop, hfmt⟩ := fields_eq_of_and_fmt_opcode h
    simp only [encode, opcodeOf_wordR, fmtOf_wordR] at hop hfmt
    simp [decode, decodeFused, hop, hfmt, Instr.row]
  | faddS | fsubS | fmulS | fdivS =>
    obtain ⟨hop, hfmt, hfunct5⟩ := fields_eq_of_and_funct5_fmt_opcode h
    simp only [encode, wordOpFp, opcodeOf_wordR, fmtOf_wordR, funct5Of_wordR] at hop hfmt hfunct5
    simp [decode, decodeOpFp, hop, hfmt, hfunct5, Instr.row]
  | fsqrtS | fcvtWS | fcvtWUS | fcvtLS | fcvtLUS | fcvtSW | fcvtSWU | fcvtSL | fcvtSLU =>
    obtain ⟨hop, hfmt, hfunct5, hrs2⟩ := fields_eq_of_and_funct5_fmt_rs2_opcode h
    simp only [encode, wordOpFp, opcodeOf_wordR, fmtOf_wordR, funct5Of_wordR, rs2Of_wordR] at hop hfmt hfunct5 hrs2
    simp [decode, decodeOpFp, decodeSqrt, decodeToInt, decodeFromInt, hop, hfmt, hfunct5, hrs2, Instr.row]
  | fsgnjS | fsgnjnS | fsgnjxS | fminS | fmaxS | feqS | fltS | fleS =>
    obtain ⟨hop, hfmt, hfunct5, hf3⟩ := fields_eq_of_and_funct5_fmt_selector_opcode h
    simp only [encode, wordOpFp, opcodeOf_wordR, fmtOf_wordR, funct5Of_wordR, funct3Of_wordR] at hop hfmt hfunct5 hf3
    simp [decode, decodeOpFp, decodeSgnj, decodeMinMax, decodeCmp, hop, hfmt, hfunct5, hf3, Instr.row]
  | fmvXW | fclassS | fmvWX =>
    obtain ⟨hop, hfmt, hfunct5, hrs2, hf3⟩ := fields_eq_of_and_funct5_fmt_rs2_selector_opcode h
    simp only [encode, wordOpFp, opcodeOf_wordR, fmtOf_wordR, funct5Of_wordR, rs2Of_wordR, funct3Of_wordR]
      at hop hfmt hfunct5 hrs2 hf3
    simp [decode, decodeOpFp, decodeMvClass, decodeMvWX, hop, hfmt, hfunct5, hrs2, hf3, Instr.row]
  | csrrw | csrrs | csrrc | csrrwi | csrrsi | csrrci =>
    obtain ⟨hop, hf3⟩ := fields_eq_of_and_width_opcode h
    simp only [encode, opcodeOf_wordI, funct3Of_wordI] at hop hf3
    simp [decode, decodeSystem, hop, hf3, Instr.row]

/-- Settles O3: the word that decodes is an encoded instruction, which matches its row; a word that matches a row agrees
with the encoded instructions of that row on every field the decoder tests. -/
theorem decodeFollowsOpcodeMap : Obligations.DecodeFollowsOpcodeMap := by
  intro w
  constructor
  · intro i hdecode
    exact ⟨row_mem_opcodeTable i, matches_row_of_decode hdecode⟩
  · intro r hr hmatch
    obtain ⟨i, _, rfl⟩ := List.mem_map.mp hr
    exact decode_of_and_mask_eq (hmatch.trans (encode_and_mask i).symm)

/-- Settles O4: a word of no row does not decode, and the two rejections differ by the major opcode. -/
theorem unassignedWordsAreRejected : Obligations.UnassignedWordsAreRejected := by
  intro w hnoRow
  have hanswers := answers_decode w
  generalize hdecode : decode w = answer at hanswers ⊢
  cases hanswers with
  | instr hencode => exact absurd (matches_row_of_decode hdecode) (hnoRow _ (row_mem_opcodeTable _))
  | unassigned hmajor => exact ⟨fun _ => ⟨_, rfl⟩, fun hother => absurd hmajor hother⟩
  | outside hother => exact ⟨fun hmajor => absurd hmajor hother, fun _ => rfl⟩

/-! ### The traps of an instruction (R92, R93, R94, R131) -/

/-- The effective rounding mode is missing exactly under a reserved encoding (R131). -/
theorem rmEff_eq_none_iff (rm : RmField) (frm : BitVec 3) :
    rmEff rm frm = none ↔ rm.bits = 0b101#3 ∨ rm.bits = 0b110#3 ∨
      (rm.bits = 0b111#3 ∧ (frm = 0b101#3 ∨ frm = 0b110#3 ∨ frm = 0b111#3)) := by
  cases rm with
  | static m => cases m <;> simp [rmEff, RmField.bits, RoundMode.bits]
  | reserved101 => simp [rmEff, RmField.bits]
  | reserved110 => simp [rmEff, RmField.bits]
  | dyn =>
    revert frm
    decide

/-- A 64-bit conversion under a reserved mode raises the same exception at both widths (R90 steps (2), (3)). -/
theorem needRv64_withMode_none {insn : Bits32} {rm : RmField} {s : State} (hmode : rmEff rm s.frm = none)
    (k : RoundMode → Result State) :
    needRv64 insn s (withMode insn rm s k) = .fault (.illegalInstruction insn s.pcVal) := by
  cases hxlen : s.cfg.xlen with
  | rv32 => rw [needRv64_rv32 hxlen]
  | rv64 => rw [needRv64_rv64 hxlen, withMode_none hmode]

/-- Every instruction with a rounding-mode field evaluates the mode before anything else but the width (R90, R131). -/
theorem exec_of_rmEff_none {i : Instr} {s : State} {rm : RmField} (hrm : i.rm? = some rm)
    (hmode : rmEff rm s.frm = none) : exec i s = .fault (.illegalInstruction (encode i) s.pcVal) := by
  cases i with
  | fmaddS | fmsubS | fnmsubS | fnmaddS | faddS | fsubS | fmulS | fdivS | fsqrtS
  | fcvtWS | fcvtWUS | fcvtSW | fcvtSWU =>
    obtain rfl := Option.some.inj hrm
    exact withMode_none hmode _
  | fcvtLS | fcvtLUS | fcvtSL | fcvtSLU =>
    obtain rfl := Option.some.inj hrm
    exact needRv64_withMode_none hmode _
  | _ => cases hrm

/-- Settles O18: a reserved mode has no effective mode. -/
theorem reservedRoundingModeTraps : Obligations.ReservedRoundingModeTraps := by
  intro i s rm hrm hreserved
  exact exec_of_rmEff_none hrm ((rmEff_eq_none_iff rm s.frm).mpr hreserved)

/-- Settles O19: each of the four tests the width first. -/
theorem rv64OnlyConversionsTrapAtXlen32 : Obligations.Rv64OnlyConversionsTrapAtXlen32 := by
  intro s rd rs1 rm hxlen
  exact ⟨needRv64_rv32 hxlen _, needRv64_rv32 hxlen _, needRv64_rv32 hxlen _, needRv64_rv32 hxlen _⟩

end Sys2Proof.Proofs
end

section
/-! PROOF. The effective rounding mode, the instructions that do not see `frm`, and rounding to an integer
(`40_fp_numerics.md` R130 to R133). -/

namespace Sys2Proof.Proofs

open Sys2Proof.Machine

/-! ### The effective rounding mode (R130, R131) -/

/-- The encodings of the five modes differ (R130). -/
theorem roundMode_bits_inj {m n : RoundMode} : m.bits = n.bits ↔ m = n := by
  refine ⟨fun h => ?_, congrArg _⟩
  have hfield : rmOfBits (RmField.static m).bits = rmOfBits (RmField.static n).bits := congrArg rmOfBits h
  rw [rmOfBits_bits, rmOfBits_bits] at hfield
  exact RmField.static.inj hfield

/-- The mode in `frm` is the one it encodes; the three reserved values encode none (R131). -/
theorem frmMode_eq_some_iff (frm : BitVec 3) (mode : RoundMode) : frmMode frm = some mode ↔ frm = mode.bits := by
  cases mode <;> revert frm <;> decide

/-- Settles O30: a static field holds the bits of its mode, no mode has the bits of DYN, and DYN selects `frm`. -/
theorem effectiveModeIsStaticOrFrm : Obligations.EffectiveModeIsStaticOrFrm := by
  intro rm frm mode
  cases rm with
  | static m =>
    have hdyn : m.bits ≠ 0b111#3 := by cases m <;> decide
    rw [show rmEff (.static m) frm = some m from rfl, show (RmField.static m).bits = m.bits from rfl,
      roundMode_bits_inj]
    simp [hdyn]
  | reserved101 => cases mode <;> simp [rmEff, RmField.bits, RoundMode.bits]
  | reserved110 => cases mode <;> simp [rmEff, RmField.bits, RoundMode.bits]
  | dyn =>
    have hdyn : (0b111#3 : BitVec 3) ≠ mode.bits := by cases mode <;> decide
    rw [show rmEff .dyn frm = frmMode frm from rfl, show RmField.dyn.bits = 0b111#3 from rfl, frmMode_eq_some_iff]
    simp [hdyn]

/-! ### Another value in `frm` (R132) -/

/-- The state with another `frm`. -/
def setFrm (m : BitVec 3) (s : State) : State := { s with frm := m }

/-- The answer with another `frm` in the state it answers, if it answers one. -/
def answerSetFrm (m : BitVec 3) (r : Result State) : Result State := r.bind fun t => .next (setFrm m t)

@[simp] theorem setFrm_cfg (m : BitVec 3) (s : State) : (setFrm m s).cfg = s.cfg := rfl

theorem writeX_setFrm (m : BitVec 3) (s : State) (rd : XReg) (v : Word) :
    (setFrm m s).writeX rd v = setFrm m (s.writeX rd v) := by
  unfold State.writeX
  split <;> rfl

theorem finishF_setFrm (m : BitVec 3) (s : State) (rd : FReg) (r : Bits32 × Flags) :
    finishF rd r (setFrm m s) = answerSetFrm m (finishF rd r s) := rfl

theorem finishX_setFrm (m : BitVec 3) (s : State) (rd : XReg) (r : Word × Flags) :
    finishX rd r (setFrm m s) = answerSetFrm m (finishX rd r s) := by
  rw [finishX_eq, finishX_eq, writeX_setFrm]
  rfl

theorem memRead_setFrm (m : BitVec 3) (s : State) (addr : Word) : (setFrm m s).memRead addr = s.memRead addr := rfl

theorem memWrite_setFrm (m : BitVec 3) (s : State) (addr : Word) (v : Bits32) :
    (setFrm m s).memWrite addr v = answerSetFrm m (s.memWrite addr v) := by
  cases halign : alignmentOk s.cfg addr <;> cases hvalid : memValid4 s.cfg addr .write <;>
    simp only [State.memWrite, setFrm_cfg, halign, hvalid] <;> rfl

/-- Only DYN reads `frm` (R131). -/
theorem rmEff_of_ne_dyn {rm : RmField} (hrm : rm ≠ .dyn) (frm frm' : BitVec 3) : rmEff rm frm = rmEff rm frm' := by
  cases rm with
  | dyn => exact absurd rfl hrm
  | _ => rfl

theorem withMode_setFrm {rm : RmField} (hrm : rm ≠ .dyn) (insn : Bits32) (m : BitVec 3) (s : State)
    {k k' : RoundMode → Result State} (hk : ∀ mode, k' mode = answerSetFrm m (k mode)) :
    withMode insn rm (setFrm m s) k' = answerSetFrm m (withMode insn rm s k) := by
  have hmode : rmEff rm (setFrm m s).frm = rmEff rm s.frm := rmEff_of_ne_dyn hrm _ _
  cases heff : rmEff rm s.frm with
  | none =>
    rw [withMode_none (hmode.trans heff), withMode_none heff]
    rfl
  | some mode => rw [withMode_some (hmode.trans heff), withMode_some heff, hk]

theorem needRv64_setFrm (insn : Bits32) (m : BitVec 3) (s : State) {k k' : Result State}
    (hk : k' = answerSetFrm m k) : needRv64 insn (setFrm m s) k' = answerSetFrm m (needRv64 insn s k) := by
  cases hxlen : s.cfg.xlen with
  | rv32 =>
    rw [needRv64_rv32 (s := setFrm m s) hxlen, needRv64_rv32 hxlen]
    rfl
  | rv64 => rw [needRv64_rv64 (s := setFrm m s) hxlen, needRv64_rv64 hxlen, hk]

/-- With another `frm` an instruction that neither names a CSR nor selects DYN does the same and keeps that `frm`. -/
theorem exec_setFrm {i : Instr} (hcsr : i.csr? = none) (hrm : i.rm? ≠ some .dyn) (m : BitVec 3) (s : State) :
    exec i (setFrm m s) = answerSetFrm m (exec i s) := by
  have hmode : ∀ {rm}, i.rm? = some rm → rm ≠ .dyn := fun h hdyn => hrm (hdyn ▸ h)
  cases i with
  | flw rd rs1 imm =>
    show ((setFrm m s).memRead (s.effAddr rs1 imm)).bind _ = ((s.memRead _).bind _).bind _
    rw [memRead_setFrm]
    cases s.memRead (s.effAddr rs1 imm) <;> rfl
  | fsw rs2 rs1 imm =>
    show ((setFrm m s).memWrite (s.effAddr rs1 imm) (s.readF rs2)).bind _ = ((s.memWrite _ _).bind _).bind _
    rw [memWrite_setFrm]
    cases s.memWrite (s.effAddr rs1 imm) (s.readF rs2) <;> rfl
  | fmaddS | fmsubS | fnmsubS | fnmaddS | faddS | fsubS | fmulS | fdivS | fsqrtS | fcvtSW | fcvtSWU =>
    exact withMode_setFrm (hmode rfl) _ m s fun _ => finishF_setFrm m s _ _
  | fcvtWS | fcvtWUS => exact withMode_setFrm (hmode rfl) _ m s fun _ => finishX_setFrm m s _ _
  | fcvtLS | fcvtLUS =>
    exact needRv64_setFrm _ m s (withMode_setFrm (hmode rfl) _ m s fun _ => finishX_setFrm m s _ _)
  | fcvtSL | fcvtSLU =>
    exact needRv64_setFrm _ m s (withMode_setFrm (hmode rfl) _ m s fun _ => finishF_setFrm m s _ _)
  | fsgnjS | fsgnjnS | fsgnjxS | fminS | fmaxS | fmvWX => exact finishF_setFrm m s _ _
  | fmvXW | fclassS | feqS | fltS | fleS => exact finishX_setFrm m s _ _
  | csrrw | csrrs | csrrc | csrrwi | csrrsi | csrrci => cases hcsr

/-- Settles O23: the answer with another `frm`, read off in each of the three outcomes. -/
theorem staticInstructionsIgnoreFrm : Obligations.StaticInstructionsIgnoreFrm := by
  intro i s m hcsr hrm
  have hexec := exec_setFrm hcsr hrm m s
  cases h : exec i s <;> rw [h] at hexec <;> exact hexec

/-! ### Rounding to an integer (R133) -/

theorem floor_eq_natFloor {m : Mag} {y : ℝ} (h : m.Denotes y) : m.floor = ⌊y⌋₊ :=
  ((Nat.floor_eq_iff h.nonneg).mpr (Mag.floor_spec h)).symm

/-- The four kinds of fraction exclude each other, so the one that describes the number is the one the model finds. -/
theorem rest_eq_iff {m : Mag} {y : ℝ} (h : m.Denotes y) (r : Rest) : m.rest = r ↔ r.Describes (y - m.floor) := by
  refine ⟨fun e => e ▸ Mag.rest_spec h, fun hr => ?_⟩
  rcases Mag.rest_cases h with ⟨e, hy⟩ | ⟨e, hy1, hy2⟩ | ⟨e, hy⟩ | ⟨e, hy1, hy2⟩ <;> rw [e] <;>
    cases r <;> simp only [Rest.Describes] at hr <;> first | rfl | (exfalso; linarith)

/-- Settles O31: the fraction's kind selects the branch of `round_int`. -/
theorem roundIntFollowsRule : Obligations.RoundIntFollowsRule := by
  intro mode s m y h
  have hkind := rest_eq_iff h
  have hnonneg : 0 ≤ y - m.floor := sub_nonneg.mpr (Mag.floor_spec h).1
  rw [← floor_eq_natFloor h]
  refine ⟨fun hint => ?_, fun hfrac => ?_⟩
  · simp [roundInt, (hkind .zero).mpr hint]
  · have hne : m.rest ≠ .zero := fun e => hfrac ((hkind .zero).mp e)
    have hbelow : y - m.floor < 1 / 2 → m.rest = .below := fun hlt =>
      (hkind .below).mpr ⟨lt_of_le_of_ne hnonneg (Ne.symm hfrac), hlt⟩
    have hhalf : y - m.floor = 1 / 2 → m.rest = .half := (hkind .half).mpr
    have habove : 1 / 2 < y - m.floor → m.rest = .above := (hkind .above).mpr
    cases mode with
    | rtz | rdn | rup =>
      show roundInt _ s m = _
      unfold roundInt
      cases hr : m.rest with
      | zero => exact absurd hr hne
      | _ => rfl
    | rne =>
      refine ⟨fun hgt => ?_, fun hlt => ?_, fun heq => ?_⟩
      · simp [roundInt, habove hgt]
      · simp [roundInt, hbelow hlt]
      · simp [roundInt, hhalf heq, Nat.even_iff]
    | rmm =>
      refine ⟨fun hge => ?_, fun hlt => ?_⟩
      · rcases hge.lt_or_eq with hgt | heq
        · simp [roundInt, habove hgt]
        · simp [roundInt, hhalf heq.symm]
      · simp [roundInt, hbelow hlt]

end Sys2Proof.Proofs
end

section
/-! PROOF. Rounding to binary32: the steps of `round_f32` over the reals, and the basic operations on finite operands
(`40_fp_numerics.md` R129 to R137, `43_compute.md` R211 to R215). -/

namespace Sys2Proof.Proofs

open Sys2Proof.Machine

/-! ### The steps of `round_f32` (R134) -/

/-- Step A: the 24-bit significand with unbounded exponent; its quantum is `2^(ilog2 - 23)`. -/
def significand24 (mode : RoundMode) (e : Exact) : ℕ := roundInt mode e.neg (e.mag.scale (e.mag.ilog2 - 23))

/-- Step B: the 24-bit significand reaches `2^128`. -/
def overflowTest (mode : RoundMode) (e : Exact) : Bool := atLeastPow (significand24 mode e) (e.mag.ilog2 - 23) 128

/-- Step C: the 24-bit significand stays below `2^-126`. -/
def tinyTest (mode : RoundMode) (e : Exact) : Bool := !atLeastPow (significand24 mode e) (e.mag.ilog2 - 23) (-126)

/-- Step D: the exponent, bounded below as the format bounds it. -/
def boundedExp (e : Exact) : ℤ := max e.mag.ilog2 (-126)

/-- Step D: the magnitude in units of the delivered quantum. -/
def atQuantum (e : Exact) : Mag := e.mag.scale (boundedExp e - 23)

/-- Steps D and E: the delivered pattern. -/
def delivered (mode : RoundMode) (e : Exact) : Bits32 :=
  encodeMag e.neg (boundedExp e) (roundInt mode e.neg (atQuantum e))

/-- The flags of a rounding without overflow (R136, R137). -/
def roundingFlags (mode : RoundMode) (e : Exact) : Flags :=
  flagIf ((atQuantum e).rest != .zero) flagNX |||
    flagIf (tinyTest mode e && (atQuantum e).rest != .zero) flagUF

/-- What `round_f32` answers: the zero of the given sign, the overflow of R135, or the delivered pattern. -/
theorem roundF32_eq (mode : RoundMode) (e : Exact) (zs : Bool) :
    roundF32 mode e zs =
      if e.mag.isZero = true then (zeroOf zs, flagNone)
      else if overflowTest mode e = true then
        (overflowResult mode e.neg, flagOF ||| flagNX)
      else (delivered mode e, roundingFlags mode e) := rfl

theorem roundF32_of_isZero {e : Exact} (h : e.mag.isZero = true) (mode : RoundMode) (zs : Bool) :
    roundF32 mode e zs = (zeroOf zs, flagNone) := by
  rw [roundF32_eq, if_pos h]

/-- Settles O35: the table is computed. -/
theorem overflowTable : Obligations.OverflowTable := by
  unfold Obligations.OverflowTable
  decide

@[simp] theorem fsign_overflowResult (mode : RoundMode) (s : Bool) : fsign (overflowResult mode s) = s := by
  cases mode <;> cases s <;> decide

/-! ### The steps over the reals -/

section Nonzero

variable {mode : RoundMode} {e : Exact} {y : ℝ}

/-- The 24-bit significand reaches what the scaled number reaches. -/
theorem le_significand24_iff (hy : e.mag.Denotes y) (n : ℕ) :
    n ≤ significand24 mode e ↔ Reaches mode e.neg n (y * 2 ^ (-(e.mag.ilog2 - 23))) :=
  le_roundInt_iff mode e.neg (Mag.scale_denotes hy _) n

theorem significand24_bounds (hy : e.mag.Denotes y) (hpos : 0 < y) :
    2 ^ 23 ≤ significand24 mode e ∧ significand24 mode e ≤ 2 ^ 24 := by
  obtain ⟨hlow, hhigh⟩ := Mag.ilog2_spec hy hpos
  exact mu_bounds hlow hhigh (le_significand24_iff hy)

/-- Step B: the model decides overflow as R135 defines it. -/
theorem overflowTest_iff (hy : e.mag.Denotes y) (hpos : 0 < y) :
    overflowTest mode e = true ↔ Overflows mode (if e.neg then -y else y) := by
  obtain ⟨hlow, hhigh⟩ := Mag.ilog2_spec hy hpos
  have hone : 1 ≤ significand24 mode e := le_trans (by norm_num) (significand24_bounds hy hpos).1
  rw [overflowTest, atLeastPow_iff _ _ _ hone]
  exact overflow_iff hpos hlow hhigh (le_significand24_iff hy)

/-- Step C: the model decides tininess as R136 defines it. -/
theorem tinyTest_iff (hy : e.mag.Denotes y) (hpos : 0 < y) :
    tinyTest mode e = true ↔ Tiny mode (if e.neg then -y else y) := by
  obtain ⟨hlow, hhigh⟩ := Mag.ilog2_spec hy hpos
  have hone : 1 ≤ significand24 mode e := le_trans (by norm_num) (significand24_bounds hy hpos).1
  rw [tinyTest, Bool.not_eq_true', ← Bool.not_eq_true, atLeastPow_iff _ _ _ hone, not_iff_comm, Iff.comm]
  exact tiny_iff hpos hlow hhigh (le_significand24_iff hy)

/-- Without overflow the binary exponent is at most 127. -/
theorem ilog2_le_of_not_overflow (hy : e.mag.Denotes y) (hpos : 0 < y)
    (hfit : ¬ overflowTest mode e = true) : e.mag.ilog2 ≤ 127 := by
  have hbounds := significand24_bounds (mode := mode) hy hpos
  rw [overflowTest, atLeastPow_iff _ _ _ (le_trans (by norm_num) hbounds.1)] at hfit
  by_contra hbig
  refine hfit (le_trans ?_ (mu_scaled_bounds hbounds).1)
  exact zpow_le_zpow_right₀ (by norm_num) (by omega)

/-- At the exponent 127 the 24-bit significand stays below the carry, or the result overflows. -/
theorem significand24_ne_of_not_overflow (htop : e.mag.ilog2 = 127)
    (hfit : ¬ overflowTest mode e = true) : significand24 mode e ≠ 2 ^ 24 := by
  intro hcarry
  rw [overflowTest, atLeastPow_iff _ _ _ (by rw [hcarry]; norm_num), hcarry, htop] at hfit
  exact hfit (by norm_num)

theorem atQuantum_denotes (hy : e.mag.Denotes y) : (atQuantum e).Denotes (y * 2 ^ (-(boundedExp e - 23))) :=
  Mag.scale_denotes hy _

/-- Where the exponent is not bounded, steps A and D round the same number. -/
theorem roundInt_atQuantum_of_le (h : -126 ≤ e.mag.ilog2) :
    roundInt mode e.neg (atQuantum e) = significand24 mode e := by
  rw [atQuantum, boundedExp, max_eq_left h, significand24]

/-- Below the exponent -126 the number is below `2^23` quanta. -/
theorem roundInt_atQuantum_le (hy : e.mag.Denotes y) (hpos : 0 < y) (h : e.mag.ilog2 < -126) :
    roundInt mode e.neg (atQuantum e) ≤ 2 ^ 23 := by
  have hexp : boundedExp e = -126 := max_eq_right h.le
  have hsmall : y * 2 ^ (-(boundedExp e - 23)) ≤ 2 ^ 23 := by
    calc y * 2 ^ (-(boundedExp e - 23)) ≤ 2 ^ (-126 : ℤ) * 2 ^ (-(boundedExp e - 23)) := by
          gcongr
          exact (Mag.ilog2_spec hy hpos).2.le.trans (zpow_le_zpow_right₀ (by norm_num) (by omega))
      _ = 2 ^ 23 := by rw [hexp]; norm_num
  by_contra hbig
  have hreach := (le_roundInt_iff mode e.neg (atQuantum_denotes hy) (2 ^ 23 + 1)).mp (by omega)
  refine not_reaches_of_le mode e.neg ?_ hreach
  push_cast
  linarith

/-- Step E applies to what step D rounds: the pattern is finite, of the sign and the value rounded to, its last bit the
parity of the rounded integer. -/
theorem delivered_spec (hy : e.mag.Denotes y) (hpos : 0 < y)
    (hfit : ¬ overflowTest mode e = true) :
    isFinite (delivered mode e) = true ∧ fsign (delivered mode e) = e.neg ∧
    fval (delivered mode e) =
      (if e.neg then -1 else 1) * (roundInt mode e.neg (atQuantum e) * 2 ^ (boundedExp e - 23)) ∧
    (delivered mode e).getLsbD 0 = decide (roundInt mode e.neg (atQuantum e) % 2 = 1) := by
  have htop := ilog2_le_of_not_overflow hy hpos hfit
  have hbounds := significand24_bounds (mode := mode) hy hpos
  rcases le_or_gt (-126) e.mag.ilog2 with hnormal | hsub
  · have hexp : boundedExp e = e.mag.ilog2 := max_eq_left hnormal
    have hround := roundInt_atQuantum_of_le (mode := mode) hnormal
    refine encodeMag_spec _ _ _ (le_max_right _ _) (by omega) (by omega) (fun h => by omega) (fun hcarry => ?_)
    have := fun h127 => significand24_ne_of_not_overflow h127 hfit
    omega
  · have hexp : boundedExp e = -126 := max_eq_right hsub.le
    have hround := roundInt_atQuantum_le (mode := mode) hy hpos hsub
    exact encodeMag_spec _ _ _ (le_max_right _ _) (by omega) (by omega) (fun _ => hexp) (fun _ => by omega)

/-- A rounded integer is the number itself exactly when the number has no fraction (R137). -/
theorem roundInt_eq_self_iff (neg : Bool) {m : Mag} (hy : m.Denotes y) :
    (roundInt mode neg m : ℝ) = y ↔ m.rest = .zero := by
  refine ⟨fun heq => ?_, fun hrest => ?_⟩
  · have hfloor : ⌊y⌋₊ = roundInt mode neg m := by rw [← heq, Nat.floor_natCast]
    rw [rest_eq_iff hy .zero, floor_eq_natFloor hy, hfloor, heq]
    exact sub_self y
  · have hint : y - m.floor = 0 := (rest_eq_iff hy .zero).mp hrest
    simp only [roundInt, hrest]
    linarith

/-- The value of the delivered pattern over the reals: the signed rounded integer, in quanta. -/
theorem fval_delivered (hy : e.mag.Denotes y) (hpos : 0 < y)
    (hfit : ¬ overflowTest mode e = true) :
    (fval (delivered mode e) : ℝ) =
      ((negIf e.neg (roundInt mode e.neg (atQuantum e)) : ℤ) : ℝ) * 2 ^ (boundedExp e - 23) := by
  obtain ⟨_, _, hval, _⟩ := delivered_spec hy hpos hfit
  rw [hval, negIf_natCast]
  cases e.neg <;> push_cast <;> simp

/-- The delivered pattern is exact exactly when the rounding at its quantum has no remainder (R137, log 19). -/
theorem fval_delivered_eq_iff (hy : e.mag.Denotes y) (hpos : 0 < y)
    (hfit : ¬ overflowTest mode e = true) :
    (fval (delivered mode e) : ℝ) = (if e.neg then -y else y) ↔ (atQuantum e).rest = .zero := by
  have hquantum : (0 : ℝ) < 2 ^ (boundedExp e - 23) := by positivity
  rw [← roundInt_eq_self_iff (mode := mode) e.neg (atQuantum_denotes hy), fval_delivered hy hpos hfit, negIf_natCast,
    zpow_neg, ← div_eq_mul_inv, eq_div_iff hquantum.ne']
  cases e.neg <;> simp

/-- Every finite value is a multiple of the delivered quantum, or is smaller than any number of its exponent. -/
theorem fval_quantum_or_small (hy : e.mag.Denotes y) (hpos : 0 < y) (p : Bits32) :
    (∃ k : ℤ, (fval p : ℝ) = k * 2 ^ (boundedExp e - 23)) ∨
      (|(fval p : ℝ)| < 2 ^ 23 * 2 ^ (boundedExp e - 23) ∧ 2 ^ 23 * 2 ^ (boundedExp e - 23) ≤ y) := by
  have two : (2 : ℝ) ≠ 0 := by norm_num
  have hbinade : (2 : ℝ) ^ 23 * 2 ^ (boundedExp e - 23) = 2 ^ boundedExp e := by
    rw [← zpow_natCast, ← zpow_add₀ two]
    congr 1
    push_cast
    ring
  rw [hbinade]
  rcases le_or_gt e.mag.ilog2 (-126) with hsub | hnormal
  · obtain ⟨k, hk⟩ := fval_multiple p
    refine .inl ⟨k, ?_⟩
    rw [boundedExp, max_eq_right hsub, hk]
    push_cast
    norm_num
  · have hexp : boundedExp e = e.mag.ilog2 := max_eq_left hnormal.le
    rcases le_or_gt ((2 : ℚ) ^ boundedExp e) |fval p| with hbig | hsmall
    · obtain ⟨k, hk⟩ := fval_multiple_of_le p (boundedExp e - 23) (by omega) (by simpa using hbig)
      refine .inl ⟨k, ?_⟩
      rw [hk]
      push_cast
      rfl
    · have hsmall' : |(fval p : ℝ)| < 2 ^ boundedExp e := by
        have := (Rat.cast_lt (K := ℝ)).mpr hsmall
        push_cast at this
        exact this
      exact .inr ⟨hsmall', hexp ▸ (Mag.ilog2_spec hy hpos).1⟩

/-- Step D delivers the pattern that the mode's definition delivers (R130). -/
theorem delivered_delivers (hy : e.mag.Denotes y) (hpos : 0 < y)
    (hfit : ¬ overflowTest mode e = true) :
    Delivers mode (if e.neg then -y else y) (delivered mode e) := by
  obtain ⟨hfin, _, _, hparity⟩ := delivered_spec hy hpos hfit
  have hquantum : (0 : ℝ) < 2 ^ (boundedExp e - 23) := by positivity
  have hint := roundInt_delivers mode e.neg (atQuantum_denotes hy)
  have habs : |if e.neg then -y else y| = y := by cases e.neg <;> simp [abs_of_pos hpos]
  have hscaled : (if e.neg then -(y * 2 ^ (-(boundedExp e - 23))) else y * 2 ^ (-(boundedExp e - 23))) =
      (if e.neg then -y else y) * ((2 : ℝ) ^ (boundedExp e - 23))⁻¹ := by
    rw [zpow_neg]
    cases e.neg <;> simp
  rw [hscaled] at hint
  refine delivers_of_int hquantum hint hfin (fval_delivered hy hpos hfit) (fun heven => ?_) (fun p _ => ?_)
  · rw [hparity, decide_eq_false_iff_not]
    unfold negIf at heven
    split_ifs at heven
    · rw [even_neg, Int.even_coe_nat, Nat.even_iff] at heven
      omega
    · rw [Int.even_coe_nat, Nat.even_iff] at heven
      omega
  · rw [habs]
    exact fval_quantum_or_small hy hpos p

/-- The two flags of a rounding without overflow, bit by bit (R150). -/
theorem flagIf_bits (inexact tiny : Bool) :
    (flagIf inexact flagNX ||| flagIf (tiny && inexact) flagUF).getLsbD 0 = inexact ∧
    (flagIf inexact flagNX ||| flagIf (tiny && inexact) flagUF).getLsbD 1 = (tiny && inexact) ∧
    (flagIf inexact flagNX ||| flagIf (tiny && inexact) flagUF).extractLsb' 2 3 = 0#3 := by
  cases inexact <;> cases tiny <;> decide

theorem roundingFlags_spec (hy : e.mag.Denotes y) (hpos : 0 < y)
    (hfit : ¬ overflowTest mode e = true) :
    RoundingFlags mode (if e.neg then -y else y) (delivered mode e) (roundingFlags mode e) := by
  obtain ⟨hnx, huf, hothers⟩ := flagIf_bits ((atQuantum e).rest != .zero) (tinyTest mode e)
  have hexact := fval_delivered_eq_iff hy hpos hfit
  refine ⟨?_, ?_, hothers⟩
  · rw [roundingFlags, hnx, Ne, hexact, bne_iff_ne]
  · rw [roundingFlags, huf, Bool.and_eq_true, Ne, hexact, bne_iff_ne, tinyTest_iff hy hpos]

end Nonzero

/-! ### Correct rounding (R130, R134 to R137) -/

/-- The sign of a nonzero exact real is its sign bit. -/
theorem exact_neg_iff {neg : Bool} {y : ℝ} (hpos : 0 < y) : neg = true ↔ (if neg then -y else y) < 0 := by
  cases neg <;> simp [hpos, hpos.le]

/-- `round_f32` delivers the correctly rounded result of a nonzero exact real. -/
theorem roundF32_roundsTo {e : Exact} {v : ℝ} (he : e.Denotes v) (hv : v ≠ 0) (mode : RoundMode) (zs : Bool) :
    RoundsTo mode v (roundF32 mode e zs).1 (roundF32 mode e zs).2 := by
  obtain ⟨y, hy, rfl⟩ := he
  have hy0 : y ≠ 0 := by
    rintro rfl
    simp at hv
  have hpos : 0 < y := lt_of_le_of_ne hy.nonneg hy0.symm
  rw [roundF32_eq, if_neg (fun hz => hy0 ((Mag.isZero_iff hy).mp hz))]
  have hover := overflowTest_iff (mode := mode) hy hpos
  by_cases hfit : overflowTest mode e = true
  · rw [if_pos hfit, RoundsTo, fsign_overflowResult]
    exact ⟨exact_neg_iff hpos, .inl ⟨hover.mp hfit, rfl, rfl⟩⟩
  · obtain ⟨_, hsign, _, _⟩ := delivered_spec hy hpos hfit
    rw [if_neg hfit, RoundsTo, hsign]
    exact ⟨exact_neg_iff hpos,
      .inr ⟨fun h => hfit (hover.mpr h), delivered_delivers hy hpos hfit, roundingFlags_spec hy hpos hfit⟩⟩

/-- Settles O32: steps A to E over the reals. -/
theorem roundF32IsCorrectlyRounded : Obligations.RoundF32IsCorrectlyRounded :=
  fun mode _ zs _ he hv => roundF32_roundsTo he hv mode zs

end Sys2Proof.Proofs
end

section
/-! PROOF. The core functions on NaN operands and on finite operands (`40_fp_numerics.md` R127, R129, `43_compute.md`
R211 to R215). -/

namespace Sys2Proof.Proofs

open Sys2Proof.Machine

/-! ### The inverted sign bit (R212) -/

@[simp] theorem fsign_negate (b : Bits32) : fsign (negate b) = !fsign b := by
  simp [fsign, negate]

@[simp] theorem fexp_negate (b : Bits32) : fexp (negate b) = fexp b := by
  rw [fexp, negate, BitVec.extractLsb'_xor, show BitVec.extractLsb' 23 8 0x80000000#32 = 0#8 by decide, BitVec.xor_zero]
  rfl

@[simp] theorem ffrac_negate (b : Bits32) : ffrac (negate b) = ffrac b := by
  rw [ffrac, negate, BitVec.extractLsb'_xor, show BitVec.extractLsb' 0 23 0x80000000#32 = 0#23 by decide,
    BitVec.xor_zero]
  rfl

@[simp] theorem isNaN_negate (b : Bits32) : isNaN (negate b) = isNaN b := by simp [isNaN]
@[simp] theorem isInf_negate (b : Bits32) : isInf (negate b) = isInf b := by simp [isInf]
@[simp] theorem isZero_negate (b : Bits32) : isZero (negate b) = isZero b := by simp [isZero]
@[simp] theorem isFinite_negate (b : Bits32) : isFinite (negate b) = isFinite b := by simp [isFinite]
@[simp] theorem isSNaN_negate (b : Bits32) : isSNaN (negate b) = isSNaN b := by
  have hquiet : (negate b).getLsbD 22 = b.getLsbD 22 := by simp [negate]
  rw [isSNaN, isSNaN, isNaN_negate, hquiet]

@[simp] theorem units_negate (b : Bits32) : units (negate b) = -units b := by
  cases h : fsign b <;> simp [units, magUnits, h]

@[simp] theorem fval_negate (b : Bits32) : fval (negate b) = -fval b := by
  rw [fval_eq_units, fval_eq_units, units_negate]
  push_cast
  ring

/-! ### The classes exclude each other (R122) -/

theorem isNaN_of_isInf {b : Bits32} (h : isInf b = true) : isNaN b = false := by
  simp only [isInf, Bool.and_eq_true, beq_iff_eq] at h
  simp [isNaN, h]

theorem isZero_of_isInf {b : Bits32} (h : isInf b = true) : isZero b = false := by
  simp only [isInf, Bool.and_eq_true, beq_iff_eq] at h
  simp [isZero, h]

theorem isFinite_of_isZero {b : Bits32} (h : isZero b = true) : isFinite b = true := by
  simp only [isZero, Bool.and_eq_true, beq_iff_eq] at h
  simp [isFinite, h]

theorem isInf_of_isFinite {b : Bits32} (h : isFinite b = true) : isInf b = false := ((isFinite_iff b).mp h).1

theorem isNaN_of_isFinite {b : Bits32} (h : isFinite b = true) : isNaN b = false := ((isFinite_iff b).mp h).2

theorem isSNaN_of_not_isNaN {b : Bits32} (h : isNaN b = false) : isSNaN b = false := by simp [isSNaN, h]

/-- An infinity is the infinity of its sign (R124). -/
theorem eq_infOf {b : Bits32} (h : isInf b = true) : b = infOf (fsign b) := by
  simp only [isInf, Bool.and_eq_true, beq_iff_eq] at h
  rw [infOf, ← h.1, ← h.2, pack_fields]

/-- A zero is the zero of its sign (R124). -/
theorem eq_zeroOf {b : Bits32} (h : isZero b = true) : b = zeroOf (fsign b) := by
  simp only [isZero, Bool.and_eq_true, beq_iff_eq] at h
  rw [zeroOf]
  nth_rewrite 1 [← pack_fields b]
  rw [h.1, h.2]

@[simp] theorem isNaN_infOf (s : Bool) : isNaN (infOf s) = false := by cases s <;> decide
@[simp] theorem isNaN_zeroOf (s : Bool) : isNaN (zeroOf s) = false := by cases s <;> decide

/-! ### What the operands' patterns denote (R123) -/

/-- `val(b)` over the reals, in units of 2^-149. -/
theorem fval_cast (b : Bits32) : (fval b : ℝ) = (units b : ℝ) / 2 ^ 149 := by
  rw [fval_eq_units]
  push_cast
  rfl

theorem magUnits_eq_zero_iff (b : Bits32) : magUnits b = 0 ↔ isZero b = true := by
  rw [← units_eq_zero_iff, ← abs_eq_zero, abs_units, Int.natCast_eq_zero]

/-- The model's exact quotient `n / d` of an integer denotes that quotient. -/
theorem ofInt_denotes (n : ℤ) {d : ℕ} (hd : 0 < d) : (Exact.ofInt n d).Denotes ((n : ℝ) / d) := by
  have hd' : (d : ℝ) ≠ 0 := by exact_mod_cast hd.ne'
  have habs : ((n.natAbs : ℕ) : ℝ) = |(n : ℝ)| := by
    rw [← Int.cast_natCast, Int.natCast_natAbs, Int.cast_abs]
  refine ⟨|(n : ℝ)| / d, ⟨hd, by rw [div_mul_cancel₀ _ hd', habs]⟩, ?_⟩
  rcases lt_or_ge n 0 with hneg | hnonneg
  · have hneg' : (n : ℝ) < 0 := by exact_mod_cast hneg
    simp only [Exact.ofInt, hneg, decide_true, if_true, abs_of_neg hneg']
    ring
  · have hnonneg' : (0 : ℝ) ≤ n := by exact_mod_cast hnonneg
    simp [Exact.ofInt, not_lt.mpr hnonneg, abs_of_nonneg hnonneg']

theorem ofInt_isZero (n : ℤ) (d : ℕ) : (Exact.ofInt n d).mag.isZero = true ↔ n = 0 := by
  simp [Exact.ofInt, Mag.isZero]

/-- The exact quotient of two finite numbers, as FDIV.S carries it (R214). -/
theorem quotient_denotes (a : Bits32) {b : Bits32} (hb : isZero b = false) :
    (Exact.mk (fsign a ^^ fsign b) (.ratio (magUnits a) (magUnits b))).Denotes ((fval a : ℝ) / fval b) := by
  have hpos : 0 < magUnits b := Nat.pos_of_ne_zero fun h => Bool.eq_false_iff.mp hb ((magUnits_eq_zero_iff b).mp h)
  have hpos' : (magUnits b : ℝ) ≠ 0 := by exact_mod_cast hpos.ne'
  refine ⟨(magUnits a : ℝ) / magUnits b, ⟨hpos, div_mul_cancel₀ _ hpos'⟩, ?_⟩
  rw [fval_cast, fval_cast, div_div_div_cancel_right₀ (by norm_num)]
  cases ha : fsign a <;> cases hb : fsign b <;> simp [units, ha, hb, neg_div, div_neg]

/-- The exact root of a finite number of positive sign, as FSQRT.S carries it (R215). -/
theorem root_denotes {a : Bits32} (hsign : fsign a = false) :
    (Exact.mk false (.root (magUnits a) (2 ^ 149))).Denotes (Real.sqrt (fval a)) := by
  have hval : (fval a : ℝ) = (magUnits a : ℝ) / 2 ^ 149 := by simp [fval_cast, units, hsign]
  refine ⟨Real.sqrt (fval a), ⟨by positivity, Real.sqrt_nonneg _, ?_⟩, rfl⟩
  rw [Real.mul_self_sqrt (by rw [hval]; positivity), hval, Nat.cast_pow, Nat.cast_ofNat,
    div_mul_cancel₀ _ (by positivity)]

/-! ### A NaN operand (R127) -/

section

variable (mode : RoundMode) {a b c : Bits32}

theorem nanResult_eq (invalid : Bool) : nanResult invalid = (0x7fc00000#32, if invalid then 0b10000#5 else 0#5) := by
  cases invalid <;> rfl

theorem faddCore_of_nan (h : isNaN a = true ∨ isNaN b = true) :
    faddCore mode a b = nanResult (isSNaN a || isSNaN b) := if_pos (by simpa using h)

theorem fsubCore_of_nan (h : isNaN a = true ∨ isNaN b = true) :
    fsubCore mode a b = nanResult (isSNaN a || isSNaN b) := by
  rw [fsubCore, faddCore_of_nan mode (by simpa using h), isSNaN_negate]

theorem fmulCore_of_nan (h : isNaN a = true ∨ isNaN b = true) :
    fmulCore mode a b = nanResult (isSNaN a || isSNaN b) := if_pos (by simpa using h)

theorem fdivCore_of_nan (h : isNaN a = true ∨ isNaN b = true) :
    fdivCore mode a b = nanResult (isSNaN a || isSNaN b) := if_pos (by simpa using h)

theorem fsqrtCore_of_nan (h : isNaN a = true) : fsqrtCore mode a = nanResult (isSNaN a) := if_pos h

/-- `inf x 0` is invalid also beside a NaN addend. -/
theorem fmaCore_of_nan_or_invalid (np nc : Bool)
    (h : (isNaN a || isNaN b || isNaN c || ((isInf a && isZero b) || (isZero a && isInf b))) = true) :
    fmaCore mode a b c np nc =
      nanResult (((isInf a && isZero b) || (isZero a && isInf b)) || (isSNaN a || isSNaN b || isSNaN c)) := if_pos h

end

/-- Settles O36: each core function tests for a NaN first. -/
theorem nanOperandsGiveCanonicalNan : Obligations.NanOperandsGiveCanonicalNan := by
  intro mode a b c np nc
  refine ⟨fun h => ?_, fun h => ?_, fun h => ?_⟩
  · simp [faddCore_of_nan mode h, fsubCore_of_nan mode h, fmulCore_of_nan mode h, fdivCore_of_nan mode h, nanResult_eq]
  · simp [fsqrtCore_of_nan mode h, nanResult_eq]
  · have hnan : (isNaN a || isNaN b || isNaN c || ((isInf a && isZero b) || (isZero a && isInf b))) = true := by
      simp only [Bool.or_eq_true]
      tauto
    rw [fmaCore_of_nan_or_invalid mode np nc hnan, nanResult_eq, Bool.or_comm, ← Bool.or_assoc]
    exact ⟨rfl, rfl⟩

/-! ### Finite operands -/

section

variable (mode : RoundMode) {a b c : Bits32}

/-- A sum of finite numbers that is not zero is rounded once (R211). -/
theorem faddCore_of_finite (ha : isFinite a = true) (hb : isFinite b = true) (hsum : units a + units b ≠ 0) :
    faddCore mode a b = roundF32 mode (Exact.ofInt (units a + units b) (2 ^ 149)) false := by
  simp [faddCore, isNaN_of_isFinite ha, isNaN_of_isFinite hb, isInf_of_isFinite ha, isInf_of_isFinite hb, hsum]

/-- A sum of finite numbers that is zero: the common zero, or the zero of the mode (R138). -/
theorem faddCore_of_cancel (ha : isFinite a = true) (hb : isFinite b = true) (hsum : units a + units b = 0) :
    faddCore mode a b =
      (if isZero a && isZero b && (fsign a == fsign b) then zeroOf (fsign a) else zeroOf (mode == .rdn), 0#5) := by
  simp only [faddCore, isNaN_of_isFinite ha, isNaN_of_isFinite hb, isInf_of_isFinite ha, isInf_of_isFinite hb, hsum,
    Bool.or_self, Bool.and_self, Bool.false_eq_true, if_false, if_true]
  split_ifs with hzeros
  · simp only [Bool.and_eq_true] at hzeros
    rw [← eq_zeroOf hzeros.1.1]
    rfl
  · rfl

/-- A product of finite numbers is rounded once (R213). -/
theorem fmulCore_of_finite (ha : isFinite a = true) (hb : isFinite b = true) :
    fmulCore mode a b =
      roundF32 mode (Exact.ofInt (units a * units b) (2 ^ 149 * 2 ^ 149)) (fsign a ^^ fsign b) := by
  simp [fmulCore, isNaN_of_isFinite ha, isNaN_of_isFinite hb, isInf_of_isFinite ha, isInf_of_isFinite hb]

/-- A quotient of finite numbers with a nonzero divisor is rounded once (R214). -/
theorem fdivCore_of_finite (ha : isFinite a = true) (hb : isFinite b = true) (hzero : isZero b = false) :
    fdivCore mode a b =
      roundF32 mode ⟨fsign a ^^ fsign b, .ratio (magUnits a) (magUnits b)⟩ (fsign a ^^ fsign b) := by
  simp [fdivCore, isNaN_of_isFinite ha, isNaN_of_isFinite hb, isInf_of_isFinite ha, isInf_of_isFinite hb, hzero]

/-- The root of a finite positive number is rounded once (R215). -/
theorem fsqrtCore_of_finite (ha : isFinite a = true) (hzero : isZero a = false) (hsign : fsign a = false) :
    fsqrtCore mode a = roundF32 mode ⟨false, .root (magUnits a) (2 ^ 149)⟩ false := by
  simp [fsqrtCore, isNaN_of_isFinite ha, isInf_of_isFinite ha, hzero, hsign]

end

/-- The rounded sum of finite numbers (R211). -/
theorem faddCore_roundsTo (mode : RoundMode) {a b : Bits32} (ha : isFinite a = true) (hb : isFinite b = true)
    (hv : (fval a : ℝ) + fval b ≠ 0) : RoundsTo mode (fval a + fval b) (faddCore mode a b).1 (faddCore mode a b).2 := by
  have hval : (fval a : ℝ) + fval b = ((units a + units b : ℤ) : ℝ) / (2 ^ 149 : ℕ) := by
    rw [fval_cast, fval_cast]
    push_cast
    ring
  have hsum : units a + units b ≠ 0 := fun h => hv (by rw [hval, h]; simp)
  rw [faddCore_of_finite mode ha hb hsum]
  exact roundF32_roundsTo (hval ▸ ofInt_denotes _ (by positivity)) hv mode false

/-- Settles O33: each operation rounds the exact real that its finite operands denote. -/
theorem arithmeticIsCorrectlyRounded : Obligations.ArithmeticIsCorrectlyRounded := by
  intro mode a b ha hb
  refine ⟨faddCore_roundsTo mode ha hb, fun hv => ?sub, fun hv => ?mul, fun hva hvb => ?div, fun hpos => ?sqrt⟩
  case sub =>
    have hneg : (fval a : ℝ) + fval (negate b) = fval a - fval b := by
      rw [fval_negate]
      push_cast
      ring
    rw [← hneg] at hv ⊢
    exact faddCore_roundsTo mode ha ((isFinite_negate b).trans hb) hv
  case mul =>
    have hval : (fval a : ℝ) * fval b = ((units a * units b : ℤ) : ℝ) / (2 ^ 149 * 2 ^ 149 : ℕ) := by
      rw [fval_cast, fval_cast, div_mul_div_comm, Int.cast_mul, Nat.cast_mul, Nat.cast_pow, Nat.cast_ofNat]
    rw [fmulCore_of_finite mode ha hb]
    exact roundF32_roundsTo (hval ▸ ofInt_denotes _ (by positivity)) hv mode _
  case div =>
    have hzero : isZero b = false := Bool.eq_false_iff.mpr fun h => hvb ((fval_eq_zero_iff b).mpr h)
    rw [fdivCore_of_finite mode ha hb hzero]
    exact roundF32_roundsTo (quotient_denotes a hzero)
      (div_ne_zero (Rat.cast_ne_zero.mpr hva) (Rat.cast_ne_zero.mpr hvb)) mode _
  case sqrt =>
    have hzero : isZero a = false := Bool.eq_false_iff.mpr fun h => hpos.ne' ((fval_eq_zero_iff a).mpr h)
    have hsign : fsign a = false := Bool.eq_false_iff.mpr fun h =>
      (lt_asymm hpos) ((fval_neg_iff a hpos.ne').mpr h)
    rw [fsqrtCore_of_finite mode ha hzero hsign]
    exact roundF32_roundsTo (root_denotes hsign) (Real.sqrt_pos.mpr (Rat.cast_pos.mpr hpos)).ne' mode _

end Sys2Proof.Proofs
end

section
/-! PROOF. The special results of the core functions: invalid operations, infinities and exact zeros
(`40_fp_numerics.md` R138 to R141). -/

namespace Sys2Proof.Proofs

open Sys2Proof.Machine

/-! ### Invalid operations (R141) -/

section

variable (mode : RoundMode) {a b c : Bits32}

/-- Infinities of unlike signs have no sum (R141(b)). -/
theorem faddCore_of_opposite_infs (ha : isInf a = true) (hb : isInf b = true) (hsign : fsign a ≠ fsign b) :
    faddCore mode a b = (0x7fc00000#32, 0b10000#5) := by
  simp [faddCore, isNaN_of_isInf ha, isNaN_of_isInf hb, ha, hb, hsign, invalidResult, cnan, flagNV]

/-- `0 x inf` (R141(c)). -/
theorem fmulCore_of_zero_inf (h : (isZero a = true ∧ isInf b = true) ∨ (isInf a = true ∧ isZero b = true)) :
    fmulCore mode a b = (0x7fc00000#32, 0b10000#5) := by
  rcases h with ⟨ha, hb⟩ | ⟨ha, hb⟩
  · simp [fmulCore, isNaN_of_isFinite (isFinite_of_isZero ha), isNaN_of_isInf hb, ha, hb, invalidResult, cnan, flagNV]
  · simp [fmulCore, isNaN_of_isFinite (isFinite_of_isZero hb), isNaN_of_isInf ha, ha, hb, invalidResult, cnan, flagNV]

/-- `0 / 0` and `inf / inf` (R141(d)). -/
theorem fdivCore_of_like (h : (isZero a = true ∧ isZero b = true) ∨ (isInf a = true ∧ isInf b = true)) :
    fdivCore mode a b = (0x7fc00000#32, 0b10000#5) := by
  rcases h with ⟨ha, hb⟩ | ⟨ha, hb⟩
  · have fa := isFinite_of_isZero ha
    have fb := isFinite_of_isZero hb
    simp [fdivCore, isNaN_of_isFinite fa, isNaN_of_isFinite fb, isInf_of_isFinite fa, ha, hb, invalidResult, cnan,
      flagNV]
  · simp [fdivCore, isNaN_of_isInf ha, isNaN_of_isInf hb, ha, hb, invalidResult, cnan, flagNV]

/-- The root of a number below zero (R141(e)). -/
theorem fsqrtCore_of_neg (hsign : fsign a = true) (hzero : isZero a = false) (hnan : isNaN a = false) :
    fsqrtCore mode a = (0x7fc00000#32, 0b10000#5) := by
  simp [fsqrtCore, hsign, hzero, hnan, invalidResult, cnan, flagNV]

/-- `0 x inf` in a fused form, whatever the addend (R141(f)). -/
theorem fmaCore_of_zero_inf (np nc : Bool)
    (h : (isZero a = true ∧ isInf b = true) ∨ (isInf a = true ∧ isZero b = true)) :
    fmaCore mode a b c np nc = (0x7fc00000#32, 0b10000#5) := by
  have hinv : ((isInf a && isZero b) || (isZero a && isInf b)) = true := by
    rcases h with ⟨ha, hb⟩ | ⟨ha, hb⟩ <;> simp [ha, hb]
  rw [fmaCore_of_nan_or_invalid mode np nc (by rw [hinv, Bool.or_true]), hinv]
  rfl

/-- An infinite product and an infinite addend of the other sign (R141(g)). -/
theorem fmaCore_of_opposite_infs (np nc : Bool) (hprod : isInf a = true ∨ isInf b = true) (ha : isZero a = false)
    (hb : isZero b = false) (hna : isNaN a = false) (hnb : isNaN b = false) (hc : isInf c = true)
    (hsign : (fsign c ^^ nc) ≠ ((fsign a ^^ fsign b) ^^ np)) :
    fmaCore mode a b c np nc = (0x7fc00000#32, 0b10000#5) := by
  have hinf : (isInf a || isInf b) = true := by simpa using hprod
  simp only [fmaCore, hna, hnb, isNaN_of_isInf hc, ha, hb, hc, hinf, Bool.and_false, Bool.false_and, Bool.or_self,
    Bool.true_and, bne_iff_ne, if_pos hsign, Bool.false_eq_true, if_false, if_true]
  rfl

end

/-- Settles O38: one lemma per invalid operation; a difference is the sum with the sign inverted. -/
theorem invalidOperationsGiveNan : Obligations.InvalidOperationsGiveNan := by
  intro mode a b c np nc
  refine ⟨faddCore_of_opposite_infs mode, fun ha hb hsign => ?_, fmulCore_of_zero_inf mode, fdivCore_of_like mode,
    fsqrtCore_of_neg mode, fmaCore_of_zero_inf mode np nc,
    fun h ha hb hna hnb hc hsign => fmaCore_of_opposite_infs mode np nc h ha hb hna hnb hc hsign⟩
  exact faddCore_of_opposite_infs mode ha ((isInf_negate b).trans hb) (by simp [hsign])

/-! ### Infinities (R140) -/

section

variable (mode : RoundMode) {a b c : Bits32}

/-- An infinite sum is its infinite operand, in either order. -/
theorem faddCore_of_inf (ha : isInf a = true) (hnan : isNaN b = false) (hsign : isInf b = true → fsign a = fsign b) :
    faddCore mode a b = (a, 0#5) ∧ faddCore mode b a = (a, 0#5) := by
  cases hb : isInf b with
  | false => simp [faddCore, isNaN_of_isInf ha, hnan, ha, hb, flagNone]
  | true =>
    have hab : b = a := by rw [eq_infOf hb, ← hsign hb, ← eq_infOf ha]
    subst hab
    simp [faddCore, hnan, hb, flagNone]

theorem fmulCore_of_inf (hinf : isInf a = true ∨ isInf b = true) (hna : isNaN a = false) (hnb : isNaN b = false)
    (ha : isZero a = false) (hb : isZero b = false) : fmulCore mode a b = (infOf (fsign a ^^ fsign b), 0#5) := by
  have hinf' : (isInf a || isInf b) = true := by simpa using hinf
  simp [fmulCore, hna, hnb, ha, hb, hinf', flagNone]

theorem fdivCore_of_inf_finite (ha : isInf a = true) (hb : isFinite b = true) :
    fdivCore mode a b = (infOf (fsign a ^^ fsign b), 0#5) := by
  simp [fdivCore, isNaN_of_isInf ha, isNaN_of_isFinite hb, isZero_of_isInf ha, isInf_of_isFinite hb, ha, flagNone]

theorem fdivCore_of_finite_inf (ha : isFinite a = true) (hb : isInf b = true) :
    fdivCore mode a b = (zeroOf (fsign a ^^ fsign b), 0#5) := by
  simp [fdivCore, isNaN_of_isInf hb, isNaN_of_isFinite ha, isZero_of_isInf hb, isInf_of_isFinite ha, hb, flagNone]

/-- An infinite product with no infinite addend of the other sign. -/
theorem fmaCore_of_inf_product (np nc : Bool) (hprod : isInf a = true ∨ isInf b = true) (ha : isZero a = false)
    (hb : isZero b = false) (hna : isNaN a = false) (hnb : isNaN b = false) (hnc : isNaN c = false)
    (hsign : isInf c = true → (fsign c ^^ nc) = ((fsign a ^^ fsign b) ^^ np)) :
    fmaCore mode a b c np nc = (infOf ((fsign a ^^ fsign b) ^^ np), 0#5) := by
  have hinf : (isInf a || isInf b) = true := by simpa using hprod
  have hlike : (isInf c && ((fsign c ^^ nc) != ((fsign a ^^ fsign b) ^^ np))) = false := by
    cases hc : isInf c with
    | false => rfl
    | true => simp [hsign hc]
  simp only [fmaCore, hna, hnb, hnc, ha, hb, hinf, hlike, Bool.and_false, Bool.false_and, Bool.or_self,
    Bool.false_eq_true, if_false, if_true]
  rfl

/-- An infinite addend of a finite product. -/
theorem fmaCore_of_inf_addend (np nc : Bool) (ha : isFinite a = true) (hb : isFinite b = true) (hc : isInf c = true) :
    fmaCore mode a b c np nc = (infOf (fsign c ^^ nc), 0#5) := by
  simp [fmaCore, isNaN_of_isFinite ha, isNaN_of_isFinite hb, isInf_of_isFinite ha, isInf_of_isFinite hb,
    isNaN_of_isInf hc, hc, flagNone]

end

/-- Settles O39: one lemma per operation; a difference is the sum with the sign inverted. -/
theorem infinityArithmeticIsExact : Obligations.InfinityArithmeticIsExact := by
  intro mode a b c np nc
  refine ⟨faddCore_of_inf mode, fun ha hnb hsign => ⟨?sub, ?subRev⟩, fun ha hnb hb => ⟨?mul, ?mulRev⟩,
    fdivCore_of_inf_finite mode, fdivCore_of_finite_inf mode, rfl,
    fun ha hnb hb hnc hsign => ⟨?fused, ?fusedRev⟩, fmaCore_of_inf_addend mode np nc⟩
  case sub =>
    refine (faddCore_of_inf mode ha ((isNaN_negate b).trans hnb) fun hinf => ?_).1
    rw [fsign_negate, Bool.eq_not]
    exact hsign ((isInf_negate b).symm.trans hinf)
  case subRev =>
    have hna : isInf (negate a) = true := (isInf_negate a).trans ha
    have hlike : isInf b = true → fsign (negate a) = fsign b := fun hinf => by
      rw [fsign_negate, Bool.not_eq]
      exact hsign hinf
    rw [← fsign_negate, ← eq_infOf hna]
    exact (faddCore_of_inf mode hna hnb hlike).2
  case mul => exact fmulCore_of_inf mode (.inl ha) (isNaN_of_isInf ha) hnb (isZero_of_isInf ha) hb
  case mulRev =>
    rw [Bool.xor_comm]
    exact fmulCore_of_inf mode (.inr ha) hnb (isNaN_of_isInf ha) hb (isZero_of_isInf ha)
  case fused =>
    exact fmaCore_of_inf_product mode np nc (.inl ha) (isZero_of_isInf ha) hb (isNaN_of_isInf ha) hnb hnc hsign
  case fusedRev =>
    rw [Bool.xor_comm (fsign a)] at hsign ⊢
    exact fmaCore_of_inf_product mode np nc (.inr ha) hb (isZero_of_isInf ha) hnb (isNaN_of_isInf ha) hnc hsign

/-! ### Exact zeros (R138, R139) and fused sums of finite numbers (R220) -/

/-- The product and the addend of a fused form, in units of 2^-298, each with the sign of its form (R220). -/
def fusedSum (a b c : Bits32) (np nc : Bool) : ℤ := negIf np (units a * units b) + negIf nc (units c * 2 ^ 149)

/-- The fused sum denotes the exact `±(a b) ± c`. -/
theorem fusedSum_eq (a b c : Bits32) (np nc : Bool) :
    (if np then -(fval a * fval b) else fval a * fval b) + (if nc then -fval c else fval c) =
      (fusedSum a b c np nc : ℚ) / (2 ^ 149 * 2 ^ 149) := by
  rw [fval_eq_units, fval_eq_units, fval_eq_units]
  cases np <;> cases nc <;> simp only [fusedSum, negIf, if_true, if_false, Bool.false_eq_true] <;> push_cast <;>
    field_simp <;> ring

theorem negIf_eq_zero_iff (s : Bool) (n : ℤ) : negIf s n = 0 ↔ n = 0 := by
  cases s <;> simp [negIf]

section

variable (mode : RoundMode) {a b c : Bits32} (np nc : Bool)

/-- A fused sum of finite numbers that is not zero is rounded once (R220). -/
theorem fmaCore_of_finite (ha : isFinite a = true) (hb : isFinite b = true) (hc : isFinite c = true)
    (hsum : fusedSum a b c np nc ≠ 0) :
    fmaCore mode a b c np nc = roundF32 mode (Exact.ofInt (fusedSum a b c np nc) (2 ^ 149 * 2 ^ 149)) false := by
  rw [fusedSum] at hsum ⊢
  simp only [fmaCore, isNaN_of_isFinite ha, isNaN_of_isFinite hb, isNaN_of_isFinite hc, isInf_of_isFinite ha,
    isInf_of_isFinite hb, isInf_of_isFinite hc, Bool.false_and, Bool.and_false, Bool.or_self, Bool.false_eq_true,
    if_false, if_neg hsum]

/-- A fused sum of finite numbers that is zero: the common zero, or the zero of the mode (R138). -/
theorem fmaCore_of_cancel (ha : isFinite a = true) (hb : isFinite b = true) (hc : isFinite c = true)
    (hsum : fusedSum a b c np nc = 0) :
    fmaCore mode a b c np nc =
      (if (isZero a || isZero b) && isZero c && ((fsign a ^^ fsign b) ^^ np) == (fsign c ^^ nc)
       then zeroOf (fsign c ^^ nc) else zeroOf (mode == .rdn), 0#5) := by
  have hprod : (negIf np (units a * units b) == 0) = (isZero a || isZero b) := by
    rw [Bool.eq_iff_iff, beq_iff_eq, negIf_eq_zero_iff, mul_eq_zero, units_eq_zero_iff, units_eq_zero_iff,
      Bool.or_eq_true]
  have haddend : (negIf nc (units c * 2 ^ 149) == 0) = isZero c := by
    rw [Bool.eq_iff_iff, beq_iff_eq, negIf_eq_zero_iff, mul_eq_zero, units_eq_zero_iff]
    simp
  rw [fusedSum] at hsum
  simp only [fmaCore, isNaN_of_isFinite ha, isNaN_of_isFinite hb, isNaN_of_isFinite hc, isInf_of_isFinite ha,
    isInf_of_isFinite hb, isInf_of_isFinite hc, Bool.false_and, Bool.and_false, Bool.or_self, Bool.false_eq_true,
    if_false, if_pos hsum, hprod, haddend]
  split_ifs with hzeros
  · simp only [Bool.and_eq_true, beq_iff_eq] at hzeros
    rw [hzeros.2]
    rfl
  · rfl

end

theorem faddCore_of_fval_cancel (mode : RoundMode) {a b : Bits32} (ha : isFinite a = true) (hb : isFinite b = true)
    (hsum : fval a + fval b = 0) :
    faddCore mode a b =
      (if isZero a && isZero b && (fsign a == fsign b) then zeroOf (fsign a) else zeroOf (mode == .rdn), 0#5) := by
  refine faddCore_of_cancel mode ha hb ?_
  rw [fval_eq_units, fval_eq_units, ← add_div, div_eq_zero_iff, or_iff_left (by norm_num)] at hsum
  exact_mod_cast hsum

/-- Settles O40: sums and fused sums cancel to a common zero or the mode's zero; the rounding of a zero product or
quotient is the zero of its sign. -/
theorem exactZeroResults : Obligations.ExactZeroResults := by
  refine ⟨fun _ _ _ => rfl, fun mode a b c np nc ha hb hc => ?_⟩
  refine ⟨faddCore_of_fval_cancel mode ha hb, fun hdiff => ?sub, fun hprod => ?mul, fun hva hvb => ?div,
    fun hva => ?sqrt, fun hsum => ?fused⟩
  case sub =>
    have hlike : (fsign a == !fsign b) = (fsign a != fsign b) := by cases fsign a <;> cases fsign b <;> rfl
    have hsum : fval a + fval (negate b) = 0 := by rw [fval_negate, ← sub_eq_add_neg, hdiff]
    rw [fsubCore, faddCore_of_fval_cancel mode ha ((isFinite_negate b).trans hb) hsum, isZero_negate, fsign_negate,
      hlike]
  case mul =>
    rw [fmulCore_of_finite mode ha hb]
    refine roundF32_of_isZero ((ofInt_isZero _ _).mpr ?_) mode _
    rwa [mul_eq_zero, units_eq_zero_iff, units_eq_zero_iff, ← fval_eq_zero_iff, ← fval_eq_zero_iff, ← mul_eq_zero]
  case div =>
    have hzero : isZero b = false := Bool.eq_false_iff.mpr fun h => hvb ((fval_eq_zero_iff b).mpr h)
    rw [fdivCore_of_finite mode ha hb hzero]
    have hmag : (Mag.ratio (magUnits a) (magUnits b)).isZero = true := by
      rw [Mag.isZero, beq_iff_eq, magUnits_eq_zero_iff, ← fval_eq_zero_iff, hva]
    exact roundF32_of_isZero hmag mode _
  case sqrt =>
    have hzero : isZero a = true := (fval_eq_zero_iff a).mp hva
    simp [fsqrtCore, isNaN_of_isFinite ha, hzero, flagNone]
  case fused =>
    rw [fusedSum_eq, div_eq_zero_iff, or_iff_left (by norm_num)] at hsum
    exact fmaCore_of_cancel mode np nc ha hb hc (by exact_mod_cast hsum)

end Sys2Proof.Proofs
end

section
/-! PROOF. What the core functions can answer, and the flags of every instruction (`40_fp_numerics.md` R126, R142, R150,
R151). -/

namespace Sys2Proof.Proofs

open Sys2Proof.Machine

/-! ### The flags of a rounding (R135 to R137) -/

section Rounding

variable {mode : RoundMode} {e : Exact}

theorem roundingFlags_mem (mode : RoundMode) (e : Exact) :
    roundingFlags mode e ∈ [0#5, flagNX, flagUF ||| flagNX] := by
  unfold roundingFlags
  cases (atQuantum e).rest != .zero <;> cases tinyTest mode e <;> decide

/-- A rounding is exact or inexact, or it underflows or overflows and is inexact. -/
theorem roundF32_flags_mem (mode : RoundMode) (e : Exact) (zs : Bool) :
    (roundF32 mode e zs).2 ∈ [0#5, flagNX, flagUF ||| flagNX, flagOF ||| flagNX] := by
  have hsub : [0#5, flagNX, flagUF ||| flagNX] ⊆ [0#5, flagNX, flagUF ||| flagNX, flagOF ||| flagNX] := by decide
  rw [roundF32_eq]
  split_ifs
  · exact List.mem_cons_self
  · show flagOF ||| flagNX ∈ _
    decide
  · exact hsub (roundingFlags_mem mode e)

/-- A tiny number has a binary exponent below -126. -/
theorem ilog2_lt_of_tinyTest {y : ℝ} (hy : e.mag.Denotes y) (hpos : 0 < y) (htiny : tinyTest mode e = true) :
    e.mag.ilog2 < -126 := by
  have hbounds := significand24_bounds (mode := mode) hy hpos
  have hone : 1 ≤ significand24 mode e := le_trans (by norm_num) hbounds.1
  rw [tinyTest, Bool.not_eq_true', ← Bool.not_eq_true, atLeastPow_iff _ _ _ hone] at htiny
  by_contra hbig
  refine htiny (le_trans ?_ (mu_scaled_bounds hbounds).1)
  exact zpow_le_zpow_right₀ (by norm_num) (by omega)

/-- A multiple of 2^-149 never underflows: where it is tiny it is exact. -/
theorem roundF32_flags_mem_of_multiple {v : ℝ} (he : e.Denotes v) (hmul : (e.mag.scale (-149)).rest = .zero)
    (zs : Bool) : (roundF32 mode e zs).2 ∈ [0#5, flagNX, flagOF ||| flagNX] := by
  obtain ⟨y, hy, _⟩ := he
  rw [roundF32_eq]
  split_ifs with hzero
  · exact List.mem_cons_self
  · show flagOF ||| flagNX ∈ _
    decide
  · have hpos : 0 < y := lt_of_le_of_ne hy.nonneg fun h => hzero ((Mag.isZero_iff hy).mpr h.symm)
    show roundingFlags mode e ∈ _
    cases htiny : tinyTest mode e with
    | false =>
      rw [roundingFlags, htiny]
      cases (atQuantum e).rest != .zero <;> decide
    | true =>
      have hexp : boundedExp e = -126 := max_eq_right (ilog2_lt_of_tinyTest hy hpos htiny).le
      rw [roundingFlags, atQuantum, hexp, show (-126 - 23 : ℤ) = -149 by norm_num, hmul, htiny]
      decide

/-- Between 2^-126 and 2^127 a rounding neither overflows nor underflows. -/
theorem flags_mem_of_inRange {v : ℝ} {r : Bits32} {m : Flags} (h : RoundsTo mode v r m)
    (hlow : (2 : ℝ) ^ (-126 : ℤ) ≤ |v|) (hhigh : |v| < 2 ^ 127) : m ∈ [0#5, flagNX] := by
  have hover : ¬ Overflows mode v := by
    obtain ⟨h1, h2⟩ := abs_lt.mp hhigh
    norm_num at h1 h2 hhigh
    cases mode <;> simp only [Overflows] <;> norm_num
    all_goals first | linarith | (constructor <;> linarith)
  have htiny : ¬ Tiny mode v := by
    have p1 : (0 : ℝ) < 2 ^ (-150 : ℤ) := by positivity
    have p2 : (0 : ℝ) < 2 ^ (-151 : ℤ) := by positivity
    cases mode <;> simp only [Tiny, not_lt, not_and, not_le]
    case rne | rmm | rtz => linarith
    case rdn =>
      intro hv
      rcases le_abs.mp hlow with h | h <;> linarith
    case rup =>
      intro hv
      rcases le_abs.mp hlow with h | h <;> linarith
  obtain ⟨_, ⟨ho, _⟩ | ⟨_, _, hflags⟩⟩ := h
  · exact absurd ho hover
  · have huf : m.getLsbD 1 = false := Bool.eq_false_iff.mpr fun hc => htiny (hflags.uf.mp hc).1
    have hcases : ∀ m : Flags, m.getLsbD 1 = false → m.extractLsb' 2 3 = 0#3 → m ∈ [0#5, flagNX] := by decide
    exact hcases m huf hflags.others

end Rounding

/-! ### What a core function of the arithmetic can answer -/

/-- The answers of the arithmetic: the canonical NaN, valid or not; an exact result that is no NaN; the infinity of a
division by zero, where `dz` admits it; the rounding of one of the exact reals that `rounds` admits. -/
inductive CoreResult (mode : RoundMode) (rounds : Exact → Prop) (dz : Prop) : Bits32 × Flags → Prop
  | nan (invalid : Bool) : CoreResult mode rounds dz (nanResult invalid)
  | exact {r : Bits32} (h : isNaN r = false) : CoreResult mode rounds dz (r, flagNone)
  | divByZero (s : Bool) (h : dz) : CoreResult mode rounds dz (infOf s, flagDZ)
  | rounded {e : Exact} (zs : Bool) (h : rounds e) : CoreResult mode rounds dz (roundF32 mode e zs)

/-- An exact real that denotes a real number. -/
def IsReal (e : Exact) : Prop := ∃ v, e.Denotes v

/-- The exact real of a sum: a multiple of 2^-149 (R211). -/
def IsSum (e : Exact) : Prop := ∃ n : ℤ, e = Exact.ofInt n (2 ^ 149)

/-- The exact real of a root: the root of a positive number (R215). -/
def IsRoot (e : Exact) : Prop :=
  ∃ a : Bits32, fsign a = false ∧ isZero a = false ∧ e = ⟨false, .root (magUnits a) (2 ^ 149)⟩

theorem isReal_of_isSum {e : Exact} (h : IsSum e) : IsReal e := by
  obtain ⟨n, rfl⟩ := h
  exact ⟨_, ofInt_denotes n (by positivity)⟩

theorem isReal_of_isRoot {e : Exact} (h : IsRoot e) : IsReal e := by
  obtain ⟨a, hsign, _, rfl⟩ := h
  exact ⟨_, root_denotes hsign⟩

section Cores

variable (mode : RoundMode) (a b c : Bits32)

theorem faddCore_result : CoreResult mode IsSum False (faddCore mode a b) := by
  simp only [faddCore, Bool.or_eq_true]
  split_ifs with hnan _ _ _ _ _ hzeros
  · exact .nan _
  · exact .exact (Bool.eq_false_iff.mpr fun h => hnan (.inl h))
  · exact .nan true
  · exact .exact (Bool.eq_false_iff.mpr fun h => hnan (.inl h))
  · exact .exact (Bool.eq_false_iff.mpr fun h => hnan (.inr h))
  · exact .exact (Bool.eq_false_iff.mpr fun h => hnan (.inl h))
  · exact .exact (isNaN_zeroOf _)
  · exact .rounded _ ⟨_, rfl⟩

theorem fsubCore_result : CoreResult mode IsSum False (fsubCore mode a b) := faddCore_result mode a (negate b)

theorem fmulCore_result : CoreResult mode IsReal False (fmulCore mode a b) := by
  simp only [fmulCore]
  split_ifs
  · exact .nan _
  · exact .nan true
  · exact .exact (isNaN_infOf _)
  · exact .rounded _ ⟨_, ofInt_denotes _ (by positivity)⟩

theorem fdivCore_result : CoreResult mode IsReal True (fdivCore mode a b) := by
  simp only [fdivCore]
  split_ifs with _ _ _ _ _ hzero
  · exact .nan _
  · exact .nan true
  · exact .nan true
  · exact .exact (isNaN_infOf _)
  · exact .exact (isNaN_zeroOf _)
  · exact .divByZero _ trivial
  · exact .rounded _ ⟨_, quotient_denotes a (by simpa using hzero)⟩

theorem fsqrtCore_result : CoreResult mode IsRoot False (fsqrtCore mode a) := by
  simp only [fsqrtCore]
  split_ifs with hnan hzero hsign hinf
  · exact .nan _
  · exact .exact (by simpa using hnan)
  · exact .nan true
  · exact .exact (by simpa using hnan)
  · exact .rounded _ ⟨a, by simpa using hsign, by simpa using hzero, rfl⟩

theorem fmaCore_result (np nc : Bool) : CoreResult mode IsReal False (fmaCore mode a b c np nc) := by
  simp only [fmaCore]
  split_ifs
  · exact .nan _
  · exact .nan true
  · exact .exact (isNaN_infOf _)
  · exact .exact (isNaN_infOf _)
  · exact .exact (isNaN_zeroOf _)
  · exact .exact (isNaN_zeroOf _)
  · exact .rounded _ ⟨_, ofInt_denotes _ (by positivity)⟩

end Cores

/-! ### NaN results (R126) -/

theorem isNaN_overflowResult (mode : RoundMode) (s : Bool) : isNaN (overflowResult mode s) = false := by
  cases mode <;> cases s <;> decide

/-- Rounding a real number never gives a NaN. -/
theorem isNaN_roundF32 {e : Exact} (he : IsReal e) (mode : RoundMode) (zs : Bool) :
    isNaN (roundF32 mode e zs).1 = false := by
  obtain ⟨v, y, hy, hv⟩ := he
  by_cases hzero : v = 0
  · have hy0 : y = 0 := by
      rw [hzero] at hv
      split_ifs at hv <;> linarith
    rw [roundF32_of_isZero ((Mag.isZero_iff hy).mpr hy0)]
    exact isNaN_zeroOf zs
  · obtain ⟨_, ⟨_, hr, _⟩ | ⟨_, hdel, _⟩⟩ := roundF32_roundsTo ⟨y, hy, hv⟩ hzero mode zs
    · rw [hr]
      exact isNaN_overflowResult _ _
    · exact isNaN_of_isFinite hdel.finite

/-- A NaN among the answers of the arithmetic is the canonical one. -/
theorem CoreResult.canonical {mode : RoundMode} {rounds : Exact → Prop} {dz : Prop} {r : Bits32 × Flags}
    (h : CoreResult mode rounds dz r) (hreal : ∀ e, rounds e → IsReal e) (hnan : isNaN r.1 = true) : r.1 = cnan := by
  cases h with
  | nan => rfl
  | exact h => simp [h] at hnan
  | divByZero => simp at hnan
  | rounded zs h => simp [isNaN_roundF32 (hreal _ h)] at hnan

/-- The minimum is a NaN only when both operands are, and then the canonical one (R216). -/
theorem fminCore_canonical (a b : Bits32) (h : isNaN (fminCore a b).1 = true) : (fminCore a b).1 = cnan := by
  cases ha : isNaN a <;> cases hb : isNaN b <;>
    simp only [fminCore, ha, hb, Bool.and_true, Bool.and_false, Bool.false_eq_true, if_false, if_true] at h ⊢
  case false.false => split_ifs at h <;> simp_all

/-- The maximum is a NaN only when both operands are, and then the canonical one (R216). -/
theorem fmaxCore_canonical (a b : Bits32) (h : isNaN (fmaxCore a b).1 = true) : (fmaxCore a b).1 = cnan := by
  cases ha : isNaN a <;> cases hb : isNaN b <;>
    simp only [fmaxCore, ha, hb, Bool.and_true, Bool.and_false, Bool.false_eq_true, if_false, if_true] at h ⊢
  case false.false => split_ifs at h <;> simp_all

/-- Settles O37: the arithmetic by what its core functions can answer, minimum and maximum by their cases. -/
theorem nanResultsAreCanonical : Obligations.NanResultsAreCanonical := by
  intro mode a b c np nc
  simp only [List.forall_mem_cons, List.not_mem_nil, false_imp_iff, implies_true, and_true]
  exact ⟨(faddCore_result mode a b).canonical fun _ => isReal_of_isSum,
    (fsubCore_result mode a b).canonical fun _ => isReal_of_isSum,
    (fmulCore_result mode a b).canonical fun _ => id,
    (fdivCore_result mode a b).canonical fun _ => id,
    (fsqrtCore_result mode a).canonical fun _ => isReal_of_isRoot,
    (fmaCore_result mode a b c np nc).canonical fun _ => id,
    fminCore_canonical a b, fmaxCore_canonical a b⟩

/-! ### The flags of each core function (R150) -/

/-- The flags of the answers of the arithmetic: none, NV, those of its roundings, and DZ where admitted. -/
theorem CoreResult.flags_mem {mode : RoundMode} {rounds : Exact → Prop} {dz : Prop} {r : Bits32 × Flags}
    (h : CoreResult mode rounds dz r) {l l' : List Flags} (hround : ∀ e zs, rounds e → (roundF32 mode e zs).2 ∈ l')
    (hsub : 0#5 :: flagNV :: l' ⊆ l) (hdz : dz → flagDZ ∈ l) : r.2 ∈ l := by
  have hnone : 0#5 ∈ l := hsub List.mem_cons_self
  cases h with
  | nan invalid =>
    cases invalid
    · exact hnone
    · exact hsub (List.mem_cons_of_mem _ List.mem_cons_self)
  | exact => exact hnone
  | divByZero _ h => exact hdz h
  | rounded zs h => exact hsub (List.mem_cons_of_mem _ (List.mem_cons_of_mem _ (hround _ zs h)))

/-- A sum never underflows. -/
theorem roundF32_flags_mem_of_isSum {e : Exact} (he : IsSum e) (mode : RoundMode) (zs : Bool) :
    (roundF32 mode e zs).2 ∈ [0#5, flagNX, flagOF ||| flagNX] := by
  obtain ⟨v, hv⟩ := isReal_of_isSum he
  refine roundF32_flags_mem_of_multiple hv ?_ zs
  obtain ⟨n, rfl⟩ := he
  show Mag.rest (.ratio (n.natAbs * 2 ^ 149) (2 ^ 149 * 2 ^ 0)) = .zero
  rw [pow_zero, mul_one, Mag.rest, Nat.mul_mod_left]
  rfl

theorem magUnits_lt (b : Bits32) : magUnits b < 2 ^ 24 * 2 ^ 254 := by
  have hfrac := (ffrac b).isLt
  unfold magUnits
  split_ifs
  · exact hfrac.trans (by norm_num)
  · have hexp : (fexp b).toNat - 1 ≤ 254 := by
      have := (fexp b).isLt
      omega
    exact Nat.mul_lt_mul_of_lt_of_le (by omega) (Nat.pow_le_pow_right (by norm_num) hexp) (by positivity)

/-- A root lies between 2^-126 and 2^127, so it neither overflows nor underflows. -/
theorem roundF32_flags_mem_of_isRoot {e : Exact} (he : IsRoot e) (mode : RoundMode) (zs : Bool) :
    (roundF32 mode e zs).2 ∈ [0#5, flagNX] := by
  obtain ⟨a, hsign, hzero, rfl⟩ := he
  have hval : (fval a : ℝ) = (magUnits a : ℝ) / 2 ^ 149 := by simp [fval_cast, units, hsign]
  have hone : (1 : ℝ) ≤ magUnits a := by
    exact_mod_cast Nat.one_le_iff_ne_zero.mpr fun h => Bool.eq_false_iff.mp hzero ((magUnits_eq_zero_iff a).mp h)
  have hmax : (magUnits a : ℝ) < 2 ^ 24 * 2 ^ 254 := by exact_mod_cast magUnits_lt a
  have hlow : (2 : ℝ) ^ (-126 : ℤ) ≤ Real.sqrt (fval a) := by
    refine Real.le_sqrt_of_sq_le ?_
    rw [hval, le_div_iff₀ (by positivity)]
    exact le_trans (by norm_num) hone
  have hhigh : Real.sqrt (fval a) < 2 ^ 127 := by
    rw [Real.sqrt_lt' (by positivity), hval, div_lt_iff₀ (by positivity)]
    exact hmax.trans (by norm_num)
  have hpos : 0 < Real.sqrt (fval a) := lt_of_lt_of_le (by positivity) hlow
  refine flags_mem_of_inRange (roundF32_roundsTo (root_denotes hsign) hpos.ne' mode zs) ?_ ?_ <;>
    rwa [abs_of_pos hpos]

/-- The conversion of an integer up to 2^64 in magnitude neither overflows nor underflows (R250). -/
theorem fcvtFloatCore_flags_mem (mode : RoundMode) {n : ℤ} (hn : |n| ≤ 2 ^ 64) :
    (fcvtFloatCore mode n).2 ∈ [0#5, flagNX] := by
  unfold fcvtFloatCore
  by_cases hzero : n = 0
  · rw [roundF32_of_isZero ((ofInt_isZero n 1).mpr hzero)]
    exact List.mem_cons_self
  · have hone : (1 : ℝ) ≤ |(n : ℝ)| := by exact_mod_cast Int.one_le_abs hzero
    have hmax : |(n : ℝ)| ≤ 2 ^ 64 := by exact_mod_cast hn
    have hval : (Exact.ofInt n 1).Denotes (n : ℝ) := by simpa using ofInt_denotes n one_pos
    refine flags_mem_of_inRange (roundF32_roundsTo hval (Int.cast_ne_zero.mpr hzero) mode false) ?_ ?_
    · exact le_trans (by norm_num) hone
    · exact lt_of_le_of_lt hmax (by norm_num)

theorem fcvtIntCore_flags_mem (mode : RoundMode) (a : Bits32) (w : ℕ) (signed : Bool) :
    (fcvtIntCore mode a w signed).2 ∈ [0#5, flagNV, flagNX] := by
  have hexact : ∀ inexact : Bool, flagIf inexact flagNX ∈ [0#5, flagNV, flagNX] := by decide
  have hinvalid : flagNV ∈ [0#5, flagNV, flagNX] := by decide
  simp only [fcvtIntCore]
  split_ifs
  all_goals first | exact hinvalid | exact hexact _

/-- Minimum and maximum set NV exactly for a signaling operand (R216). -/
theorem minMax_flags (a b : Bits32) :
    (fminCore a b).2 = (if isSNaN a || isSNaN b then flagNV else 0#5) ∧
    (fmaxCore a b).2 = (if isSNaN a || isSNaN b then flagNV else 0#5) := by
  cases ha : isNaN a <;> cases hb : isNaN b
  case false.false =>
    simp only [fminCore, fmaxCore, ha, hb, isSNaN_of_not_isNaN ha, isSNaN_of_not_isNaN hb, Bool.and_self, Bool.or_self,
      Bool.false_eq_true, if_false]
    constructor <;> split_ifs <;> rfl
  all_goals
    simp only [fminCore, fmaxCore, ha, hb, Bool.and_true, Bool.and_false, Bool.false_eq_true, if_false, if_true]
    exact ⟨rfl, rfl⟩

/-- Settles O43: the answers of each core function, with the flags of the roundings it makes. -/
theorem flagsByInstruction : Obligations.FlagsByInstruction := by
  intro mode a b c np nc
  have hsum : ∀ e zs, IsSum e → _ := fun e zs he => roundF32_flags_mem_of_isSum he mode zs
  have hroot : ∀ e zs, IsRoot e → _ := fun e zs he => roundF32_flags_mem_of_isRoot he mode zs
  have hreal : ∀ e zs, IsReal e → _ := fun e zs _ => roundF32_flags_mem mode e zs
  exact ⟨(faddCore_result mode a b).flags_mem hsum (by decide) False.elim,
    (fsubCore_result mode a b).flags_mem hsum (by decide) False.elim,
    (fmulCore_result mode a b).flags_mem hreal (by decide) False.elim,
    (fdivCore_result mode a b).flags_mem hreal (by decide) fun _ => by decide,
    (fsqrtCore_result mode a).flags_mem hroot (by decide) False.elim,
    (fmaCore_result mode a b c np nc).flags_mem hreal (by decide) False.elim,
    (minMax_flags a b).1, (minMax_flags a b).2, fcvtIntCore_flags_mem mode a, fun _ => fcvtFloatCore_flags_mem mode⟩

/-! ### The flags of each instruction (R142, R151) -/

/-- The masks that an instruction other than FDIV.S and the CSR instructions can add. -/
def nonDivMasks : List Flags := [0#5, flagNX, flagUF ||| flagNX, flagOF ||| flagNX, flagNV]

/-- A quiet or signaling test of the operands yields NV or nothing. -/
theorem flagIf_NV_mem (invalid : Bool) : flagIf invalid flagNV ∈ nonDivMasks := by
  cases invalid <;> decide

theorem CoreResult.flags_mem_nonDivMasks {mode : RoundMode} {rounds : Exact → Prop} {r : Bits32 × Flags}
    (h : CoreResult mode rounds False r) : r.2 ∈ nonDivMasks :=
  h.flags_mem (fun e zs _ => roundF32_flags_mem mode e zs) (by decide) False.elim

theorem roundF32_flags_mem_nonDivMasks (mode : RoundMode) (e : Exact) (zs : Bool) :
    (roundF32 mode e zs).2 ∈ nonDivMasks :=
  CoreResult.flags_mem_nonDivMasks (rounds := fun _ => True) (.rounded zs trivial)

theorem minMax_flags_mem (a b : Bits32) : (fminCore a b).2 ∈ nonDivMasks ∧ (fmaxCore a b).2 ∈ nonDivMasks := by
  rw [(minMax_flags a b).1, (minMax_flags a b).2]
  exact ⟨flagIf_NV_mem _, flagIf_NV_mem _⟩

theorem fcvtIntCore_flags_mem_nonDivMasks (mode : RoundMode) (a : Bits32) (w : ℕ) (signed : Bool) :
    (fcvtIntCore mode a w signed).2 ∈ nonDivMasks :=
  (by decide : [0#5, flagNV, flagNX] ⊆ nonDivMasks) (fcvtIntCore_flags_mem mode a w signed)

theorem compare_flags_mem (a b : Bits32) :
    (feqCore a b).2 ∈ nonDivMasks ∧ (fltCore a b).2 ∈ nonDivMasks ∧ (fleCore a b).2 ∈ nonDivMasks := by
  unfold feqCore fltCore fleCore
  split_ifs
  · exact ⟨flagIf_NV_mem _, flagIf_NV_mem true, flagIf_NV_mem true⟩
  · exact ⟨flagIf_NV_mem false, flagIf_NV_mem false, flagIf_NV_mem false⟩

section Accrue

variable {s t : State} {l : List Flags}

theorem accrues_of_finishF {rd : FReg} {r : Bits32 × Flags} (hr : r.2 ∈ l) (h : finishF rd r s = .next t) :
    ∃ m ∈ l, t.fflags = s.fflags ||| m := by
  obtain rfl := Host.Outcome.next.inj h
  exact ⟨r.2, hr, rfl⟩

theorem accrues_of_finishX {rd : XReg} {r : Word × Flags} (hr : r.2 ∈ l) (h : finishX rd r s = .next t) :
    ∃ m ∈ l, t.fflags = s.fflags ||| m := by
  obtain rfl := Host.Outcome.next.inj h
  exact ⟨r.2, hr, by simp⟩

theorem accrues_of_withMode_finishF {insn : Bits32} {rm : RmField} {rd : FReg} {core : RoundMode → Bits32 × Flags}
    (hcore : ∀ mode, (core mode).2 ∈ l) (h : (withMode insn rm s fun mode => finishF rd (core mode) s) = .next t) :
    ∃ m ∈ l, t.fflags = s.fflags ||| m := by
  obtain ⟨mode, _, hfinish⟩ := (withMode_eq_next _ _ _ _ _).mp h
  exact accrues_of_finishF (hcore mode) hfinish

theorem accrues_of_withMode_finishX {insn : Bits32} {rm : RmField} {rd : XReg} {core : RoundMode → Word × Flags}
    (hcore : ∀ mode, (core mode).2 ∈ l) (h : (withMode insn rm s fun mode => finishX rd (core mode) s) = .next t) :
    ∃ m ∈ l, t.fflags = s.fflags ||| m := by
  obtain ⟨mode, _, hfinish⟩ := (withMode_eq_next _ _ _ _ _).mp h
  exact accrues_of_finishX (hcore mode) hfinish

end Accrue

/-- An instruction other than FDIV.S and the CSR instructions adds one of the masks without DZ. -/
theorem exec_accrues {i : Instr} {s t : State} (hcsr : i.csr? = none)
    (hdiv : ∀ rd rs1 rs2 rm, i ≠ .fdivS rd rs1 rs2 rm) (hexec : exec i s = .next t) :
    ∃ m ∈ nonDivMasks, t.fflags = s.fflags ||| m := by
  have hnone : flagNone ∈ nonDivMasks := by decide
  cases i with
  | flw =>
    obtain ⟨v, _, hnext⟩ := (Result.bind_eq_next _ _ _).mp hexec
    obtain rfl := Host.Outcome.next.inj hnext
    exact ⟨flagNone, hnone, by simp [flagNone]⟩
  | fsw =>
    obtain ⟨u, hwrite, hnext⟩ := (Result.bind_eq_next _ _ _).mp hexec
    obtain ⟨_, _, rfl⟩ := (State.memWrite_eq_next _ _ _ _).mp hwrite
    obtain rfl := Host.Outcome.next.inj hnext
    exact ⟨flagNone, hnone, by simp [flagNone]⟩
  | fmaddS | fmsubS | fnmsubS | fnmaddS =>
    exact accrues_of_withMode_finishF (fun mode => (fmaCore_result mode _ _ _ _ _).flags_mem_nonDivMasks) hexec
  | faddS => exact accrues_of_withMode_finishF (fun mode => (faddCore_result mode _ _).flags_mem_nonDivMasks) hexec
  | fsubS => exact accrues_of_withMode_finishF (fun mode => (fsubCore_result mode _ _).flags_mem_nonDivMasks) hexec
  | fmulS => exact accrues_of_withMode_finishF (fun mode => (fmulCore_result mode _ _).flags_mem_nonDivMasks) hexec
  | fdivS rd rs1 rs2 rm => exact absurd rfl (hdiv rd rs1 rs2 rm)
  | fsqrtS => exact accrues_of_withMode_finishF (fun mode => (fsqrtCore_result mode _).flags_mem_nonDivMasks) hexec
  | fsgnjS | fsgnjnS | fsgnjxS | fmvWX => exact accrues_of_finishF hnone hexec
  | fminS => exact accrues_of_finishF (minMax_flags_mem _ _).1 hexec
  | fmaxS => exact accrues_of_finishF (minMax_flags_mem _ _).2 hexec
  | fcvtWS | fcvtWUS =>
    exact accrues_of_withMode_finishX (fun mode => fcvtIntCore_flags_mem_nonDivMasks mode _ _ _) hexec
  | fcvtLS | fcvtLUS =>
    obtain ⟨_, hmode⟩ := (needRv64_eq_next _ _ _ _).mp hexec
    exact accrues_of_withMode_finishX (fun mode => fcvtIntCore_flags_mem_nonDivMasks mode _ _ _) hmode
  | fcvtSW | fcvtSWU =>
    exact accrues_of_withMode_finishF (fun mode => roundF32_flags_mem_nonDivMasks mode _ _) hexec
  | fcvtSL | fcvtSLU =>
    obtain ⟨_, hmode⟩ := (needRv64_eq_next _ _ _ _).mp hexec
    exact accrues_of_withMode_finishF (fun mode => roundF32_flags_mem_nonDivMasks mode _ _) hmode
  | fmvXW | fclassS => exact accrues_of_finishX hnone hexec
  | feqS => exact accrues_of_finishX (compare_flags_mem _ _).1 hexec
  | fltS => exact accrues_of_finishX (compare_flags_mem _ _).2.1 hexec
  | fleS => exact accrues_of_finishX (compare_flags_mem _ _).2.2 hexec
  | csrrw | csrrs | csrrc | csrrwi | csrrsi | csrrci => cases hcsr

/-- FDIV.S adds one of these masks or DZ alone. -/
theorem exec_fdivS_accrues {rd rs1 rs2 : FReg} {rm : RmField} {s t : State}
    (hexec : exec (.fdivS rd rs1 rs2 rm) s = .next t) : ∃ m ∈ flagDZ :: nonDivMasks, t.fflags = s.fflags ||| m := by
  refine accrues_of_withMode_finishF (fun mode => ?_) hexec
  exact (fdivCore_result mode _ _).flags_mem (fun e zs _ => roundF32_flags_mem mode e zs) (by decide) fun _ => by decide

/-- Settles O44: the masks of FDIV.S and those of every other instruction are among the six. -/
theorem flagCombinations : Obligations.FlagCombinations := by
  intro i s t hcsr hexec
  have hsub : flagDZ :: nonDivMasks ⊆ [0b00000#5, 0b00001#5, 0b00011#5, 0b00101#5, 0b01000#5, 0b10000#5] := by decide
  by_cases hdiv : ∃ rd rs1 rs2 rm, i = .fdivS rd rs1 rs2 rm
  · obtain ⟨rd, rs1, rs2, rm, rfl⟩ := hdiv
    obtain ⟨m, hm, hflags⟩ := exec_fdivS_accrues hexec
    exact ⟨m, hsub hm, hflags⟩
  · push Not at hdiv
    obtain ⟨m, hm, hflags⟩ := exec_accrues hcsr hdiv hexec
    exact ⟨m, hsub (List.mem_cons_of_mem _ hm), hflags⟩

/-- A zero divisor: DZ for a finite nonzero dividend (R142). -/
theorem fdivCore_of_zero_divisor (mode : RoundMode) {a b : Bits32} (hb : isZero b = true) (ha : isFinite a = true)
    (hzero : isZero a = false) : fdivCore mode a b = (infOf (fsign a ^^ fsign b), 0b01000#5) := by
  have hfin := isFinite_of_isZero hb
  simp [fdivCore, isNaN_of_isFinite ha, isNaN_of_isFinite hfin, isInf_of_isFinite ha, isInf_of_isFinite hfin, hb, hzero,
    flagDZ]

/-- Settles O41: the three dividends over zero, and no mask of another instruction has DZ. -/
theorem divideByZero : Obligations.DivideByZero := by
  refine ⟨fun mode a b hb => ⟨fdivCore_of_zero_divisor mode hb, fun ha => fdivCore_of_like mode (.inl ⟨ha, hb⟩),
    fun ha => fdivCore_of_inf_finite mode ha (isFinite_of_isZero hb)⟩, fun i s t hcsr hdiv hexec => ?_⟩
  obtain ⟨m, hm, hflags⟩ := exec_accrues hcsr hdiv hexec
  have hnoDz : ∀ m ∈ nonDivMasks, m.getLsbD 3 = false := by decide
  rw [hflags, BitVec.getLsbD_or, hnoDz m hm, Bool.or_false]

end Sys2Proof.Proofs
end

section
/-! PROOF. The CSR instructions on `fflags`, `frm` and `fcsr`: what each form leaves in the fields, and the refusal of
any other CSR (`41_fcsr_access.md`). -/

namespace Sys2Proof.Proofs

open Sys2Proof.Machine

/-! ### A CSR outside the three (R182) -/

/-- An instruction that names a CSR is the common CSR instruction on that number (R172 to R175). -/
theorem exec_eq_csrInstr {i : Instr} {n : CsrNum} (hcsr : i.csr? = some n) (s : State) :
    ∃ rd upd, exec i s = csrInstr rd n upd s := by
  cases i with
  | csrrw rd _ rs1 =>
    cases hcsr
    exact ⟨rd, csrPut (s.readX rs1), rfl⟩
  | csrrs rd _ rs1 =>
    cases hcsr
    exact ⟨rd, csrSet rs1 (s.readX rs1), rfl⟩
  | csrrc rd _ rs1 =>
    cases hcsr
    exact ⟨rd, csrClear rs1 (s.readX rs1), rfl⟩
  | csrrwi rd _ u =>
    cases hcsr
    exact ⟨rd, csrPut (zextXlen s.cfg.xlen u), rfl⟩
  | csrrsi rd _ u =>
    cases hcsr
    exact ⟨rd, csrSet u (zextXlen s.cfg.xlen u), rfl⟩
  | csrrci rd _ u =>
    cases hcsr
    exact ⟨rd, csrClear u (zextXlen s.cfg.xlen u), rfl⟩
  | _ => cases hcsr

/-- Settles O20: a number other than the three has no view to read, and the common CSR instruction then refuses. -/
theorem otherCsrNumbersAreRefused : Obligations.OtherCsrNumbersAreRefused := by
  intro i s n hcsr h1 h2 h3
  obtain ⟨rd, upd, hexec⟩ := exec_eq_csrInstr hcsr s
  have hread : s.csrRead n = none := by simp [State.csrRead, h1, h2, h3]
  rw [hexec, csrInstr_outOfScope rd hread]

/-! ### The fields of a word read from a view (R170) -/

theorem extractLsb'_setWidth_self {n : Nat} (v : BitVec n) (hn : n ≤ 64) : (v.setWidth 64).extractLsb' 0 n = v := by
  rw [BitVec.extractLsb'_setWidth_of_le (by omega), BitVec.extractLsb'_eq_self]

theorem extractLsb'_frm_of_fcsr (frm : BitVec 3) (fflags : Flags) :
    ((frm ++ fflags).setWidth 64).extractLsb' 5 3 = frm := by
  rw [BitVec.extractLsb'_setWidth_of_le (by omega), BitVec.extractLsb'_append_eq_left]

theorem extractLsb'_fflags_of_fcsr (frm : BitVec 3) (fflags : Flags) :
    ((frm ++ fflags).setWidth 64).extractLsb' 0 5 = fflags := by
  rw [BitVec.extractLsb'_setWidth_of_le (by omega), BitVec.extractLsb'_append_eq_right]

theorem extractLsb'_and_not (a b : Word) (lo n : Nat) (h : lo + n < 64) :
    (a &&& ~~~b).extractLsb' lo n = a.extractLsb' lo n &&& ~~~b.extractLsb' lo n := by
  rw [BitVec.extractLsb'_and, BitVec.extractLsb'_not_of_lt h]

/-- Writing back what a view reads changes nothing: this is why R173 and R174 may leave the write out. -/
theorem csrWrite_csrRead {s : State} {n : CsrNum} {old : Word} (hread : s.csrRead n = some old) :
    s.csrWrite n old = s := by
  unfold State.csrRead at hread
  split_ifs at hread with h1 h2 h3
  · obtain rfl := Option.some.inj hread
    simp [State.csrWrite, h1, zextXlen_eq, extractLsb'_setWidth_self]
  · obtain rfl := Option.some.inj hread
    simp [State.csrWrite, h2, zextXlen_eq, extractLsb'_setWidth_self]
  · obtain rfl := Option.some.inj hread
    simp [State.csrWrite, h3, zextXlen_eq, extractLsb'_frm_of_fcsr, extractLsb'_fflags_of_fcsr]

/-! ### The three forms of the write (R172 to R174) -/

/-- From the old value `upd` leaves `w`: it writes `w`, or it writes nothing and `w` is the old value. -/
def Leaves (upd : Word → Option Word) (old w : Word) : Prop := upd old = some w ∨ upd old = none ∧ w = old

theorem csrPut_leaves (u old : Word) : Leaves (csrPut u) old u := .inl rfl

theorem csrSet_leaves {field : BitVec 5} {u : Word} (hu : field = 0#5 → u = 0#64) (old : Word) :
    Leaves (csrSet field u) old (old ||| u) := by
  unfold Leaves csrSet
  split_ifs with hfield
  · exact .inr ⟨rfl, by rw [hu hfield, BitVec.or_zero]⟩
  · exact .inl rfl

theorem csrClear_leaves {field : BitVec 5} {u : Word} (hu : field = 0#5 → u = 0#64) (old : Word) :
    Leaves (csrClear field u) old (old &&& ~~~u) := by
  unfold Leaves csrClear
  split_ifs with hfield
  · exact .inr ⟨rfl, by rw [hu hfield, BitVec.not_zero, BitVec.and_allOnes]⟩
  · exact .inl rfl

/-- On a CSR that reads `old`, an instruction whose write leaves `w` completes with the fields that
`csr_write(n, w)` sets. -/
theorem csrInstr_completes (rd : XReg) {n : CsrNum} {upd : Word → Option Word} {s : State} {old w : Word}
    (hread : s.csrRead n = some old) (hupd : Leaves upd old w) :
    ∃ t, csrInstr rd n upd s = .next t ∧ CsrEffect s t rd old (s.csrWrite n w).frm (s.csrWrite n w).fflags := by
  have hold := s.truncXlen_csrRead n old hread
  obtain hwrite | ⟨hkeep, rfl⟩ := hupd
  · exact ⟨_, (csrInstr_eq_next rd n upd s _).mpr ⟨old, hread, .inr ⟨w, hwrite, rfl⟩⟩,
      csrWrite_effect s rd n w old hold⟩
  · rw [csrWrite_csrRead hread]
    exact ⟨_, (csrInstr_eq_next rd n upd s _).mpr ⟨w, hread, .inl ⟨hkeep, rfl⟩⟩, csrKeep_effect s rd w hold⟩

/-- The CSR instruction with the write `upd` completes on each of the three views: `frmLow` is its new `frm` through the
view `frm`, `frmHigh` through `fcsr`, and `flags` the new `fflags` through `fflags` and through `fcsr`. -/
structure ViewsEffect (s : State) (rd : XReg) (upd : Word → Option Word) (frmLow frmHigh : BitVec 3) (flags : Flags) :
    Prop where
  onFflags : ∃ t, csrInstr rd 0x001#12 upd s = .next t ∧ CsrEffect s t rd (s.fflags.setWidth 64) s.frm flags
  onFrm : ∃ t, csrInstr rd 0x002#12 upd s = .next t ∧ CsrEffect s t rd (s.frm.setWidth 64) frmLow s.fflags
  onFcsr : ∃ t, csrInstr rd 0x003#12 upd s = .next t ∧
    CsrEffect s t rd ((s.frm ++ s.fflags).setWidth 64) frmHigh flags

/-- The three views under a write that leaves `op old u`, where `op` works bit by bit: it then works on each field
alone, and bits of `u` outside the view have no effect (R30, R170). -/
theorem csrInstr_viewsEffect (s : State) (rd : XReg) {upd : Word → Option Word} {u : Word}
    (op : ∀ {n : Nat}, BitVec n → BitVec n → BitVec n)
    (hop : ∀ (a b : Word) (lo n : Nat), lo + n < 64 →
      (op a b).extractLsb' lo n = op (a.extractLsb' lo n) (b.extractLsb' lo n))
    (hupd : ∀ old, Leaves upd old (op old u)) :
    ViewsEffect s rd upd (op s.frm (u.extractLsb' 0 3)) (op s.frm (u.extractLsb' 5 3))
      (op s.fflags (u.extractLsb' 0 5)) where
  onFflags := by
    simpa [csrWrite_fields, hop, extractLsb'_setWidth_self] using csrInstr_completes rd s.csrRead_fflags (hupd _)
  onFrm := by
    simpa [csrWrite_fields, hop, extractLsb'_setWidth_self] using csrInstr_completes rd s.csrRead_frm (hupd _)
  onFcsr := by
    simpa [csrWrite_fields, hop, extractLsb'_frm_of_fcsr, extractLsb'_fflags_of_fcsr] using
      csrInstr_completes rd s.csrRead_fcsr (hupd _)

section Forms

variable (s : State) (rd : XReg) (u : Word) {field : BitVec 5}

/-- The write form sets the fields to the bits of the source (R172). -/
theorem csrPut_viewsEffect :
    ViewsEffect s rd (csrPut u) (u.extractLsb' 0 3) (u.extractLsb' 5 3) (u.extractLsb' 0 5) :=
  csrInstr_viewsEffect s rd (fun _ b => b) (fun _ _ _ _ _ => rfl) (csrPut_leaves u)

/-- The set form sets in each field the bits of the source (R173). -/
theorem csrSet_viewsEffect (hu : field = 0#5 → u = 0#64) :
    ViewsEffect s rd (csrSet field u) (s.frm ||| u.extractLsb' 0 3) (s.frm ||| u.extractLsb' 5 3)
      (s.fflags ||| u.extractLsb' 0 5) :=
  csrInstr_viewsEffect s rd (· ||| ·) (fun _ _ _ _ _ => BitVec.extractLsb'_or) (csrSet_leaves hu)

/-- The clear form clears in each field the bits of the source (R174). -/
theorem csrClear_viewsEffect (hu : field = 0#5 → u = 0#64) :
    ViewsEffect s rd (csrClear field u) (s.frm &&& ~~~u.extractLsb' 0 3) (s.frm &&& ~~~u.extractLsb' 5 3)
      (s.fflags &&& ~~~u.extractLsb' 0 5) :=
  csrInstr_viewsEffect s rd (· &&& ~~~·) extractLsb'_and_not (csrClear_leaves hu)

end Forms

/-- Settles O58: the three forms with `x[rs1]` as the source, which is 0 where the field `rs1` is 0. -/
theorem csrRegisterFormsComplete : Obligations.CsrRegisterFormsComplete := by
  rintro s rd rs1 w rfl
  have hzero : rs1 = 0#5 → s.readX rs1 = 0#64 := by
    rintro rfl
    exact s.readX_zero
  have hput := csrPut_viewsEffect s rd (s.readX rs1)
  have hset := csrSet_viewsEffect s rd (s.readX rs1) hzero
  have hclear := csrClear_viewsEffect s rd (s.readX rs1) hzero
  exact ⟨hput.onFflags, hput.onFrm, hput.onFcsr, hset.onFflags, hset.onFrm, hset.onFcsr, hclear.onFflags, hclear.onFrm,
    hclear.onFcsr⟩

/-! ### The immediate as the source (R175) -/

/-- The fields of a zero-extended 5-bit immediate: it has the width of `fflags` and no bit in `fcsr[7:5]`. -/
theorem uimm_fields (xl : Xlen) (u : BitVec 5) :
    (zextXlen xl u).extractLsb' 0 5 = u ∧ (zextXlen xl u).extractLsb' 0 3 = u.extractLsb' 0 3 ∧
    (zextXlen xl u).extractLsb' 5 3 = 0#3 := by
  rw [zextXlen_eq xl u (by omega)]
  refine ⟨extractLsb'_setWidth_self u (by omega), BitVec.extractLsb'_setWidth_of_le (by omega), ?_⟩
  rw [BitVec.extractLsb'_setWidth_of_le (by omega)]
  ext i
  simp

/-- Settles O59: the three forms with the immediate as the source; its bits for the `frm` of `fcsr` are 0. -/
theorem csrImmediateFormsComplete : Obligations.CsrImmediateFormsComplete := by
  intro s rd u
  have hzero : u = 0#5 → zextXlen s.cfg.xlen u = 0#64 := by
    rintro rfl
    rw [zextXlen_eq _ _ (by omega), BitVec.setWidth_zero]
  obtain ⟨hflags, hlow, hhigh⟩ := uimm_fields s.cfg.xlen u
  have hput := csrPut_viewsEffect s rd (zextXlen s.cfg.xlen u)
  have hset := csrSet_viewsEffect s rd (zextXlen s.cfg.xlen u) hzero
  have hclear := csrClear_viewsEffect s rd (zextXlen s.cfg.xlen u) hzero
  rw [hflags, hlow, hhigh] at hput hset hclear
  rw [BitVec.or_zero] at hset
  rw [BitVec.not_zero, BitVec.and_allOnes] at hclear
  exact ⟨hput.onFflags, hput.onFrm, hput.onFcsr, hset.onFflags, hset.onFrm, hset.onFcsr, hclear.onFflags, hclear.onFrm,
    hclear.onFcsr⟩

end Sys2Proof.Proofs
end

section
/-! PROOF. Load and store: what FLW and FSW do where their access is admitted, and a store read back; the words that the
spec prints beside the instructions (`42_load_store.md`). -/

namespace Sys2Proof.Proofs

open Sys2Proof.Machine

/-! ### Where the access is admitted (R52, R53) -/

section
variable {s t : State} {rs1 : XReg} {imm : BitVec 12}

/-- FLW of an admitted access writes the loaded word to `f[rd]` and steps the pc (R201). -/
theorem exec_flw_admitted (halign : alignmentOk s.cfg (s.effAddr rs1 imm) = true)
    (hvalid : memValid4 s.cfg (s.effAddr rs1 imm) .read = true) (rd : FReg) :
    exec (.flw rd rs1 imm) s = .next (s.writeF rd (s.loadWord (s.effAddr rs1 imm))).advance := by
  rw [exec_flw, (State.memRead_eq_next _ _ _).mpr ⟨halign, hvalid, rfl⟩, Result.bind_next]

/-- FSW of an admitted access stores `f[rs2]` and steps the pc (R202). -/
theorem exec_fsw_admitted (halign : alignmentOk s.cfg (s.effAddr rs1 imm) = true)
    (hvalid : memValid4 s.cfg (s.effAddr rs1 imm) .write = true) (rs2 : FReg) :
    exec (.fsw rs2 rs1 imm) s = .next (s.storeWord (s.effAddr rs1 imm) (s.readF rs2)).advance := by
  rw [exec_fsw, (State.memWrite_eq_next _ _ _ _).mpr ⟨halign, hvalid, rfl⟩, Result.bind_next]

/-- An FSW that completes was not stopped by its alignment (R53). -/
theorem alignmentOk_of_fsw {rs2 : FReg} (hexec : exec (.fsw rs2 rs1 imm) s = .next t) :
    alignmentOk s.cfg (s.effAddr rs1 imm) = true := by
  obtain ⟨_, hwrite, _⟩ := (Result.bind_eq_next _ _ _).mp hexec
  obtain ⟨halign, _, _⟩ := (State.memWrite_eq_next _ _ _ _).mp hwrite
  exact halign

end

/-! ### Their effects (R201 to R203) -/

/-- Settles O25: the load accrues no flag, so its end is the shared end of the floating-point instructions with the empty
mask. -/
theorem flwLoadsTheWord : Obligations.FlwLoadsTheWord := by
  intro s rd rs1 imm halign hvalid
  have heffect := finishF_effect rd (s.loadWord (s.effAddr rs1 imm), 0#5) s
  rw [State.accrue_zero] at heffect
  exact ⟨_, exec_flw_admitted ((alignmentOk_iff _ _).mpr halign) hvalid rd, heffect⟩

/-- Settles O26: the effect of the four byte writes. -/
theorem fswStoresTheWord : Obligations.FswStoresTheWord := by
  intro s rs2 rs1 imm hwf halign hvalid
  exact ⟨_, exec_fsw_admitted ((alignmentOk_iff _ _).mpr halign) hvalid rs2, storeWord_effect s hwf _ _⟩

/-- Settles O27: the store has passed the alignment test that the load makes at the same address, and the word loaded is
the word stored. -/
theorem storeThenLoadRoundTrip : Obligations.StoreThenLoadRoundTrip := by
  intro s t rs2 rd rs1 rs1' imm imm' hwf hstore haddr hvalid
  have halign := alignmentOk_of_fsw hstore
  have ht := exec_fsw_next hstore
  have hcfg : t.cfg = s.cfg := by rw [ht, State.advance_cfg, State.storeWord_cfg]
  have hload : t.loadWord (t.effAddr rs1' imm') = s.readF rs2 := by
    rw [haddr, ht]
    exact loadWord_storeWord s hwf _ _
  rw [← haddr, ← hcfg] at halign hvalid
  refine ⟨_, exec_flw_admitted halign hvalid rd, ?_⟩
  rw [State.readF_advance, State.readF_writeF_same, hload]

/-! ### The words that the spec prints -/

theorem decode_of_encode {i : Instr} {w : Bits32} (h : encode i = w) : decode w = .ok i :=
  h ▸ decodeInvertsEncode i

/-- Settles O5: each printed word is the encoding of the instruction beside it, and decoding inverts encoding (O1). -/
theorem exampleWordsDecode : Obligations.ExampleWordsDecode := by
  refine ⟨?_, ?_, ?_, ?_, ?_, ?_, ?_, ?_⟩ <;> exact decode_of_encode (by decide)

end Sys2Proof.Proofs
end

section
/-! PROOF. The computational instructions: what they complete with, the fused sums, the square root between two numbers,
minimum and maximum (`43_compute.md`). -/

namespace Sys2Proof.Proofs

open Sys2Proof.Machine

/-! ### The end of a computational instruction (R210) -/

theorem finishF_completes (rd : FReg) (r : Bits32 × Flags) (s : State) :
    ∃ t, finishF rd r s = .next t ∧ FpEffect s t rd r.1 r.2 :=
  ⟨_, finishF_eq rd r s, finishF_effect rd r s⟩

/-- Under a legal effective mode an instruction with a rounding mode completes with its core's answer in that mode. -/
theorem withMode_finishF_completes {rm : RmField} {s : State} {mode : RoundMode} (hmode : rmEff rm s.frm = some mode)
    (insn : Bits32) (rd : FReg) (core : RoundMode → Bits32 × Flags) :
    ∃ t, (withMode insn rm s fun m => finishF rd (core m) s) = .next t ∧
      FpEffect s t rd (core mode).1 (core mode).2 := by
  rw [withMode_some hmode]
  exact finishF_completes rd (core mode) s

/-- Settles O28: each of the five is its core function under the effective mode. -/
theorem arithmeticCompletes : Obligations.ArithmeticCompletes := by
  intro s rd rs1 rs2 rm mode hmode
  exact ⟨withMode_finishF_completes hmode _ rd fun m => faddCore m (s.readF rs1) (s.readF rs2),
    withMode_finishF_completes hmode _ rd fun m => fsubCore m (s.readF rs1) (s.readF rs2),
    withMode_finishF_completes hmode _ rd fun m => fmulCore m (s.readF rs1) (s.readF rs2),
    withMode_finishF_completes hmode _ rd fun m => fdivCore m (s.readF rs1) (s.readF rs2),
    withMode_finishF_completes hmode _ rd fun m => fsqrtCore m (s.readF rs1)⟩

/-- Settles O29: each of the four is the fused core with the two signs of its form. -/
theorem fusedMultiplyAddCompletes : Obligations.FusedMultiplyAddCompletes := by
  intro s rd rs1 rs2 rs3 rm mode hmode
  have hform : ∀ insn np nc, ∃ t, (withMode insn rm s fun m =>
      finishF rd (fmaCore m (s.readF rs1) (s.readF rs2) (s.readF rs3) np nc) s) = .next t ∧ FpEffect s t rd _ _ :=
    fun insn np nc => withMode_finishF_completes hmode insn rd _
  exact ⟨hform _ false false, hform _ false true, hform _ true false, hform _ true true⟩

/-- Settles O45: minimum and maximum have no rounding mode, so they reach their end in every state. -/
theorem minMaxCompletes : Obligations.MinMaxCompletes :=
  fun s rd _ _ => ⟨finishF_completes rd _ s, finishF_completes rd _ s⟩

/-! ### The fused sums (R220 to R226) -/

/-- The fused core rounds the exact `±(a b) ± c` once. -/
theorem fmaCore_roundsTo (mode : RoundMode) {a b c : Bits32} (np nc : Bool) (ha : isFinite a = true)
    (hb : isFinite b = true) (hc : isFinite c = true) {v : ℝ}
    (hv : v = (if np then -((fval a : ℝ) * fval b) else fval a * fval b) + (if nc then -(fval c : ℝ) else fval c))
    (hne : v ≠ 0) : RoundsTo mode v (fmaCore mode a b c np nc).1 (fmaCore mode a b c np nc).2 := by
  have hval : v = (fusedSum a b c np nc : ℝ) / (2 ^ 149 * 2 ^ 149 : ℕ) := by
    rw [hv, Nat.cast_mul, Nat.cast_pow, Nat.cast_ofNat]
    have hcast := congrArg (Rat.cast (K := ℝ)) (fusedSum_eq a b c np nc)
    push_cast [apply_ite (Rat.cast (K := ℝ))] at hcast
    exact hcast
  have hsum : fusedSum a b c np nc ≠ 0 := fun h => hne (by rw [hval, h, Int.cast_zero, zero_div])
  rw [fmaCore_of_finite mode np nc ha hb hc hsum]
  exact roundF32_roundsTo (hval ▸ ofInt_denotes _ (by positivity)) hne mode false

/-- Settles O34: the four sign choices of R226; a difference is the sum with the addend negated. -/
theorem fusedMultiplyAddIsCorrectlyRounded : Obligations.FusedMultiplyAddIsCorrectlyRounded := by
  intro mode a b c ha hb hc
  exact ⟨fmaCore_roundsTo mode false false ha hb hc (by simp),
    fmaCore_roundsTo mode false true ha hb hc (by simp [sub_eq_add_neg]),
    fmaCore_roundsTo mode true false ha hb hc (by simp),
    fmaCore_roundsTo mode true true ha hb hc (by simp [sub_eq_add_neg])⟩

/-! ### No tie for a square root (R215) -/

/-- A magnitude has at most 24 significant bits (R121). -/
theorem magUnits_eq_significand_mul_pow (b : Bits32) : ∃ m k : ℕ, m < 2 ^ 24 ∧ magUnits b = m * 2 ^ k := by
  have hfrac := (ffrac b).isLt
  unfold magUnits
  split_ifs
  · exact ⟨_, 0, by omega, (mul_one _).symm⟩
  · exact ⟨_, _, by omega, rfl⟩

/-- The square of an odd number of more than 24 bits is no number of 24 bits, at any scale: scaled up that is even,
scaled down it is too small. -/
theorem odd_square_ne_scaled_significand {f m : ℕ} (hf : 2 ^ 23 ≤ f) (hm : m < 2 ^ 24) (j : ℤ) :
    ((2 * f + 1 : ℕ) : ℝ) * (2 * f + 1 : ℕ) ≠ m * 2 ^ j := by
  intro heq
  rcases lt_or_ge 0 j with hup | hdown
  · obtain ⟨i, hi⟩ := Int.eq_succ_of_zero_lt hup
    have hnat : (2 * f + 1) * (2 * f + 1) = m * 2 ^ (i + 1) := by
      rw [hi, ← Nat.cast_succ, zpow_natCast] at heq
      exact_mod_cast heq
    have hodd : Odd ((2 * f + 1) * (2 * f + 1)) := (odd_two_mul_add_one f).mul (odd_two_mul_add_one f)
    rw [hnat, pow_succ, ← mul_assoc] at hodd
    exact Nat.not_even_iff_odd.mpr hodd (even_two.mul_left _)
  · have hpow : (2 : ℝ) ^ j ≤ 1 := zpow_le_one_of_nonpos₀ (by norm_num) hdown
    have hsmall : (m : ℝ) * 2 ^ j ≤ m := mul_le_of_le_one_right (Nat.cast_nonneg m) hpow
    rw [← heq] at hsmall
    have hsmall' : (2 * f + 1) * (2 * f + 1) ≤ m := by exact_mod_cast hsmall
    nlinarith

/-- The exact root that FSQRT.S rounds. -/
def rootOf (a : Bits32) : Exact := ⟨false, .root (magUnits a) (2 ^ 149)⟩

theorem rootOf_denotes {a : Bits32} (hsign : fsign a = false) : (rootOf a).mag.Denotes (Real.sqrt (fval a)) := by
  obtain ⟨y, hy, hroot⟩ := root_denotes hsign
  obtain rfl : Real.sqrt (fval a) = y := hroot
  exact hy

theorem magUnits_pos {a : Bits32} (hzero : isZero a = false) : 0 < magUnits a :=
  Nat.pos_of_ne_zero fun h => Bool.eq_false_iff.mp hzero ((magUnits_eq_zero_iff a).mp h)

theorem rootOf_pos {a : Bits32} (hzero : isZero a = false) {y : ℝ} (hy : (rootOf a).mag.Denotes y) : 0 < y := by
  refine lt_of_le_of_ne hy.nonneg fun h => (magUnits_pos hzero).ne' ?_
  exact beq_iff_eq.mp ((Mag.isZero_iff hy).mpr h.symm)

theorem rootOf_isZero {a : Bits32} (hzero : isZero a = false) : (rootOf a).mag.isZero = false :=
  beq_eq_false_iff_ne.mpr (magUnits_pos hzero).ne'

/-- A root is never subnormal: the smallest number is 2^-149. -/
theorem rootOf_ilog2_ge {a : Bits32} (hzero : isZero a = false) : -126 ≤ (rootOf a).mag.ilog2 := by
  have hpos := magUnits_pos hzero
  have hone : (1 : ℝ) ≤ magUnits a := by exact_mod_cast hpos
  obtain ⟨_, hlog⟩ := ratioLog2_spec (magUnits a) (2 ^ 149) hpos (by positivity)
  show -126 ≤ ratioLog2 (magUnits a) (2 ^ 149) / 2
  by_contra hsmall
  have hpow : (2 : ℝ) ^ (ratioLog2 (magUnits a) (2 ^ 149) + 1) ≤ 2 ^ (-149 : ℤ) :=
    zpow_le_zpow_right₀ (by norm_num) (by omega)
  have hprod : (2 : ℝ) ^ (ratioLog2 (magUnits a) (2 ^ 149) + 1) * (2 ^ 149 : ℕ) ≤ 2 ^ (-149 : ℤ) * (2 ^ 149 : ℕ) := by
    gcongr
  norm_num at hprod hlog
  linarith

theorem boundedExp_rootOf {a : Bits32} (hzero : isZero a = false) :
    boundedExp (rootOf a) = (rootOf a).mag.ilog2 := max_eq_left (rootOf_ilog2_ge hzero)

/-- The square of the root is the radicand, 24 bits at some scale. -/
theorem rootOf_mul_self {a : Bits32} {y : ℝ} (hy : (rootOf a).mag.Denotes y) :
    ∃ (m : ℕ) (k : ℤ), m < 2 ^ 24 ∧ y * y = m * 2 ^ k := by
  obtain ⟨m, k, hm, hmag⟩ := magUnits_eq_significand_mul_pow a
  obtain ⟨_, _, hsq⟩ := hy
  refine ⟨m, k - 149, hm, ?_⟩
  rw [hmag] at hsq
  rw [zpow_sub₀ two_ne_zero, zpow_natCast, ← mul_div_assoc, eq_div_iff (by positivity)]
  exact_mod_cast hsq

/-- The root in units of its last place is not half-way between two integers: a half-integer of that size squares to
more bits than a number has. -/
theorem rest_atQuantum_rootOf_ne_half {a : Bits32} (hzero : isZero a = false) {y : ℝ}
    (hy : (rootOf a).mag.Denotes y) (hpos : 0 < y) : (atQuantum (rootOf a)).rest ≠ .half := by
  intro hhalf
  obtain ⟨m, k, hm, hsq⟩ := rootOf_mul_self hy
  obtain ⟨hlow, hhigh⟩ := Mag.ilog2_spec hy hpos
  obtain ⟨hlarge, _⟩ := scaled_bounds hlow hhigh
  have htie := (rest_eq_iff (atQuantum_denotes hy) .half).mp hhalf
  rw [Rest.Describes, boundedExp_rootOf hzero] at htie
  generalize (rootOf a).mag.ilog2 - 23 = q at htie hlarge
  generalize (atQuantum (rootOf a)).floor = f at htie
  have hf : 2 ^ 23 ≤ f := by
    have hf' : (2 ^ 23 : ℝ) < f + 1 := by linarith
    exact Nat.lt_succ_iff.mp (by exact_mod_cast hf')
  refine odd_square_ne_scaled_significand hf hm (k + -q + -q + 2) ?_
  have hodd : ((2 * f + 1 : ℕ) : ℝ) = 2 * (y * 2 ^ (-q)) := by
    push_cast
    linarith
  calc ((2 * f + 1 : ℕ) : ℝ) * (2 * f + 1 : ℕ) = y * y * 2 ^ (-q) * 2 ^ (-q) * 2 ^ (2 : ℤ) := by
        rw [hodd]
        ring
    _ = m * 2 ^ (k + -q + -q + 2) := by
        rw [hsq, zpow_add₀ two_ne_zero, zpow_add₀ two_ne_zero, zpow_add₀ two_ne_zero]
        ring

/-- Away from a tie rounding to nearest stays within one half. -/
theorem roundInt_rne_close (neg : Bool) {m : Mag} {x : ℝ} (hx : m.Denotes x) (hhalf : m.rest ≠ .half) :
    |(roundInt .rne neg m : ℝ) - x| < 1 / 2 := by
  rcases Mag.rest_cases hx with ⟨hr, h⟩ | ⟨hr, h1, h2⟩ | ⟨hr, _⟩ | ⟨hr, h1, h2⟩
  · simp [roundInt, hr, h]
  · rw [abs_lt]
    simp only [roundInt, hr]
    constructor <;> linarith
  · exact absurd hr hhalf
  · rw [abs_lt]
    simp only [roundInt, hr]
    push_cast
    constructor <;> linarith

/-- The two modes to nearest differ on ties alone. -/
theorem roundInt_rmm_eq_rne (neg : Bool) {m : Mag} (hhalf : m.rest ≠ .half) :
    roundInt .rmm neg m = roundInt .rne neg m := by
  cases hr : m.rest with
  | half => exact absurd hr hhalf
  | zero | below | above => simp [roundInt, hr]

/-- Within one half of `x` an integer is strictly nearer than any other. -/
theorem strictly_nearest_of_close {n k : ℤ} {x : ℝ} (hclose : |(n : ℝ) - x| < 1 / 2) (hne : k ≠ n) :
    |(n : ℝ) - x| < |(k : ℝ) - x| := by
  have hapart : (1 : ℝ) ≤ |(k : ℝ) - n| := by exact_mod_cast Int.one_le_abs (sub_ne_zero.mpr hne)
  have htri : |(k : ℝ) - n| ≤ |(k : ℝ) - x| + |(n : ℝ) - x| := by
    rw [abs_sub_comm (n : ℝ) x]
    exact abs_sub_le _ _ _
  linarith

/-- Away from a tie the pattern that RNE delivers for a positive number is strictly nearer than any other value: at the
quantum any other integer is, and a value that is no multiple of the quantum lies below `2^23` quanta. -/
theorem delivered_rne_strictly_nearest {e : Exact} {y : ℝ} (hy : e.mag.Denotes y) (hpos : 0 < y) (hneg : e.neg = false)
    (hfit : ¬ overflowTest .rne e = true) (hhalf : (atQuantum e).rest ≠ .half) {p : Bits32}
    (hp : fval p ≠ fval (delivered .rne e)) : |(fval (delivered .rne e) : ℝ) - y| < |(fval p : ℝ) - y| := by
  have hclose := roundInt_rne_close e.neg (atQuantum_denotes hy) hhalf
  have hval := fval_delivered hy hpos hfit
  have hcases := fval_quantum_or_small hy hpos p
  rw [hneg] at hclose hval
  rw [zpow_neg] at hclose
  have hquantum : (0 : ℝ) < 2 ^ (boundedExp e - 23) := by positivity
  generalize (2 : ℝ) ^ (boundedExp e - 23) = Q at hclose hval hcases hquantum
  generalize hn : negIf false (roundInt .rne false (atQuantum e)) = n at hval
  rw [← Int.cast_natCast, show ((roundInt .rne false (atQuantum e) : ℕ) : ℤ) = n from hn] at hclose
  have hnearest : ∀ k : ℤ, k ≠ n → |(fval (delivered .rne e) : ℝ) - y| < |(k : ℝ) * Q - y| := fun k hk => by
    rw [hval, ← dist_scale _ _ _ hquantum, ← dist_scale _ _ _ hquantum]
    exact mul_lt_mul_of_pos_right (strictly_nearest_of_close hclose hk) hquantum
  rcases hcases with ⟨k, hk⟩ | ⟨hsmall, hbinade⟩
  · rw [hk]
    refine hnearest k fun hkn => hp ?_
    rw [← hkn, ← hk] at hval
    exact_mod_cast hval.symm
  · have hbelow : (fval p : ℝ) < 2 ^ 23 * Q := lt_of_abs_lt hsmall
    have hfar : |((2 ^ 23 : ℤ) : ℝ) * Q - y| < |(fval p : ℝ) - y| := by
      push_cast
      rw [abs_of_nonpos (by linarith), abs_of_neg (by linarith)]
      linarith
    rcases eq_or_ne (2 ^ 23) n with heq | hne
    · rwa [hval, ← heq]
    · exact (hnearest _ hne).trans hfar

/-- Where neither significand that `round_f32` rounds is at a tie, RNE and RMM give the same result and flags. -/
theorem roundF32_rmm_eq_rne {e : Exact} (hstep : (e.mag.scale (e.mag.ilog2 - 23)).rest ≠ .half)
    (hhalf : (atQuantum e).rest ≠ .half) (zs : Bool) : roundF32 .rmm e zs = roundF32 .rne e zs := by
  have hsig : significand24 .rmm e = significand24 .rne e := roundInt_rmm_eq_rne e.neg hstep
  have hover : overflowTest .rmm e = overflowTest .rne e := by rw [overflowTest, hsig, ← overflowTest]
  have htiny : tinyTest .rmm e = tinyTest .rne e := by rw [tinyTest, hsig, ← tinyTest]
  have hdelivered : delivered .rmm e = delivered .rne e := by
    rw [delivered, roundInt_rmm_eq_rne e.neg hhalf, ← delivered]
  have hflags : roundingFlags .rmm e = roundingFlags .rne e := by rw [roundingFlags, htiny, ← roundingFlags]
  have hlimit : overflowResult .rmm e.neg = overflowResult .rne e.neg := rfl
  rw [roundF32_eq, roundF32_eq, hover, hdelivered, hflags, hlimit]

/-- A root does not overflow: that would raise OF. -/
theorem overflowTest_rootOf {a : Bits32} (hzero : isZero a = false) (hsign : fsign a = false) (mode : RoundMode) :
    ¬ overflowTest mode (rootOf a) = true := by
  intro hover
  have hflags := roundF32_flags_mem_of_isRoot ⟨a, hsign, hzero, rfl⟩ mode false
  rw [← rootOf, roundF32_eq, if_neg (Bool.eq_false_iff.mp (rootOf_isZero hzero)), if_pos hover] at hflags
  exact absurd hflags (by decide : flagOF ||| flagNX ∉ [0#5, flagNX])

/-- The rounding of a root sees no tie, so the two modes to nearest agree on it. -/
theorem rootOf_rmm_eq_rne {a : Bits32} (hzero : isZero a = false) (hsign : fsign a = false) (zs : Bool) :
    roundF32 .rmm (rootOf a) zs = roundF32 .rne (rootOf a) zs := by
  have hy := rootOf_denotes hsign
  have hhalf := rest_atQuantum_rootOf_ne_half hzero hy (rootOf_pos hzero hy)
  refine roundF32_rmm_eq_rne ?_ hhalf zs
  rwa [← boundedExp_rootOf hzero]

/-- Every other number is strictly farther from the root than the one that RNE delivers. -/
theorem fsqrtCore_rne_strictly_nearest {a p : Bits32} (ha : isFinite a = true) (hzero : isZero a = false)
    (hsign : fsign a = false) (hp : fval p ≠ fval (fsqrtCore .rne a).1) :
    |(fval (fsqrtCore .rne a).1 : ℝ) - Real.sqrt (fval a)| < |(fval p : ℝ) - Real.sqrt (fval a)| := by
  have hy := rootOf_denotes hsign
  have hpos := rootOf_pos hzero hy
  have hfit := overflowTest_rootOf hzero hsign .rne
  have hcore : (fsqrtCore .rne a).1 = delivered .rne (rootOf a) := by
    rw [fsqrtCore_of_finite .rne ha hzero hsign, ← rootOf, roundF32_eq,
      if_neg (Bool.eq_false_iff.mp (rootOf_isZero hzero)), if_neg hfit]
  rw [hcore] at hp ⊢
  exact delivered_rne_strictly_nearest hy hpos rfl hfit (rest_atQuantum_rootOf_ne_half hzero hy hpos) hp

/-- Settles O42: the root of a positive number is at no tie, and no other operand is rounded. -/
theorem squareRootNeverTies : Obligations.SquareRootNeverTies := by
  intro a
  refine ⟨fun ha hpos p _ hp => ?_, ?_⟩
  · have hzero : isZero a = false := Bool.eq_false_iff.mpr fun h => hpos.ne' ((fval_eq_zero_iff a).mpr h)
    have hsign : fsign a = false := Bool.eq_false_iff.mpr fun h => lt_asymm hpos ((fval_neg_iff a hpos.ne').mpr h)
    exact fsqrtCore_rne_strictly_nearest ha hzero hsign hp
  · unfold fsqrtCore
    split_ifs with _ hzero hsign
    case neg => exact (rootOf_rmm_eq_rne (Bool.eq_false_iff.mpr hzero) (Bool.eq_false_iff.mpr hsign) false).symm
    all_goals rfl

/-! ### The order of numbers (R143) -/

theorem feq_iff_sameNumber (a b : Bits32) : feq a b = true ↔ SameNumber a b := by
  simp [feq, SameNumber]

theorem units_lt_iff (a b : Bits32) : units a < units b ↔ fval a < fval b := by
  rw [fval_eq_units, fval_eq_units, div_lt_div_iff_of_pos_right (by positivity), Int.cast_lt]

theorem flt_iff_less (a b : Bits32) : flt a b = true ↔ Less a b := by
  have hneg : infOf true = 0xff800000#32 := by decide
  have hpos : infOf false = 0x7f800000#32 := by decide
  simp only [flt, Less, ← feq_iff_sameNumber, ← units_lt_iff, hneg, hpos, Bool.and_eq_true, Bool.or_eq_true,
    Bool.not_eq_true', Bool.not_eq_true, beq_iff_eq, decide_eq_true_iff, or_assoc, and_assoc]

theorem less_irrefl (a : Bits32) : ¬ Less a a := fun h => h.1 (.inr rfl)

/-- An infinity is at its end of the order, and finite numbers compare by their values. -/
theorem less_asymm {a b : Bits32} (h : Less a b) : ¬ Less b a := by
  have hneg : isFinite 0xff800000#32 = false := by decide
  have hpos : isFinite 0x7f800000#32 = false := by decide
  rintro ⟨_, h'⟩
  obtain ⟨hne, rfl | rfl | ⟨ha, hb, hlt⟩⟩ := h
  · rcases h' with rfl | h' | ⟨_, hfin, _⟩
    · exact hne (.inr rfl)
    · exact absurd h' (by decide)
    · simp [hneg] at hfin
  · rcases h' with h' | rfl | ⟨hfin, _, _⟩
    · exact absurd h' (by decide)
    · exact hne (.inr rfl)
    · simp [hpos] at hfin
  · rcases h' with rfl | rfl | ⟨_, _, hgt⟩
    · simp [hneg] at hb
    · simp [hpos] at ha
    · exact lt_asymm hlt hgt

/-! ### Minimum and maximum (R216) -/

section

variable {a b : Bits32}

/-- Two numbers: both are zeros and the sign decides, or the order of R143 does, the second operand standing for the
minimum when neither is less. -/
theorem minMax_of_numbers (ha : isNaN a = false) (hb : isNaN b = false) :
    (isZero a = true ∧ isZero b = true ∧ (fminCore a b).1 = (if fsign a then a else b) ∧
      (fmaxCore a b).1 = (if fsign a then b else a)) ∨
    (Less a b ∧ (fminCore a b).1 = a ∧ (fmaxCore a b).1 = b) ∨
    (¬ (isZero a = true ∧ isZero b = true) ∧ ¬ Less a b ∧ (fminCore a b).1 = b ∧ (fmaxCore a b).1 = a) := by
  by_cases hzeros : isZero a = true ∧ isZero b = true
  · refine .inl ⟨hzeros.1, hzeros.2, ?_, ?_⟩ <;> simp [fminCore, fmaxCore, ha, hb, hzeros]
  · by_cases hless : Less a b
    · refine .inr (.inl ⟨hless, ?_, ?_⟩) <;> simp [fminCore, fmaxCore, ha, hb, hzeros, (flt_iff_less a b).mpr hless]
    · have hflt : flt a b = false := Bool.eq_false_iff.mpr fun h => hless ((flt_iff_less a b).mp h)
      refine .inr (.inr ⟨hzeros, hless, ?_, ?_⟩) <;> simp [fminCore, fmaxCore, ha, hb, hzeros, hflt]

theorem minMax_of_nan_left (ha : isNaN a = true) (hb : isNaN b = false) :
    (fminCore a b).1 = b ∧ (fmaxCore a b).1 = b := by
  simp [fminCore, fmaxCore, ha, hb]

theorem minMax_of_nan_right (ha : isNaN a = false) (hb : isNaN b = true) :
    (fminCore a b).1 = a ∧ (fmaxCore a b).1 = a := by
  simp [fminCore, fmaxCore, ha, hb]

theorem minMax_of_nans (ha : isNaN a = true) (hb : isNaN b = true) :
    (fminCore a b).1 = 0x7fc00000#32 ∧ (fmaxCore a b).1 = 0x7fc00000#32 := by
  simp [fminCore, fmaxCore, ha, hb, cnan]

/-- No zero is less than a zero (R143). -/
theorem not_less_of_zeros (ha : isZero a = true) (hb : isZero b = true) : ¬ Less a b := fun h => h.1 (.inl ⟨ha, hb⟩)

end

/-- Settles O46: two zeros by their signs, two other numbers by the order, which is irreflexive and asymmetric; a NaN
leaves the other operand. -/
theorem minMaxSelectTheNumber : Obligations.MinMaxSelectTheNumber := by
  intro a b
  refine ⟨fun ha hb => ?numbers, minMax_of_nan_left, minMax_of_nan_right, minMax_of_nans, (minMax_flags a b).1,
    (minMax_flags a b).2⟩
  rcases minMax_of_numbers ha hb with ⟨hza, hzb, hmin, hmax⟩ | ⟨hless, hmin, hmax⟩ | ⟨hzeros, hless, hmin, hmax⟩
  · rw [hmin, hmax]
    cases hs : fsign a <;> simp [hs, hza, hzb, not_less_of_zeros]
  · rw [hmin, hmax]
    exact ⟨.inl rfl, .inr rfl, less_irrefl a, less_asymm hless, less_asymm hless, less_irrefl b,
      fun hza hzb => absurd hless (not_less_of_zeros hza hzb)⟩
  · rw [hmin, hmax]
    exact ⟨.inr rfl, .inl rfl, hless, less_irrefl b, less_irrefl a, hless,
      fun hza hzb => absurd ⟨hza, hzb⟩ hzeros⟩

end Sys2Proof.Proofs
end

section
/-! PROOF. Conversions, sign injection and moves (`44_convert_move.md`). -/

namespace Sys2Proof.Proofs

open Sys2Proof.Machine

/-! ### Float to integer: the value (R245) -/

/-- The integer that FCVT to an integer rounds a finite operand to, before the range test. -/
def roundedInt (mode : RoundMode) (a : Bits32) : ℤ :=
  negIf (fsign a) (roundInt mode (fsign a) (.ratio (magUnits a) (2 ^ 149)))

theorem fval_eq_signed_abs (a : Bits32) : (if fsign a then -|(fval a : ℝ)| else |(fval a : ℝ)|) = fval a := by
  have hunits : (0 : ℝ) ≤ magUnits a / 2 ^ 149 := by positivity
  cases hs : fsign a <;> simp only [fval_cast, units, hs, Bool.false_eq_true, if_false, if_true] <;> push_cast
  · exact abs_of_nonneg hunits
  · rw [neg_div, abs_neg, abs_of_nonneg hunits]

theorem roundedInt_delivers (mode : RoundMode) (a : Bits32) : DeliversInt mode (fval a) (roundedInt mode a) := by
  have hround := roundInt_delivers mode (fsign a) (magUnits_denotes a)
  rwa [fval_eq_signed_abs] at hround

/-- The rounded integer is the operand itself exactly when its magnitude has no fraction. -/
theorem roundedInt_eq_fval_iff (mode : RoundMode) (a : Bits32) :
    (roundedInt mode a : ℚ) = fval a ↔ (Mag.ratio (magUnits a) (2 ^ 149)).rest = .zero := by
  rw [← roundInt_eq_self_iff (mode := mode) (fsign a) (magUnits_denotes a), ← Rat.cast_inj (α := ℝ), Rat.cast_intCast,
    roundedInt, negIf_natCast]
  nth_rewrite 1 [← fval_eq_signed_abs a]
  cases fsign a <;> simp

section

variable (mode : RoundMode) {a : Bits32} (w : ℕ) (signed : Bool)

theorem fcvtIntCore_of_nan (ha : isNaN a = true) : fcvtIntCore mode a w signed = (intHi w signed, flagNV) := if_pos ha

theorem fcvtIntCore_infOf (s : Bool) :
    fcvtIntCore mode (infOf s) w signed = (if s then intLo w signed else intHi w signed, flagNV) := by
  have hinf : isInf (infOf s) = true := by cases s <;> decide
  have hsign : fsign (infOf s) = s := fsign_pack _ _ _
  simp [fcvtIntCore, hinf, hsign]

/-- A finite operand: the range test is on the rounded integer, and NX is for an inexact one in range. -/
theorem fcvtIntCore_of_finite (ha : isFinite a = true) :
    fcvtIntCore mode a w signed =
      if roundedInt mode a < intLo w signed then (intLo w signed, flagNV)
      else if intHi w signed < roundedInt mode a then (intHi w signed, flagNV)
      else (roundedInt mode a, if (roundedInt mode a : ℚ) = fval a then flagNone else flagNX) := by
  have hflag : flagIf ((Mag.ratio (magUnits a) (2 ^ 149)).rest != .zero) flagNX =
      if (roundedInt mode a : ℚ) = fval a then flagNone else flagNX := by
    simp only [roundedInt_eq_fval_iff, flagIf, bne_iff_ne, ite_not]
  rw [← hflag]
  exact (if_neg (Bool.eq_false_iff.mp (isNaN_of_isFinite ha))).trans
    (if_neg (Bool.eq_false_iff.mp (isInf_of_isFinite ha)))

end

/-- Settles O48: the three kinds of operand, the finite one by the rounding of its magnitude. -/
theorem floatToIntRoundsAndSaturates : Obligations.FloatToIntRoundsAndSaturates := by
  rintro mode a w signed _ lo hi rfl rfl
  refine ⟨fcvtIntCore_of_nan mode w signed, ?_, ?_, fun ha => ?_⟩
  · rintro rfl
    exact fcvtIntCore_infOf mode w signed false
  · rintro rfl
    exact fcvtIntCore_infOf mode w signed true
  · exact ⟨roundedInt mode a, roundedInt_delivers mode a, fcvtIntCore_of_finite mode w signed ha⟩

/-! ### Integer to float: the value (R250) -/

theorem rest_eq_zero_of_denotes_natCast {m : Mag} {k : ℕ} (h : m.Denotes k) : m.rest = .zero := by
  rw [rest_eq_iff h .zero, floor_eq_natFloor h, Nat.floor_natCast]
  exact sub_self _

theorem ilog2_nonneg {m : Mag} {y : ℝ} (hy : m.Denotes y) (hone : 1 ≤ y) : 0 ≤ m.ilog2 := by
  have hpow : (2 : ℝ) ^ (0 : ℤ) < 2 ^ (m.ilog2 + 1) :=
    lt_of_le_of_lt (by rwa [zpow_zero]) (Mag.ilog2_spec hy (lt_of_lt_of_le one_pos hone)).2
  exact Int.lt_add_one_iff.mp ((zpow_lt_zpow_iff_right₀ one_lt_two).mp hpow)

/-- A natural number of at most 24 bits, or 2^24 itself, is a whole number of quanta. -/
theorem rest_atQuantum_of_le {e : Exact} {k : ℕ} (hy : e.mag.Denotes k) (hpos : 0 < k) (hk : k ≤ 2 ^ 24) :
    (atQuantum e).rest = .zero := by
  have hpos' : (0 : ℝ) < k := by exact_mod_cast hpos
  obtain ⟨hlow, _⟩ := Mag.ilog2_spec hy hpos'
  have hexp : boundedExp e = e.mag.ilog2 :=
    max_eq_left (le_trans (by norm_num) (ilog2_nonneg hy (by exact_mod_cast hpos)))
  have hdenotes := atQuantum_denotes hy
  rw [hexp] at hdenotes
  rcases le_or_gt e.mag.ilog2 23 with hsmall | hlarge
  · obtain ⟨i, hi⟩ := Int.eq_ofNat_of_zero_le (by omega : 0 ≤ -(e.mag.ilog2 - 23))
    rw [hi, zpow_natCast] at hdenotes
    exact rest_eq_zero_of_denotes_natCast (k := k * 2 ^ i) (by exact_mod_cast hdenotes)
  · have hkmax : (k : ℝ) ≤ 2 ^ (24 : ℤ) := by exact_mod_cast hk
    have hlog : e.mag.ilog2 = 24 := by
      have := (zpow_le_zpow_iff_right₀ (one_lt_two (α := ℝ))).mp (hlow.trans hkmax)
      omega
    rw [hlog] at hlow hdenotes
    rw [le_antisymm hkmax hlow] at hdenotes
    exact rest_eq_zero_of_denotes_natCast (k := 2 ^ 23) (by norm_num at hdenotes ⊢; exact hdenotes)

theorem ofInt_one_denotes (n : ℤ) : (Exact.ofInt n 1).Denotes (n : ℝ) := by simpa using ofInt_denotes n one_pos

theorem fcvtFloatCore_zero (mode : RoundMode) : fcvtFloatCore mode 0 = (0#32, 0#5) :=
  roundF32_of_isZero ((ofInt_isZero 0 1).mpr rfl) mode false

theorem fcvtFloatCore_roundsTo (mode : RoundMode) {n : ℤ} (hn : n ≠ 0) :
    RoundsTo mode (n : ℝ) (fcvtFloatCore mode n).1 (fcvtFloatCore mode n).2 :=
  roundF32_roundsTo (ofInt_one_denotes n) (Int.cast_ne_zero.mpr hn) mode false

/-- An integer of at most 2^24 in magnitude does not overflow and is a whole number of quanta, so it is delivered as it
is. -/
theorem fcvtFloatCore_exact (mode : RoundMode) {n : ℤ} (hne : n ≠ 0) (hn : |n| ≤ 2 ^ 24) :
    fval (fcvtFloatCore mode n).1 = n ∧ (fcvtFloatCore mode n).2 = 0#5 := by
  have hzero : ¬ (Exact.ofInt n 1).mag.isZero = true := fun h => hne ((ofInt_isZero n 1).mp h)
  obtain ⟨y, hy, hsigned⟩ := ofInt_one_denotes n
  obtain rfl : y = n.natAbs := by simpa using hy.2
  have hpos : 0 < n.natAbs := Int.natAbs_pos.mpr hne
  have hpos' : (0 : ℝ) < n.natAbs := by exact_mod_cast hpos
  have hrest := rest_atQuantum_of_le hy hpos (by rw [Int.abs_eq_natAbs] at hn; omega)
  have hfit : ¬ overflowTest mode (Exact.ofInt n 1) = true := by
    intro hover
    have hflags := fcvtFloatCore_flags_mem mode (hn.trans (by norm_num))
    rw [fcvtFloatCore, roundF32_eq, if_neg hzero, if_pos hover] at hflags
    exact absurd hflags (by decide : flagOF ||| flagNX ∉ [0#5, flagNX])
  have hcore : fcvtFloatCore mode n = (delivered mode (Exact.ofInt n 1), roundingFlags mode (Exact.ofInt n 1)) := by
    rw [fcvtFloatCore, roundF32_eq, if_neg hzero, if_neg hfit]
  rw [hcore]
  constructor
  · have hval := (fval_delivered_eq_iff hy hpos' hfit).mpr hrest
    rw [← hsigned] at hval
    exact_mod_cast hval
  · simp only [roundingFlags, hrest]
    cases tinyTest mode (Exact.ofInt n 1) <;> decide

/-- Settles O50: zero is no rounding, the rest is one rounding of the integer. -/
theorem intToFloatIsCorrectlyRounded : Obligations.IntToFloatIsCorrectlyRounded := by
  intro mode n
  refine ⟨?_, fcvtFloatCore_roundsTo mode, fun hn => ?_⟩
  · rintro rfl
    exact fcvtFloatCore_zero mode
  · rcases eq_or_ne n 0 with rfl | hne
    · rw [fcvtFloatCore_zero]
      exact ⟨(fval_eq_zero_iff _).mpr (by decide), rfl⟩
    · exact fcvtFloatCore_exact mode hne hn

/-! ### Completion (R241 to R249, R255, R256) -/

theorem finishX_completes (rd : XReg) (r : Word × Flags) {s : State} (h : truncXlen s.cfg.xlen r.1 = r.1) :
    ∃ t, finishX rd r s = .next t ∧ IntEffect s t rd r.1 r.2 :=
  ⟨_, finishX_eq rd r s, finishX_effect rd r s h⟩

section

variable {rm : RmField} {s : State} {mode : RoundMode} (hmode : rmEff rm s.frm = some mode)

include hmode

/-- A 32-bit result is sign-extended to XLEN bits, in the unsigned form too. -/
theorem withMode_cvtToInt32_completes (insn : Bits32) (rd : XReg) (a : Bits32) (signed : Bool) :
    ∃ t, (withMode insn rm s fun m => cvtToInt32 m rd a signed s) = .next t ∧
      IntEffect s t rd (sextXlen s.cfg.xlen (BitVec.ofInt 32 (fcvtIntCore mode a 32 signed).1))
        (fcvtIntCore mode a 32 signed).2 := by
  rw [withMode_some hmode]
  exact finishX_completes rd _ (truncXlen_sextXlen _ _)

variable (hxlen : s.cfg.xlen = .rv64)

include hxlen

theorem needRv64_cvtToInt64_completes (insn : Bits32) (rd : XReg) (a : Bits32) (signed : Bool) :
    ∃ t, (needRv64 insn s <| withMode insn rm s fun m => cvtToInt64 m rd a signed s) = .next t ∧
      IntEffect s t rd (BitVec.ofInt 64 (fcvtIntCore mode a 64 signed).1) (fcvtIntCore mode a 64 signed).2 := by
  rw [needRv64_rv64 hxlen, withMode_some hmode]
  exact finishX_completes rd _ (by rw [hxlen, truncXlen_rv64])

theorem needRv64_finishF_completes (insn : Bits32) (rd : FReg) (core : RoundMode → Bits32 × Flags) :
    ∃ t, (needRv64 insn s <| withMode insn rm s fun m => finishF rd (core m) s) = .next t ∧
      FpEffect s t rd (core mode).1 (core mode).2 := by
  rw [needRv64_rv64 hxlen]
  exact withMode_finishF_completes hmode insn rd core

end

/-- Settles O47: two forms of 32 bits, two of 64 bits. -/
theorem floatToIntCompletes : Obligations.FloatToIntCompletes := by
  intro s rd rs1 rm mode hmode
  exact ⟨withMode_cvtToInt32_completes hmode _ rd _ true, withMode_cvtToInt32_completes hmode _ rd _ false,
    fun hxlen => ⟨needRv64_cvtToInt64_completes hmode hxlen _ rd _ true,
      needRv64_cvtToInt64_completes hmode hxlen _ rd _ false⟩⟩

/-- Settles O49: each form is the core function on its reading of the integer register. -/
theorem intToFloatCompletes : Obligations.IntToFloatCompletes := by
  intro s rd rs1 rm mode hmode
  exact ⟨withMode_finishF_completes hmode _ rd fun m => fcvtFloatCore m (signed32 (s.readX rs1)),
    withMode_finishF_completes hmode _ rd fun m => fcvtFloatCore m (unsigned32 (s.readX rs1)),
    fun hxlen => ⟨needRv64_finishF_completes hmode hxlen _ rd fun m => fcvtFloatCore m (signed64 (s.readX rs1)),
      needRv64_finishF_completes hmode hxlen _ rd fun m => fcvtFloatCore m (unsigned64 (s.readX rs1))⟩⟩

/-- At XLEN=32 the sign extension of a 32-bit value has no bit to fill (R10). -/
theorem sextXlen_rv32 (v : Bits32) : sextXlen .rv32 v = v.setWidth 64 := by
  have hlow : (v.signExtend 64).setWidth 32 = v := by
    ext i hi
    simp only [BitVec.getElem_setWidth, BitVec.getLsbD_signExtend]
    simp [hi, show i < 64 by omega]
  exact congrArg (BitVec.setWidth 64) hlow

theorem sextXlen_rv64 {n : ℕ} (v : BitVec n) : sextXlen .rv64 v = v.signExtend 64 := rfl

/-- Settles O52: FMV.X.W is the sign extension to XLEN bits, FMV.W.X the low 32 bits. -/
theorem movesKeepTheBits : Obligations.MovesKeepTheBits := by
  intro s xr fr
  refine ⟨?_, finishF_completes fr _ s⟩
  obtain ⟨t, hexec, heffect⟩ := finishX_completes xr (sextXlen s.cfg.xlen (s.readF fr), flagNone)
    (truncXlen_sextXlen s.cfg.xlen (s.readF fr))
  refine ⟨t, hexec, ?_⟩
  cases hxlen : s.cfg.xlen with
  | rv32 =>
    rw [hxlen, sextXlen_rv32] at heffect
    exact heffect
  | rv64 =>
    rw [hxlen, sextXlen_rv64] at heffect
    exact heffect

/-! ### Sign injection (R251 to R254) -/

theorem getLsbD_withSign_of_lt (s : Bool) (a : Bits32) {k : ℕ} (hk : k < 31) :
    (withSign s a).getLsbD k = a.getLsbD k := by
  rw [withSign, BitVec.getLsbD_append]
  simp [hk]

theorem getLsbD_withSign_sign (s : Bool) (a : Bits32) : (withSign s a).getLsbD 31 = s := by
  rw [withSign, BitVec.getLsbD_append]
  simp

/-- What all three forms do, for the sign bit each injects. -/
theorem finishF_withSign_completes (s : State) (rd : FReg) (sign : Bool) (a : Bits32) :
    ∃ t v, finishF rd (withSign sign a, flagNone) s = .next t ∧ FpEffect s t rd v 0#5 ∧
      (∀ k < 31, v.getLsbD k = a.getLsbD k) ∧ v.getLsbD 31 = sign := by
  obtain ⟨t, hexec, heffect⟩ := finishF_completes rd (withSign sign a, flagNone) s
  exact ⟨t, _, hexec, heffect, fun _ => getLsbD_withSign_of_lt sign a, getLsbD_withSign_sign sign a⟩

/-- Settles O51: the three forms differ in the sign bit they inject. -/
theorem signInjectionMovesBits : Obligations.SignInjectionMovesBits :=
  fun s rd _ _ => ⟨finishF_withSign_completes s rd _ _, finishF_withSign_completes s rd _ _,
    finishF_withSign_completes s rd _ _⟩

/-! ### The destination `x0` (R240) -/

/-- An instruction with an integer destination, `run rd` for each destination `rd`: `x0` leaves the integer registers of
`s` alone, and the flags do not depend on the destination. -/
def DiscardsAtZero (s : State) (run : XReg → Result State) : Prop :=
  ∀ (rd : XReg) (t u : State), run 0 = .next t → run rd = .next u →
    (∀ r, t.readX r = s.readX r) ∧ t.fflags = u.fflags

theorem finishX_discardsAtZero (s : State) (r : Word × Flags) : DiscardsAtZero s fun rd => finishX rd r s := by
  intro rd t u ht hu
  obtain rfl := Host.Outcome.next.inj ht
  obtain rfl := Host.Outcome.next.inj hu
  exact ⟨fun _ => rfl, by simp⟩

/-- The mode is chosen without a look at the destination. -/
theorem withMode_discardsAtZero {s : State} (insn : XReg → Bits32) (rm : RmField)
    {run : RoundMode → XReg → Result State} (hrun : ∀ mode, DiscardsAtZero s (run mode)) :
    DiscardsAtZero s fun rd => withMode (insn rd) rm s fun mode => run mode rd := by
  intro rd t u ht hu
  obtain ⟨mode, hmode, ht⟩ := (withMode_eq_next _ _ _ _ _).mp ht
  exact hrun mode rd t u ht ((withMode_some hmode _).symm.trans hu)

theorem needRv64_discardsAtZero {s : State} (insn : XReg → Bits32) {run : XReg → Result State}
    (hrun : DiscardsAtZero s run) : DiscardsAtZero s fun rd => needRv64 (insn rd) s (run rd) := by
  intro rd t u ht hu
  exact hrun rd t u ((needRv64_eq_next _ _ _ _).mp ht).2 ((needRv64_eq_next _ _ _ _).mp hu).2

/-- Settles O53: each of the nine ends in one write of its destination, under a mode or an XLEN that the destination
does not change. -/
theorem destinationX0StillAccruesFlags : Obligations.DestinationX0StillAccruesFlags := by
  intro s t u rd a b rm p hp ht hu
  have hcvt32 : ∀ (insn : XReg → Bits32) signed, DiscardsAtZero s fun rd =>
      withMode (insn rd) rm s fun mode => cvtToInt32 mode rd (s.readF a) signed s :=
    fun insn signed => withMode_discardsAtZero insn rm fun _ => finishX_discardsAtZero s _
  have hcvt64 : ∀ (insn : XReg → Bits32) signed, DiscardsAtZero s fun rd => needRv64 (insn rd) s <|
      withMode (insn rd) rm s fun mode => cvtToInt64 mode rd (s.readF a) signed s :=
    fun insn _ => needRv64_discardsAtZero insn (withMode_discardsAtZero insn rm fun _ => finishX_discardsAtZero s _)
  simp only [List.mem_cons, List.not_mem_nil, or_false] at hp
  rcases hp with rfl | rfl | rfl | rfl | rfl | rfl | rfl | rfl | rfl
  · exact hcvt32 (fun rd => encode (.fcvtWS rd a rm)) true rd t u ht hu
  · exact hcvt32 (fun rd => encode (.fcvtWUS rd a rm)) false rd t u ht hu
  · exact hcvt64 (fun rd => encode (.fcvtLS rd a rm)) true rd t u ht hu
  · exact hcvt64 (fun rd => encode (.fcvtLUS rd a rm)) false rd t u ht hu
  all_goals exact finishX_discardsAtZero s _ rd t u ht hu

end Sys2Proof.Proofs
end

section
/-! PROOF. The comparisons (`45_compare.md`) and the order of R143 that they report, which is total on the numbers. -/

namespace Sys2Proof.Proofs

open Sys2Proof.Machine

/-! ### Patterns of equal value (R123) -/

/-- A larger exponent field outweighs every significand. -/
theorem magUnits_lt_of_fexp_lt {a b : Bits32} (h : (fexp a).toNat < (fexp b).toNat) : magUnits a < magUnits b := by
  have hfrac : (ffrac a).toNat < 2 ^ 23 := (ffrac a).isLt
  have hb : fexp b ≠ 0#8 := fun h0 => by simp [h0] at h
  have hupper : magUnits a < 2 ^ 23 * 2 ^ (fexp a).toNat := by
    unfold magUnits
    split_ifs with h0
    · simpa [h0] using hfrac
    · have hpos : (fexp a).toNat ≠ 0 := fun hz => h0 (BitVec.eq_of_toNat_eq hz)
      calc (2 ^ 23 + (ffrac a).toNat) * 2 ^ ((fexp a).toNat - 1)
          < (2 ^ 23 * 2) * 2 ^ ((fexp a).toNat - 1) := Nat.mul_lt_mul_of_pos_right (by omega) (by positivity)
        _ = 2 ^ 23 * 2 ^ (fexp a).toNat := by rw [mul_assoc, mul_pow_sub_one hpos]
  calc magUnits a < 2 ^ 23 * 2 ^ (fexp a).toNat := hupper
    _ ≤ (2 ^ 23 + (ffrac b).toNat) * 2 ^ ((fexp b).toNat - 1) :=
        Nat.mul_le_mul (Nat.le_add_right _ _) (Nat.pow_le_pow_right two_pos (Nat.le_sub_one_of_lt h))
    _ = magUnits b := (if_neg hb).symm

theorem fields_eq_of_magUnits_eq {a b : Bits32} (h : magUnits a = magUnits b) :
    fexp a = fexp b ∧ ffrac a = ffrac b := by
  have hexp : fexp a = fexp b := by
    rcases lt_trichotomy (fexp a).toNat (fexp b).toNat with hlt | heq | hgt
    · exact absurd h (magUnits_lt_of_fexp_lt hlt).ne
    · exact BitVec.eq_of_toNat_eq heq
    · exact absurd h (magUnits_lt_of_fexp_lt hgt).ne'
  refine ⟨hexp, BitVec.eq_of_toNat_eq ?_⟩
  simp only [magUnits, hexp] at h
  split_ifs at h
  · exact h
  · exact Nat.add_left_cancel (Nat.eq_of_mul_eq_mul_right (by positivity) h)

/-- Two patterns have one value only where they are both zeros or the same bits. -/
theorem sameNumber_of_units_eq {a b : Bits32} (h : units a = units b) : SameNumber a b := by
  have hmag : magUnits a = magUnits b := by
    have habs := congrArg abs h
    rwa [abs_units, abs_units, Int.natCast_inj] at habs
  obtain ⟨hexp, hfrac⟩ := fields_eq_of_magUnits_eq hmag
  by_cases hsign : fsign a = fsign b
  · right
    rw [← pack_fields a, ← pack_fields b, hsign, hexp, hfrac]
  · left
    have hzero : magUnits a = 0 := by
      cases ha : fsign a <;> cases hb : fsign b <;> simp [units, ha, hb, hmag] at h hsign <;> omega
    exact ⟨(magUnits_eq_zero_iff a).mp hzero, (magUnits_eq_zero_iff b).mp (hmag ▸ hzero)⟩

/-! ### The order of R143 is total on the numbers -/

theorem sameNumber_comm (a b : Bits32) : SameNumber a b ↔ SameNumber b a := by
  simp only [SameNumber, and_comm, eq_comm]

theorem less_or_less_of_isInf {a b : Bits32} (ha : isInf a = true) (hne : ¬ SameNumber a b) :
    Less a b ∨ Less b a := by
  have hinf := eq_infOf ha
  cases hs : fsign a <;> rw [hs] at hinf
  · exact .inr ⟨mt (sameNumber_comm b a).mp hne, .inr (.inl hinf)⟩
  · exact .inl ⟨hne, .inl hinf⟩

theorem less_trichotomy {a b : Bits32} (ha : isNaN a = false) (hb : isNaN b = false) :
    Less a b ∨ SameNumber a b ∨ Less b a := by
  by_cases hsame : SameNumber a b
  · exact .inr (.inl hsame)
  have hsame' := mt (sameNumber_comm b a).mp hsame
  suffices Less a b ∨ Less b a from this.imp_right .inr
  by_cases hinfA : isInf a = true
  · exact less_or_less_of_isInf hinfA hsame
  by_cases hinfB : isInf b = true
  · exact (less_or_less_of_isInf hinfB hsame').symm
  have hfinA := (isFinite_iff a).mpr ⟨Bool.eq_false_iff.mpr hinfA, ha⟩
  have hfinB := (isFinite_iff b).mpr ⟨Bool.eq_false_iff.mpr hinfB, hb⟩
  rcases lt_trichotomy (units a) (units b) with hlt | heq | hgt
  · exact .inl ⟨hsame, .inr (.inr ⟨hfinA, hfinB, (units_lt_iff a b).mp hlt⟩)⟩
  · exact absurd (sameNumber_of_units_eq heq) hsame
  · exact .inr ⟨hsame', .inr (.inr ⟨hfinB, hfinA, (units_lt_iff b a).mp hgt⟩)⟩

/-! ### The core functions (R272 to R274) -/

section

variable (a b : Bits32)

theorem feqCore_eq_true_iff :
    (feqCore a b).1 = true ↔ isNaN a = false ∧ isNaN b = false ∧ SameNumber a b := by
  rw [← feq_iff_sameNumber]
  cases ha : isNaN a <;> cases hb : isNaN b <;> simp [feqCore, ha, hb]

theorem fltCore_eq_true_iff :
    (fltCore a b).1 = true ↔ isNaN a = false ∧ isNaN b = false ∧ Less a b := by
  rw [← flt_iff_less]
  cases ha : isNaN a <;> cases hb : isNaN b <;> simp [fltCore, ha, hb]

theorem fleCore_eq_true_iff :
    (fleCore a b).1 = true ↔ isNaN a = false ∧ isNaN b = false ∧ (Less a b ∨ SameNumber a b) := by
  rw [← flt_iff_less, ← feq_iff_sameNumber]
  cases ha : isNaN a <;> cases hb : isNaN b <;> simp [fleCore, ha, hb]

/-- A quiet comparison: only a signaling NaN is invalid. -/
theorem feqCore_flags : (feqCore a b).2 = if isSNaN a || isSNaN b then 0b10000#5 else 0#5 := by
  unfold feqCore
  split_ifs with hnan hsnan hsnan
  · exact if_pos hsnan
  · exact if_neg hsnan
  · obtain ⟨ha, hb⟩ := Bool.or_eq_false_iff.mp (Bool.eq_false_iff.mpr hnan)
    simp [isSNaN_of_not_isNaN ha, isSNaN_of_not_isNaN hb] at hsnan
  · rfl

theorem fltCore_flags : (fltCore a b).2 = if isNaN a || isNaN b then 0b10000#5 else 0#5 :=
  apply_ite Prod.snd _ _ _

theorem fleCore_flags : (fleCore a b).2 = if isNaN a || isNaN b then 0b10000#5 else 0#5 :=
  apply_ite Prod.snd _ _ _

end

/-! ### Completion (R270, R271) -/

theorem boolResult_eq (xl : Xlen) (b : Bool) : boolResult xl b = if b then 1 else 0 := by
  rw [boolResult, zextXlen_eq xl _ (by omega)]
  cases b <;> rfl

/-- What all three comparisons do, for the relation `p` that the core function decides and its flags `m`. -/
theorem finishX_boolResult_completes (s : State) (rd : XReg) {r : Bool × Flags} {p : Prop} {m : Flags}
    (hresult : r.1 = true ↔ p) (hflags : r.2 = m) :
    ∃ t v, finishX rd (boolResult s.cfg.xlen r.1, r.2) s = .next t ∧ IntEffect s t rd v m ∧ (v = 1 ∨ v = 0) ∧
      (v = 1 ↔ p) := by
  obtain ⟨t, hexec, heffect⟩ :=
    finishX_completes rd (boolResult s.cfg.xlen r.1, r.2) (truncXlen_zextXlen s.cfg.xlen (BitVec.ofBool r.1))
  refine ⟨t, _, hexec, hflags ▸ heffect, ?_, ?_⟩ <;> simp only [← hresult, boolResult_eq]
  · exact ite_eq_or_eq _ _ _
  · cases r.1 <;> decide

/-- Settles O54: the three differ in the relation their core functions decide and in the NaNs they signal. -/
theorem compareWritesTheRelation : Obligations.CompareWritesTheRelation := by
  rintro s rd rs1 rs2 a b rfl rfl
  exact ⟨finishX_boolResult_completes s rd (feqCore_eq_true_iff _ _) (feqCore_flags _ _),
    finishX_boolResult_completes s rd (fltCore_eq_true_iff _ _) (fltCore_flags _ _),
    finishX_boolResult_completes s rd (fleCore_eq_true_iff _ _) (fleCore_flags _ _)⟩

/-! ### The relations among the results (R275) -/

theorem compare_results_of_nan {a b : Bits32} (h : isNaN a = true ∨ isNaN b = true) :
    (fleCore a b).1 = false ∧ (fltCore a b).1 = false ∧ (feqCore a b).1 = false := by
  have hnan : (isNaN a || isNaN b) = true := Bool.or_eq_true_iff.mpr h
  exact ⟨congrArg Prod.fst (if_pos hnan), congrArg Prod.fst (if_pos hnan), congrArg Prod.fst (if_pos hnan)⟩

/-- On two numbers exactly one of less, equal and greater is reported, and FLE.S reports the first two. -/
theorem compare_results_of_numbers {a b : Bits32} (ha : isNaN a = false) (hb : isNaN b = false) :
    ((fltCore a b).1, (feqCore a b).1, (fltCore b a).1, (fleCore a b).1) ∈
      [(true, false, false, true), (false, true, false, true), (false, false, true, false)] := by
  simp only [List.mem_cons, List.not_mem_nil, or_false, Prod.mk.injEq, ← Bool.not_eq_true, fltCore_eq_true_iff,
    feqCore_eq_true_iff, fleCore_eq_true_iff, ha, hb, true_and]
  rcases less_trichotomy ha hb with hless | hsame | hgreater
  · exact .inl ⟨hless, hless.1, less_asymm hless, .inl hless⟩
  · exact .inr (.inl ⟨fun h => h.1 hsame, hsame, fun h => h.1 ((sameNumber_comm a b).mp hsame), .inr hsame⟩)
  · have hne := mt (sameNumber_comm a b).mp hgreater.1
    exact .inr (.inr ⟨less_asymm hgreater, hne, hgreater, not_or.mpr ⟨less_asymm hgreater, hne⟩⟩)

/-- Settles O55: each relation holds in each of the three ways that the results on two numbers can fall. -/
theorem compareResultsAreATrichotomy : Obligations.CompareResultsAreATrichotomy := by
  intro a b
  refine ⟨fun ha hb => ?_, compare_results_of_nan⟩
  have hresults := compare_results_of_numbers ha hb
  simp only [List.mem_cons, List.not_mem_nil, or_false, Prod.mk.injEq] at hresults
  rcases hresults with ⟨hlt, heq, hgt, hle⟩ | ⟨hlt, heq, hgt, hle⟩ | ⟨hlt, heq, hgt, hle⟩ <;>
    simp [hlt, heq, hgt, hle]

end Sys2Proof.Proofs
end

section
/-! PROOF. FCLASS.S (`46_classify.md`): the six classes of R122 are a partition of the patterns, and the bit that the
instruction sets is a function of the class and the sign. -/

namespace Sys2Proof.Proofs

open Sys2Proof.Machine

/-! ### The classes and their bits (R122, R281) -/

/-- The quiet bit is the top bit of the significand (R125). -/
theorem getLsbD_ffrac_top (a : Bits32) : (ffrac a).getLsbD 22 = a.getLsbD 22 := by
  simp [ffrac]

theorem ffrac_ne_zero_of_quiet {a : Bits32} (h : a.getLsbD 22 = true) : ffrac a ≠ 0#23 := by
  intro hzero
  rw [← getLsbD_ffrac_top, hzero] at h
  simp at h

/-- A pattern is in one class of R122 and in no other, and its class and sign determine the bit. -/
theorem classes_fclassBit_mem (a : Bits32) :
    ([isZero a, isSubnormal a, isNormal a, isInf a, isSNaN a, isQNaN a], fclassBit a) ∈
      [([true, false, false, false, false, false], if fsign a then 3 else 4),
        ([false, true, false, false, false, false], if fsign a then 2 else 5),
        ([false, false, true, false, false, false], if fsign a then 1 else 6),
        ([false, false, false, true, false, false], if fsign a then 0 else 7),
        ([false, false, false, false, true, false], 8),
        ([false, false, false, false, false, true], 9)] := by
  simp only [isZero, isSubnormal, isNormal, isInf, isSNaN, isQNaN, isNaN, fclassBit, getLsbD_ffrac_top]
  by_cases hmax : fexp a = 255#8
  · cases hquiet : a.getLsbD 22 with
    | true => simp [hmax, ffrac_ne_zero_of_quiet hquiet]
    | false => by_cases hfrac : ffrac a = 0#23 <;> simp [hmax, hfrac]
  · by_cases hmin : fexp a = 0#8
    · by_cases hfrac : ffrac a = 0#23 <;> simp [hmin, hfrac]
    · simp [hmax, hmin]

/-! ### The mask (R280) -/

theorem fclassBit_lt (a : Bits32) : fclassBit a < 10 := by
  dsimp only [fclassBit]
  split_ifs <;> decide

theorem getLsbD_fclassMask (a : Bits32) {k : ℕ} (hk : k < 10) :
    (fclassMask a).getLsbD k = true ↔ fclassBit a = k := by
  rw [fclassMask, BitVec.getLsbD_ofNat, Nat.testBit_two_pow]
  simp [hk]

/-- Settles O57: the bit is `fclassBit`, and each row of the partition has one `true`. -/
theorem classifySetsExactlyOneBit : Obligations.ClassifySetsExactlyOneBit := by
  intro a
  have hbit := fclassBit_lt a
  refine ⟨⟨fclassBit a, hbit, (getLsbD_fclassMask a hbit).mpr rfl,
    fun _ hj h => ((getLsbD_fclassMask a hj).mp h).symm⟩, ?_⟩
  have hclass := classes_fclassBit_mem a
  simp only [List.mem_cons, List.not_mem_nil, or_false, Prod.mk.injEq] at hclass
  rcases hclass with ⟨h, -⟩ | ⟨h, -⟩ | ⟨h, -⟩ | ⟨h, -⟩ | ⟨h, -⟩ | ⟨h, -⟩ <;> rw [h] <;> rfl

/-! ### The table (R281) -/

/-- The rows of R281 that name one pattern are the infinities and the zeros of each sign (R124). -/
theorem eq_infOf_iff (a : Bits32) (s : Bool) : a = infOf s ↔ isInf a = true ∧ fsign a = s := by
  refine ⟨?_, fun ⟨hinf, hsign⟩ => hsign ▸ eq_infOf hinf⟩
  rintro rfl
  simp [isInf, infOf]

theorem eq_zeroOf_iff (a : Bits32) (s : Bool) : a = zeroOf s ↔ isZero a = true ∧ fsign a = s := by
  refine ⟨?_, fun ⟨hzero, hsign⟩ => hsign ▸ eq_zeroOf hzero⟩
  rintro rfl
  simp [isZero, zeroOf]

/-- The table of R281, read from the top: the first row that matches is the row of the class and the sign. -/
theorem setWidth_fclassMask (a : Bits32) :
    (fclassMask a).setWidth 64 =
      (if a = infOf true then 0x001#64
       else if isNormal a && fsign a then 0x002
       else if isSubnormal a && fsign a then 0x004
       else if a = zeroOf true then 0x008
       else if a = zeroOf false then 0x010
       else if isSubnormal a then 0x020
       else if isNormal a then 0x040
       else if a = infOf false then 0x080
       else if isSNaN a then 0x100
       else 0x200) := by
  have hclass := classes_fclassBit_mem a
  simp only [List.mem_cons, List.not_mem_nil, or_false, Prod.mk.injEq, List.cons.injEq, and_true] at hclass
  simp only [fclassMask, eq_infOf_iff, eq_zeroOf_iff]
  rcases hclass with ⟨hclass, hbit⟩ | ⟨hclass, hbit⟩ | ⟨hclass, hbit⟩ | ⟨hclass, hbit⟩ | ⟨hclass, hbit⟩ |
    ⟨hclass, hbit⟩ <;> rw [hbit] <;> cases fsign a <;> simp [hclass]

/-- Settles O56: the mask is written zero-extended, and no flag with it. -/
theorem classifyWritesTheMask : Obligations.ClassifyWritesTheMask := by
  rintro s rd rs1 a rfl
  obtain ⟨t, hexec, heffect⟩ := finishX_completes rd (zextXlen s.cfg.xlen (fclassMask (s.readF rs1)), flagNone)
    (truncXlen_zextXlen s.cfg.xlen (fclassMask (s.readF rs1)))
  rw [zextXlen_eq _ _ (by omega), setWidth_fclassMask] at heffect
  exact ⟨t, hexec, heffect⟩

end Sys2Proof.Proofs
end

section
/-! PROOF. The exceptions: where an instruction has its effect, which exception it raises elsewhere, what decides
that and what the exception carries (`60_exceptions.md`). -/

namespace Sys2Proof.Proofs

open Sys2Proof.Machine

/-! ### The exceptions of an instruction (R301, R302, R304) -/

/-- The exceptions that the spec gives an instruction in a state: IllegalInstruction where the instruction does not
exist at this XLEN (R94) or its rounding mode is reserved (R92, R93, R131), and those of an access that is not admitted, the
access fault after the misalignment (R52, R53, R304). `exec_eq_fault_iff` ties it to the model. -/
inductive Raises (i : Instr) (s : State) : Fault → Prop
  | width (h64 : i.rv64Only = true) (hxlen : s.cfg.xlen = .rv32) : Raises i s (.illegalInstruction (encode i) s.pcVal)
  | mode {rm : RmField} (hrm : i.rm? = some rm) (hmode : rmEff rm s.frm = none) :
    Raises i s (.illegalInstruction (encode i) s.pcVal)
  | loadMisaligned {rd : FReg} {rs1 : XReg} {imm : BitVec 12} (hi : i = .flw rd rs1 imm)
    (halign : alignmentOk s.cfg (s.effAddr rs1 imm) = false) :
    Raises i s (.loadAddressMisaligned (s.effAddr rs1 imm) s.pcVal)
  | loadAccess {rd : FReg} {rs1 : XReg} {imm : BitVec 12} (hi : i = .flw rd rs1 imm)
    (halign : alignmentOk s.cfg (s.effAddr rs1 imm) = true)
    (hvalid : memValid4 s.cfg (s.effAddr rs1 imm) .read = false) :
    Raises i s (.loadAccessFault (s.effAddr rs1 imm) s.pcVal)
  | storeMisaligned {rs2 : FReg} {rs1 : XReg} {imm : BitVec 12} (hi : i = .fsw rs2 rs1 imm)
    (halign : alignmentOk s.cfg (s.effAddr rs1 imm) = false) :
    Raises i s (.storeAddressMisaligned (s.effAddr rs1 imm) s.pcVal)
  | storeAccess {rs2 : FReg} {rs1 : XReg} {imm : BitVec 12} (hi : i = .fsw rs2 rs1 imm)
    (halign : alignmentOk s.cfg (s.effAddr rs1 imm) = true)
    (hvalid : memValid4 s.cfg (s.effAddr rs1 imm) .write = false) :
    Raises i s (.storeAccessFault (s.effAddr rs1 imm) s.pcVal)

theorem exec_of_rv64Only {i : Instr} {s : State} (h64 : i.rv64Only = true) (hxlen : s.cfg.xlen = .rv32) :
    exec i s = .fault (.illegalInstruction (encode i) s.pcVal) := by
  cases i with
  | fcvtLS | fcvtLUS | fcvtSL | fcvtSLU => exact needRv64_rv32 hxlen _
  | _ => cases h64

theorem Raises.exec_eq {i : Instr} {s : State} {e : Fault} (h : Raises i s e) : exec i s = .fault e := by
  cases h with
  | width h64 hxlen => exact exec_of_rv64Only h64 hxlen
  | mode hrm hmode => exact exec_of_rmEff_none hrm hmode
  | loadMisaligned hi halign => exact hi ▸ (exec_loadStore_misaligned halign _).1
  | loadAccess hi halign hvalid => exact hi ▸ exec_flw_accessFault halign hvalid _
  | storeMisaligned hi halign => exact hi ▸ (exec_loadStore_misaligned halign _).2
  | storeAccess hi halign hvalid => exact hi ▸ exec_fsw_accessFault halign hvalid _

/-! ### Where an instruction has its effect (R302, R52, R53, R182) -/

theorem withMode_next_of_ne_none {insn : Bits32} {rm : RmField} {s : State} {k : RoundMode → Result State}
    (hmode : rmEff rm s.frm ≠ none) (hk : ∀ mode, ∃ t, k mode = .next t) : ∃ t, withMode insn rm s k = .next t := by
  obtain ⟨mode, hsome⟩ := Option.ne_none_iff_exists'.mp hmode
  rw [withMode_some hsome]
  exact hk mode

/-- A CSR instruction has its effect on each CSR in scope, whether or not it writes the CSR (R172 to R175). -/
theorem exec_next_of_csrInScope {i : Instr} {n : CsrNum} (hcsr : i.csr? = some n) (hscope : csrInScope n = true)
    (s : State) : ∃ t, exec i s = .next t := by
  obtain ⟨rd, upd, hexec⟩ := exec_eq_csrInstr hcsr s
  obtain ⟨old, hread⟩ := Option.isSome_iff_exists.mp ((s.csrRead_isSome n).trans hscope)
  rw [hexec, csrInstr_inScope rd hread]
  cases upd old with
  | none => exact ⟨_, rfl⟩
  | some w => exact ⟨_, rfl⟩

theorem exec_next_of_completes {i : Instr} {s : State} (h : Completes i s) : ∃ t, exec i s = .next t := by
  obtain ⟨hmode, hwidth, hcsr, haccess⟩ := h
  cases i with
  | flw rd rs1 imm =>
    obtain ⟨halign, hvalid⟩ := haccess
    exact ⟨_, exec_flw_admitted halign hvalid rd⟩
  | fsw rs2 rs1 imm =>
    obtain ⟨halign, hvalid⟩ := haccess
    exact ⟨_, exec_fsw_admitted halign hvalid rs2⟩
  | fmaddS | fmsubS | fnmsubS | fnmaddS | faddS | fsubS | fmulS | fdivS | fsqrtS
  | fcvtWS | fcvtWUS | fcvtSW | fcvtSWU =>
    exact withMode_next_of_ne_none (hmode _ rfl) fun _ => ⟨_, rfl⟩
  | fcvtLS | fcvtLUS | fcvtSL | fcvtSLU =>
    obtain ⟨t, hrun⟩ := withMode_next_of_ne_none (hmode _ rfl) fun _ => ⟨_, rfl⟩
    exact ⟨t, (needRv64_eq_next _ _ _ _).mpr ⟨hwidth rfl, hrun⟩⟩
  | fsgnjS | fsgnjnS | fsgnjxS | fminS | fmaxS | fmvXW | fclassS | feqS | fltS | fleS | fmvWX => exact ⟨_, rfl⟩
  | csrrw | csrrs | csrrc | csrrwi | csrrsi | csrrci => exact exec_next_of_csrInScope rfl (hcsr _ rfl) s

theorem exec_of_not_csrInScope {i : Instr} {n : CsrNum} (hcsr : i.csr? = some n) (hscope : csrInScope n = false)
    (s : State) : exec i s = .refused (.csrOutsideSpec n s.pcVal) := by
  obtain ⟨⟨h1, h2⟩, h3⟩ : (n ≠ 0x001#12 ∧ n ≠ 0x002#12) ∧ n ≠ 0x003#12 := by simpa [csrInScope] using hscope
  exact otherCsrNumbersAreRefused i s n hcsr h1 h2 h3

/-- What stands against an instruction is one of its exceptions, or a CSR out of scope. -/
theorem completes_or_raises_or_csr (i : Instr) (s : State) :
    Completes i s ∨ (∃ e, Raises i s e) ∨ ∃ n, i.csr? = some n ∧ csrInScope n = false := by
  by_contra hno
  obtain ⟨hnot, hraises, hcsr⟩ : ¬ Completes i s ∧ (∀ e, ¬ Raises i s e) ∧
      ∀ n, i.csr? = some n → ¬ csrInScope n = false := by simpa [not_or] using hno
  refine hnot ⟨fun rm hrm hmode => hraises _ (.mode hrm hmode), fun h64 => ?width,
    fun n hn => Bool.eq_true_of_not_eq_false (hcsr n hn), ?access⟩
  case width =>
    cases hxlen : s.cfg.xlen with
    | rv32 => exact absurd (.width h64 hxlen) (hraises _)
    | rv64 => rfl
  case access =>
    cases i with
    | flw rd rs1 imm =>
      have halign := Bool.eq_true_of_not_eq_false fun h => hraises _ (.loadMisaligned rfl h)
      exact ⟨halign, Bool.eq_true_of_not_eq_false fun h => hraises _ (.loadAccess rfl halign h)⟩
    | fsw rs2 rs1 imm =>
      have halign := Bool.eq_true_of_not_eq_false fun h => hraises _ (.storeMisaligned rfl h)
      exact ⟨halign, Bool.eq_true_of_not_eq_false fun h => hraises _ (.storeAccess rfl halign h)⟩
    | _ => trivial

/-- Everything an instruction can answer: its effect, one of its exceptions, or the refusal of its CSR. -/
theorem exec_outcomes (i : Instr) (s : State) :
    (Completes i s ∧ ∃ t, exec i s = .next t) ∨ (∃ e, Raises i s e ∧ exec i s = .fault e) ∨
      ∃ r, exec i s = .refused r := by
  rcases completes_or_raises_or_csr i s with hcompletes | ⟨e, hraises⟩ | ⟨n, hcsr, hscope⟩
  · exact .inl ⟨hcompletes, exec_next_of_completes hcompletes⟩
  · exact .inr (.inl ⟨e, hraises, hraises.exec_eq⟩)
  · exact .inr (.inr ⟨_, exec_of_not_csrInScope hcsr hscope s⟩)

/-- Settles O17: an exception and a refusal are no next state. -/
theorem execCompletesExactly : Obligations.ExecCompletesExactly := by
  intro i s
  refine ⟨fun ⟨t, hnext⟩ => ?_, exec_next_of_completes⟩
  rcases exec_outcomes i s with ⟨hcompletes, _⟩ | ⟨e, _, hfault⟩ | ⟨r, hrefused⟩
  · exact hcompletes
  · cases hnext.symm.trans hfault
  · cases hnext.symm.trans hrefused

/-- An instruction faults exactly with the exceptions that the spec gives it. -/
theorem exec_eq_fault_iff (i : Instr) (s : State) (e : Fault) : exec i s = .fault e ↔ Raises i s e := by
  refine ⟨fun h => ?_, Raises.exec_eq⟩
  rcases exec_outcomes i s with ⟨_, t, hnext⟩ | ⟨e', hraises, hfault⟩ | ⟨r, hrefused⟩
  · cases h.symm.trans hnext
  · cases h.symm.trans hfault
    exact hraises
  · cases h.symm.trans hrefused

/-! ### What decides a fault (R327) -/

/-- The exceptions of an instruction depend on four fields alone: parameters, integer registers, pc, `frm`. -/
theorem Raises.of_fields_eq {i : Instr} {s s' : State} {e : Fault} (h : Raises i s e) (hcfg : s'.cfg = s.cfg)
    (hx : s'.x = s.x) (hpc : s'.pc = s.pc) (hfrm : s'.frm = s.frm) : Raises i s' e := by
  have hpcVal : s.pcVal = s'.pcVal := by rw [State.pcVal, State.pcVal, hcfg, hpc]
  have haddr (rs1 : XReg) (imm : BitVec 12) : s.effAddr rs1 imm = s'.effAddr rs1 imm := by
    simp only [State.effAddr, State.readX, hcfg, hx]
  cases h with
  | width h64 hxlen => exact hpcVal ▸ .width h64 (hcfg ▸ hxlen)
  | mode hrm hmode => exact hpcVal ▸ .mode hrm (hfrm ▸ hmode)
  | loadMisaligned hi halign =>
    rw [← hcfg, haddr] at halign
    exact haddr _ _ ▸ hpcVal ▸ .loadMisaligned hi halign
  | loadAccess hi halign hvalid =>
    rw [← hcfg, haddr] at halign hvalid
    exact haddr _ _ ▸ hpcVal ▸ .loadAccess hi halign hvalid
  | storeMisaligned hi halign =>
    rw [← hcfg, haddr] at halign
    exact haddr _ _ ▸ hpcVal ▸ .storeMisaligned hi halign
  | storeAccess hi halign hvalid =>
    rw [← hcfg, haddr] at halign hvalid
    exact haddr _ _ ▸ hpcVal ▸ .storeAccess hi halign hvalid

/-- Settles O22: the floating-point registers and `fflags` are not among the fields that decide a fault. -/
theorem operandPatternsNeverFault : Obligations.OperandPatternsNeverFault := by
  intro i s f fl e
  rw [exec_eq_fault_iff, exec_eq_fault_iff]
  exact ⟨fun h => h.of_fields_eq rfl rfl rfl rfl, fun h => h.of_fields_eq rfl rfl rfl rfl⟩

/-! ### What a fault carries (R301, R306) -/

theorem memFetch_fault_cases {s : State} {e : Fault} (h : s.memFetch = .fault e) :
    e = .instructionAddressMisaligned s.pcVal ∨ e = .instructionAccessFault s.pcVal := by
  rw [State.memFetch_eq] at h
  split_ifs at h
  · cases h
    exact .inl rfl
  · cases h
    exact .inr rfl

/-- A word faults because it is unassigned, or with an exception of the instruction that it encodes. -/
theorem runWord_fault_cases {w : Bits32} {s : State} {e : Fault} (h : runWord w s = .fault e) :
    e = .illegalInstruction w s.pcVal ∨ ∃ i, encode i = w ∧ Raises i s e := by
  unfold runWord at h
  cases hdecode : decode w with
  | ok i =>
    rw [hdecode] at h
    exact .inr ⟨i, encodeInvertsDecode w i hdecode, (exec_eq_fault_iff i s e).mp h⟩
  | error why =>
    rw [hdecode] at h
    cases why with
    | illegal =>
      cases h
      exact .inl rfl
    | outside => cases h
    | truncated => cases h

/-- A step faults in its fetch, or the fetched word faults. -/
theorem step_fault_cases {s : State} {e : Fault} (h : step s = .fault e) :
    s.memFetch = .fault e ∨ runWord (s.loadWord s.pcVal) s = .fault e := by
  rw [step_eq] at h
  split_ifs at h
  rcases (Result.bind_eq_fault _ _ _).mp h with hfetch | ⟨w, hfetch, hrun⟩
  · exact .inl hfetch
  · obtain ⟨_, _, _, rfl⟩ := (State.memFetch_eq_next s w).mp hfetch
    exact .inr hrun

/-- What R301 and R306 say of a fault at `pc` whose fetched word is `w`. -/
structure Carries (e : Fault) (pc : Word) (w : Bits32) : Prop where
  pc_eq : e.pc = pc
  info_of_illegal : e.cause = 2 → e.info = w.setWidth 64
  info_of_fetch : e.cause ≤ 1 → e.info = pc

theorem carries_illegalInstruction (w : Bits32) (pc : Word) : Carries (.illegalInstruction w pc) pc w where
  pc_eq := rfl
  info_of_illegal _ := rfl
  info_of_fetch hcause := by simp [Fault.cause] at hcause

/-- The exceptions of a load or store have causes 4 to 7, whose information O21 fixes. -/
theorem carries_of_cause {e : Fault} {pc : Word} (hpc : e.pc = pc) (hcause : 4 ≤ e.cause) (w : Bits32) :
    Carries e pc w where
  pc_eq := hpc
  info_of_illegal h := by omega
  info_of_fetch h := by omega

theorem Raises.carries {i : Instr} {s : State} {e : Fault} (h : Raises i s e) : Carries e s.pcVal (encode i) := by
  cases h with
  | width | mode => exact carries_illegalInstruction _ _
  | loadMisaligned | loadAccess | storeMisaligned | storeAccess =>
    exact carries_of_cause rfl (by simp [Fault.cause]) _

/-- Settles O8: the two exceptions of the fetch, the unassigned word, and the exceptions of an instruction, whose
encoding is the fetched word. -/
theorem faultCarriesItsInstruction : Obligations.FaultCarriesItsInstruction := by
  intro s e hstep
  suffices h : Carries e s.pcVal (s.loadWord s.pcVal) from ⟨h.pc_eq, h.info_of_illegal, h.info_of_fetch⟩
  rcases step_fault_cases hstep with hfetch | hrun
  · rcases memFetch_fault_cases hfetch with rfl | rfl <;>
      exact ⟨rfl, fun hcause => by simp [Fault.cause] at hcause, fun _ => rfl⟩
  · rcases runWord_fault_cases hrun with rfl | ⟨i, hencode, hraises⟩
    · exact carries_illegalInstruction _ _
    · exact hencode ▸ hraises.carries

end Sys2Proof.Proofs
end

section
/-! PROOF. Reset: the launch states (`70_reset_and_hazards.md`). -/

namespace Sys2Proof.Proofs

open Sys2Proof.Machine

/-- Settles O11: `inv_of_launch`, which O12 uses for the reset state. -/
theorem launchHasInvariant : Obligations.LaunchHasInvariant :=
  fun _ => inv_of_launch

end Sys2Proof.Proofs
end
